-- ==== Sys2Proof/Word.lean ====
section
/-! DEFINITION. The plain word types the spec names: bytes, parcels, register numbers (spec/00_scope.md R7, R8,
spec/10_state.md R33, spec/20_memory.md R40). -/

namespace Sys2Proof

/-- A byte of memory (20_memory R40: "A byte is 8 bits"). -/
abbrev Byte := BitVec 8

/-- A 16-bit instruction parcel (20_memory R47). -/
abbrev Parcel := BitVec 16

/-- The number of an integer register, x0 to x31 (10_state R20). -/
abbrev RegNum := BitVec 5

/-- A 3-bit register field of the sixteen-bit formats; it names x8 to x15 (10_state R33). -/
abbrev RegNum3 := BitVec 3

end Sys2Proof
end

