-- ==== Sys2Proof/Config.lean ====
section
/-! DEFINITION. What is fixed for a run: XLEN and EXT_C (spec/00_scope.md R1, R6), the memory map's shape
(spec/20_memory.md R42), and the values the model gives the spec's open launch parameters in `State.reset`. -/

namespace Sys2Proof

/-- The three configurations the spec admits, by their ISA strings (00_scope R1). XLEN = 64 with EXT_C = true is
refused by the spec (92 D23) and has no constructor (log entry 1). -/
inductive Isa where
  /-- RV32IC: XLEN = 32, EXT_C = true, the default. -/
  | rv32ic
  /-- RV32I: XLEN = 32, EXT_C = false. -/
  | rv32i
  /-- RV64I: XLEN = 64, EXT_C = false. -/
  | rv64i
  deriving DecidableEq, Repr

/-- XLEN, the width of an x register, of the pc and of an address (00_scope R6). -/
@[reducible] def Isa.xlen : Isa → Nat
  | .rv32ic => 32
  | .rv32i => 32
  | .rv64i => 64

/-- EXT_C, whether the sixteen-bit instructions exist (00_scope R6). -/
def Isa.extC : Isa → Bool
  | .rv32ic => true
  | .rv32i => false
  | .rv64i => false

/-- IALIGN / 8: the alignment of an instruction in bytes, 2 with EXT_C and 4 without (00_scope R6, 10_state R27). -/
def Isa.instrAlign (c : Isa) : Nat := if c.extC then 2 else 4

/-- log2(XLEN): how many low bits of a register give a shift amount (40_integer_computational R145). -/
@[reducible] def Isa.log2Xlen : Isa → Nat
  | .rv32ic => 5
  | .rv32i => 5
  | .rv64i => 6

/-- The kind of an access, which is also the permission it needs (20_memory R42). -/
inductive Access where
  | read
  | write
  | execute
  deriving DecidableEq, Repr

/-- One region of `MemMap`: base, size in bytes and the permissions R, W, X (20_memory R42). -/
structure Region where
  base : Nat
  size : Nat
  r : Bool
  w : Bool
  x : Bool
  deriving DecidableEq, Repr

/-- The memory map, a finite list of disjoint regions (20_memory R42); `MemMap.wf` says disjoint. -/
abbrev MemMap := List Region

namespace Config

/-- The configuration of `State.reset`: the spec's default XLEN = 32, EXT_C = true (00_scope R6). -/
def resetIsa : Isa := .rv32ic

/-- RESET_PC of `State.reset`. DESIGN CHOICE (log entry 3): an OPEN parameter of the spec (10_state R35). -/
def resetPc (c : Isa) : BitVec c.xlen := 0

/-- MemMap of `State.reset`: the whole address space, readable, writable, executable.
DESIGN CHOICE (log entry 4): an OPEN parameter of the spec (20_memory R42). -/
def resetMemMap (c : Isa) : MemMap := [{ base := 0, size := 2 ^ c.xlen, r := true, w := true, x := true }]

/-- The value of each of x1 to x31 in `State.reset`. DESIGN CHOICE (log entry 2): the spec leaves it unspecified
(10_state R34). -/
def resetReg (c : Isa) : BitVec c.xlen := 0

end Config

end Sys2Proof
end

