-- ==== Sys2Proof/Syntax.lean ====
section
/-! DEFINITION. The instructions: one constructor for each of the 89 rows of spec/opcode_table.json.

An immediate is held as the bits the encoding supplies, named by their places in the immediate: `imm12_1` is
imm[12:1] of a branch (bit 0 is always 0, spec/30_encoding.md R75), `uimm6_2` is uimm[6:2] of c.lw (R96).
Machine/Operands.lean turns each into its XLEN-bit value. -/

namespace Sys2Proof

inductive Instr where
  -- RV32I (spec/40_integer_computational.md, 41_control_transfer.md, 42_load_store.md, 43_fence_system.md)
  | lui (rd : RegNum) (imm31_12 : BitVec 20)
  | auipc (rd : RegNum) (imm31_12 : BitVec 20)
  | jal (rd : RegNum) (imm20_1 : BitVec 20)
  | jalr (rd rs1 : RegNum) (imm : BitVec 12)
  | beq (rs1 rs2 : RegNum) (imm12_1 : BitVec 12)
  | bne (rs1 rs2 : RegNum) (imm12_1 : BitVec 12)
  | blt (rs1 rs2 : RegNum) (imm12_1 : BitVec 12)
  | bge (rs1 rs2 : RegNum) (imm12_1 : BitVec 12)
  | bltu (rs1 rs2 : RegNum) (imm12_1 : BitVec 12)
  | bgeu (rs1 rs2 : RegNum) (imm12_1 : BitVec 12)
  | lb (rd rs1 : RegNum) (imm : BitVec 12)
  | lh (rd rs1 : RegNum) (imm : BitVec 12)
  | lw (rd rs1 : RegNum) (imm : BitVec 12)
  | lbu (rd rs1 : RegNum) (imm : BitVec 12)
  | lhu (rd rs1 : RegNum) (imm : BitVec 12)
  | sb (rs1 rs2 : RegNum) (imm : BitVec 12)
  | sh (rs1 rs2 : RegNum) (imm : BitVec 12)
  | sw (rs1 rs2 : RegNum) (imm : BitVec 12)
  | addi (rd rs1 : RegNum) (imm : BitVec 12)
  | slti (rd rs1 : RegNum) (imm : BitVec 12)
  | sltiu (rd rs1 : RegNum) (imm : BitVec 12)
  | xori (rd rs1 : RegNum) (imm : BitVec 12)
  | ori (rd rs1 : RegNum) (imm : BitVec 12)
  | andi (rd rs1 : RegNum) (imm : BitVec 12)
  -- the shift amount has five bits for XLEN = 32 and six for XLEN = 64 (30_encoding R79); WellFormed checks it
  | slli (rd rs1 : RegNum) (shamt : BitVec 6)
  | srli (rd rs1 : RegNum) (shamt : BitVec 6)
  | srai (rd rs1 : RegNum) (shamt : BitVec 6)
  | add (rd rs1 rs2 : RegNum)
  | sub (rd rs1 rs2 : RegNum)
  | sll (rd rs1 rs2 : RegNum)
  | slt (rd rs1 rs2 : RegNum)
  | sltu (rd rs1 rs2 : RegNum)
  | xor (rd rs1 rs2 : RegNum)
  | srl (rd rs1 rs2 : RegNum)
  | sra (rd rs1 rs2 : RegNum)
  | or (rd rs1 rs2 : RegNum)
  | and (rd rs1 rs2 : RegNum)
  | fence (rd rs1 : RegNum) (fm pred succ : BitVec 4)
  | ecall
  | ebreak
  -- RV64I additions, XLEN = 64 only (spec/44_rv64i_word.md, 42_load_store.md R177, R178, R182)
  | lwu (rd rs1 : RegNum) (imm : BitVec 12)
  | ld (rd rs1 : RegNum) (imm : BitVec 12)
  | sd (rs1 rs2 : RegNum) (imm : BitVec 12)
  | addiw (rd rs1 : RegNum) (imm : BitVec 12)
  | slliw (rd rs1 : RegNum) (shamt : BitVec 5)
  | srliw (rd rs1 : RegNum) (shamt : BitVec 5)
  | sraiw (rd rs1 : RegNum) (shamt : BitVec 5)
  | addw (rd rs1 rs2 : RegNum)
  | subw (rd rs1 rs2 : RegNum)
  | sllw (rd rs1 rs2 : RegNum)
  | srlw (rd rs1 rs2 : RegNum)
  | sraw (rd rs1 rs2 : RegNum)
  -- RV32C, EXT_C = true only (spec/45_compressed.md); a `RegNum3` operand is a primed register field
  | cIllegal
  | cAddi4spn (rd' : RegNum3) (nzuimm9_2 : BitVec 8)
  | cFld (rd' rs1' : RegNum3) (uimm7_3 : BitVec 5)
  | cLw (rd' rs1' : RegNum3) (uimm6_2 : BitVec 5)
  | cFlw (rd' rs1' : RegNum3) (uimm6_2 : BitVec 5)
  | cFsd (rs1' rs2' : RegNum3) (uimm7_3 : BitVec 5)
  | cSw (rs1' rs2' : RegNum3) (uimm6_2 : BitVec 5)
  | cFsw (rs1' rs2' : RegNum3) (uimm6_2 : BitVec 5)
  | cNop (imm : BitVec 6)
  | cAddi (rd : RegNum) (imm : BitVec 6)
  | cJal (imm11_1 : BitVec 11)
  | cLi (rd : RegNum) (imm : BitVec 6)
  | cAddi16sp (nzimm9_4 : BitVec 6)
  | cLui (rd : RegNum) (nzimm17_12 : BitVec 6)
  | cSrli (rd' : RegNum3) (shamt : BitVec 6)
  | cSrai (rd' : RegNum3) (shamt : BitVec 6)
  | cAndi (rd' : RegNum3) (imm : BitVec 6)
  | cSub (rd' rs2' : RegNum3)
  | cXor (rd' rs2' : RegNum3)
  | cOr (rd' rs2' : RegNum3)
  | cAnd (rd' rs2' : RegNum3)
  | cJ (imm11_1 : BitVec 11)
  | cBeqz (rs1' : RegNum3) (imm8_1 : BitVec 8)
  | cBnez (rs1' : RegNum3) (imm8_1 : BitVec 8)
  | cSlli64 (rd : RegNum)
  | cSlli (rd : RegNum) (shamt : BitVec 6)
  | cFldsp (rd : RegNum) (uimm8_3 : BitVec 6)
  | cLwsp (rd : RegNum) (uimm7_2 : BitVec 6)
  | cFlwsp (rd : RegNum) (uimm7_2 : BitVec 6)
  | cJr (rs1 : RegNum)
  | cMv (rd rs2 : RegNum)
  | cEbreak
  | cJalr (rs1 : RegNum)
  | cAdd (rd rs2 : RegNum)
  | cFsdsp (rs2 : RegNum) (uimm8_3 : BitVec 6)
  | cSwsp (rs2 : RegNum) (uimm7_2 : BitVec 6)
  | cFswsp (rs2 : RegNum) (uimm7_2 : BitVec 6)
  deriving DecidableEq, Repr

/-- The part of the spec an instruction belongs to, which decides the configurations that have it
(00_scope R3, the `requires` of opcode_table.json). -/
inductive Family where
  | base
  | rv64
  | compressed
  deriving DecidableEq, Repr

end Sys2Proof
end

