-- ==== Sys2Proof/WellFormed.lean ====
section
/-! DEFINITION. Well-formed instructions: the configuration has the instruction (spec/30_encoding.md R85, R97) and its
fields are none of the values the spec calls reserved, or that spell another row of the table (R98, and the
`constraints` of opcode_table.json). -/

namespace Sys2Proof

/-- The family of an instruction (00_scope R3). -/
def Instr.family : Instr → Family
  | .lui .. | .auipc .. | .jal .. | .jalr .. => .base
  | .beq .. | .bne .. | .blt .. | .bge .. | .bltu .. | .bgeu .. => .base
  | .lb .. | .lh .. | .lw .. | .lbu .. | .lhu .. | .sb .. | .sh .. | .sw .. => .base
  | .addi .. | .slti .. | .sltiu .. | .xori .. | .ori .. | .andi .. | .slli .. | .srli .. | .srai .. => .base
  | .add .. | .sub .. | .sll .. | .slt .. | .sltu .. | .xor .. | .srl .. | .sra .. | .or .. | .and .. => .base
  | .fence .. | .ecall | .ebreak => .base
  | .lwu .. | .ld .. | .sd .. | .addiw .. | .slliw .. | .srliw .. | .sraiw .. => .rv64
  | .addw .. | .subw .. | .sllw .. | .srlw .. | .sraw .. => .rv64
  | .cIllegal | .cAddi4spn .. | .cFld .. | .cLw .. | .cFlw .. | .cFsd .. | .cSw .. | .cFsw .. => .compressed
  | .cNop .. | .cAddi .. | .cJal .. | .cLi .. | .cAddi16sp .. | .cLui .. | .cSrli .. | .cSrai .. => .compressed
  | .cAndi .. | .cSub .. | .cXor .. | .cOr .. | .cAnd .. | .cJ .. | .cBeqz .. | .cBnez .. => .compressed
  | .cSlli64 .. | .cSlli .. | .cFldsp .. | .cLwsp .. | .cFlwsp .. | .cJr .. | .cMv .. | .cEbreak => .compressed
  | .cJalr .. | .cAdd .. | .cFsdsp .. | .cSwsp .. | .cFswsp .. => .compressed

/-- The length in bytes (30_encoding R70, 45_compressed R221). -/
def Instr.length (i : Instr) : Nat :=
  match i.family with
  | .base => 4
  | .rv64 => 4
  | .compressed => 2

/-- Whether a configuration has a family: RV64I rows need XLEN = 64, sixteen-bit rows need EXT_C (30_encoding R85, R70). -/
def Family.enabled (c : Isa) : Family → Bool
  | .base => true
  | .rv64 => c.xlen == 64
  | .compressed => c.extC

/-- The field values a row's constraints leave it. Reserved: nzuimm = 0 of c.addi4spn, nzimm = 0 of c.addi16sp and c.lui,
rd = 0 of c.lwsp, rs1 = 0 of c.jr, a shift amount of XLEN or more (30_encoding R79, R98). Another row's words: rd = 0 of
c.addi, rd = 2 of c.lui, shamt = 0 of c.slli, rs2 = 0 of c.mv and c.add, rs1 = 0 of c.jalr (opcode_table.json). -/
def Instr.fieldsOk (c : Isa) : Instr → Bool
  | .slli _ _ shamt | .srli _ _ shamt | .srai _ _ shamt => decide (shamt.toNat < c.xlen)
  | .cAddi4spn _ nzuimm => decide (nzuimm ≠ 0)
  | .cAddi rd _ => decide (rd ≠ 0)
  | .cAddi16sp nzimm => decide (nzimm ≠ 0)
  | .cLui rd nzimm => decide (rd ≠ 2 ∧ nzimm ≠ 0)
  | .cSrli _ shamt | .cSrai _ shamt => decide (shamt.toNat < 32)
  | .cSlli _ shamt => decide (shamt.toNat < 32 ∧ shamt ≠ 0)
  | .cLwsp rd _ => decide (rd ≠ 0)
  | .cJr rs1 | .cJalr rs1 => decide (rs1 ≠ 0)
  | .cMv _ rs2 | .cAdd _ rs2 => decide (rs2 ≠ 0)
  | .lui .. | .auipc .. | .jal .. | .jalr .. | .beq .. | .bne .. | .blt .. | .bge .. | .bltu .. | .bgeu .. => true
  | .lb .. | .lh .. | .lw .. | .lbu .. | .lhu .. | .sb .. | .sh .. | .sw .. => true
  | .addi .. | .slti .. | .sltiu .. | .xori .. | .ori .. | .andi .. => true
  | .add .. | .sub .. | .sll .. | .slt .. | .sltu .. | .xor .. | .srl .. | .sra .. | .or .. | .and .. => true
  | .fence .. | .ecall | .ebreak => true
  | .lwu .. | .ld .. | .sd .. | .addiw .. | .slliw .. | .srliw .. | .sraiw .. => true
  | .addw .. | .subw .. | .sllw .. | .srlw .. | .sraw .. => true
  | .cIllegal | .cFld .. | .cLw .. | .cFlw .. | .cFsd .. | .cSw .. | .cFsw .. => true
  | .cNop .. | .cJal .. | .cLi .. | .cAndi .. | .cSub .. | .cXor .. | .cOr .. | .cAnd .. => true
  | .cJ .. | .cBeqz .. | .cBnez .. | .cSlli64 .. | .cFldsp .. | .cFlwsp .. | .cEbreak => true
  | .cFsdsp .. | .cSwsp .. | .cFswsp .. => true

/-- A well-formed instruction of a configuration: one that some word of that configuration encodes. -/
def Instr.wf (c : Isa) (i : Instr) : Bool := i.family.enabled c && i.fieldsOk c

end Sys2Proof
end

