-- ==== Sys2Proof/Decode.lean ====
section
/-! DEFINITION. The decoder, total on any bytes and rejecting by name (spec/30_encoding.md R70 to R101), then the encoder,
written from the same encoding tables (R72 to R84, R95, R96). -/

namespace Sys2Proof

/-! ### Instruction words and their bytes -/

/-- The words an instruction is made of: one 16-bit parcel, or two read as one 32-bit word (30_encoding R70). -/
inductive InstrWord where
  | short (w : Parcel)
  | long (w : BitVec 32)
  deriving DecidableEq, Repr

/-- The instruction bits as an unsigned number (60_exceptions R282). -/
def InstrWord.bits : InstrWord → Nat
  | .short w => w.toNat
  | .long w => w.toNat

/-- The two bytes of a parcel, the lowest-addressed first (20_memory R47). -/
def parcelBytes (p : Parcel) : List Byte := [p.extractLsb 7 0, p.extractLsb 15 8]

/-- The parcel that two bytes hold, the first one the lowest-addressed (20_memory R47: p0 = mem[pc+1], mem[pc]). -/
def parcelOf (b0 b1 : Byte) : Parcel := b1 ++ b0

/-- An instruction's bytes in memory, lowest address first; the low parcel comes first (20_memory R47, 45 R264). -/
def InstrWord.bytes : InstrWord → List Byte
  | .short w => parcelBytes w
  | .long w => parcelBytes (w.extractLsb 15 0) ++ parcelBytes (w.extractLsb 31 16)

/-- Whether a first parcel begins a 32-bit instruction: inst[1:0] = 11 (30_encoding R70). -/
def isLong (p : Parcel) : Bool := p.extractLsb 1 0 == 0b11

/-! ### Fields of a 32-bit word (30_encoding R71 to R79) -/

def opcodeOf (w : BitVec 32) : BitVec 7 := w.extractLsb 6 0
def rdOf (w : BitVec 32) : RegNum := w.extractLsb 11 7
def funct3Of (w : BitVec 32) : BitVec 3 := w.extractLsb 14 12
def rs1Of (w : BitVec 32) : RegNum := w.extractLsb 19 15
def rs2Of (w : BitVec 32) : RegNum := w.extractLsb 24 20
def funct7Of (w : BitVec 32) : BitVec 7 := w.extractLsb 31 25

/-- imm[11:0] of format I (R73). -/
def immIOf (w : BitVec 32) : BitVec 12 := w.extractLsb 31 20

/-- imm[11:0] of format S (R74). -/
def immSOf (w : BitVec 32) : BitVec 12 := w.extractLsb 31 25 ++ w.extractLsb 11 7

/-- imm[12:1] of format B (R75). -/
def immBOf (w : BitVec 32) : BitVec 12 :=
  w.extractLsb 31 31 ++ w.extractLsb 7 7 ++ w.extractLsb 30 25 ++ w.extractLsb 11 8

/-- imm[31:12] of format U (R76). -/
def immUOf (w : BitVec 32) : BitVec 20 := w.extractLsb 31 12

/-- imm[20:1] of format J (R77). -/
def immJOf (w : BitVec 32) : BitVec 20 :=
  w.extractLsb 31 31 ++ w.extractLsb 19 12 ++ w.extractLsb 20 20 ++ w.extractLsb 30 21

/-- The six-bit shift amount inst[25:20] (R79); with XLEN = 32 its top bit must be 0. -/
def shamt6Of (w : BitVec 32) : BitVec 6 := w.extractLsb 25 20

/-- The upper bits inst[31:26] of a shift with a six-bit amount (R79). -/
def funct6Of (w : BitVec 32) : BitVec 6 := w.extractLsb 31 26

def fmOf (w : BitVec 32) : BitVec 4 := w.extractLsb 31 28
def predOf (w : BitVec 32) : BitVec 4 := w.extractLsb 27 24
def succOf (w : BitVec 32) : BitVec 4 := w.extractLsb 23 20

/-! ### Fields of a 16-bit word (30_encoding R86 to R96) -/

def cOpOf (w : Parcel) : BitVec 2 := w.extractLsb 1 0
def cFunct3Of (w : Parcel) : BitVec 3 := w.extractLsb 15 13
def cBit12Of (w : Parcel) : BitVec 1 := w.extractLsb 12 12
/-- inst[11:7], the 5-bit register field rd/rs1 of CR and CI. -/
def cRdOf (w : Parcel) : RegNum := w.extractLsb 11 7
/-- inst[6:2], the 5-bit register field rs2 of CR and CSS. -/
def cRs2Of (w : Parcel) : RegNum := w.extractLsb 6 2
/-- inst[9:7], the primed field rs1' or rd'. -/
def cRs1'Of (w : Parcel) : RegNum3 := w.extractLsb 9 7
/-- inst[4:2], the primed field rd' or rs2'. -/
def cRd'Of (w : Parcel) : RegNum3 := w.extractLsb 4 2
/-- inst[11:10], the function code of the CB-shaped rows of quadrant 01. -/
def cFunct2Of (w : Parcel) : BitVec 2 := w.extractLsb 11 10
/-- inst[6:5], the function code of the register-register rows of quadrant 01. -/
def cFunct2RegOf (w : Parcel) : BitVec 2 := w.extractLsb 6 5

/-- imm[5:0] of c.nop, c.addi, c.li, c.andi, the shift amount of c.slli, c.srli, c.srai, nzimm[17:12] of c.lui (R96). -/
def cImm6Of (w : Parcel) : BitVec 6 := w.extractLsb 12 12 ++ w.extractLsb 6 2
/-- nzuimm[9:2] of c.addi4spn (R96). -/
def cAddi4spnImmOf (w : Parcel) : BitVec 8 :=
  w.extractLsb 10 7 ++ w.extractLsb 12 11 ++ w.extractLsb 5 5 ++ w.extractLsb 6 6
/-- uimm[6:2] of c.lw, c.sw, c.flw, c.fsw (R96). -/
def cWordOffOf (w : Parcel) : BitVec 5 := w.extractLsb 5 5 ++ w.extractLsb 12 10 ++ w.extractLsb 6 6
/-- uimm[7:3] of c.fld, c.fsd (R96). -/
def cDoubleOffOf (w : Parcel) : BitVec 5 := w.extractLsb 6 5 ++ w.extractLsb 12 10
/-- imm[11:1] of c.j, c.jal (R96). -/
def cJumpOffOf (w : Parcel) : BitVec 11 :=
  w.extractLsb 12 12 ++ w.extractLsb 8 8 ++ w.extractLsb 10 9 ++ w.extractLsb 6 6 ++ w.extractLsb 7 7 ++
    w.extractLsb 2 2 ++ w.extractLsb 11 11 ++ w.extractLsb 5 3
/-- nzimm[9:4] of c.addi16sp (R96). -/
def cAddi16spImmOf (w : Parcel) : BitVec 6 :=
  w.extractLsb 12 12 ++ w.extractLsb 4 3 ++ w.extractLsb 5 5 ++ w.extractLsb 2 2 ++ w.extractLsb 6 6
/-- imm[8:1] of c.beqz, c.bnez (R96). -/
def cBranchOffOf (w : Parcel) : BitVec 8 :=
  w.extractLsb 12 12 ++ w.extractLsb 6 5 ++ w.extractLsb 2 2 ++ w.extractLsb 11 10 ++ w.extractLsb 4 3
/-- uimm[7:2] of c.lwsp, c.flwsp (R96). -/
def cLwspOffOf (w : Parcel) : BitVec 6 := w.extractLsb 3 2 ++ w.extractLsb 12 12 ++ w.extractLsb 6 4
/-- uimm[8:3] of c.fldsp (R96). -/
def cFldspOffOf (w : Parcel) : BitVec 6 := w.extractLsb 4 2 ++ w.extractLsb 12 12 ++ w.extractLsb 6 5
/-- uimm[7:2] of c.swsp, c.fswsp (R96). -/
def cSwspOffOf (w : Parcel) : BitVec 6 := w.extractLsb 8 7 ++ w.extractLsb 12 9
/-- uimm[8:3] of c.fsdsp (R96). -/
def cFsdspOffOf (w : Parcel) : BitVec 6 := w.extractLsb 9 7 ++ w.extractLsb 12 10

/-! ### Decoding a 32-bit word

The rows of 30_encoding R84 for XLEN = 32 and XLEN = 64 together: with a six-bit shift amount they do not overlap.
`decode` then drops what the configuration does not have (R85). -/

def decodeLoad (w : BitVec 32) : Option Instr :=
  match (funct3Of w).toNat with
  | 0b000 => some (.lb (rdOf w) (rs1Of w) (immIOf w))
  | 0b001 => some (.lh (rdOf w) (rs1Of w) (immIOf w))
  | 0b010 => some (.lw (rdOf w) (rs1Of w) (immIOf w))
  | 0b011 => some (.ld (rdOf w) (rs1Of w) (immIOf w))
  | 0b100 => some (.lbu (rdOf w) (rs1Of w) (immIOf w))
  | 0b101 => some (.lhu (rdOf w) (rs1Of w) (immIOf w))
  | 0b110 => some (.lwu (rdOf w) (rs1Of w) (immIOf w))
  | _ => none

def decodeStore (w : BitVec 32) : Option Instr :=
  match (funct3Of w).toNat with
  | 0b000 => some (.sb (rs1Of w) (rs2Of w) (immSOf w))
  | 0b001 => some (.sh (rs1Of w) (rs2Of w) (immSOf w))
  | 0b010 => some (.sw (rs1Of w) (rs2Of w) (immSOf w))
  | 0b011 => some (.sd (rs1Of w) (rs2Of w) (immSOf w))
  | _ => none

def decodeBranch (w : BitVec 32) : Option Instr :=
  match (funct3Of w).toNat with
  | 0b000 => some (.beq (rs1Of w) (rs2Of w) (immBOf w))
  | 0b001 => some (.bne (rs1Of w) (rs2Of w) (immBOf w))
  | 0b100 => some (.blt (rs1Of w) (rs2Of w) (immBOf w))
  | 0b101 => some (.bge (rs1Of w) (rs2Of w) (immBOf w))
  | 0b110 => some (.bltu (rs1Of w) (rs2Of w) (immBOf w))
  | 0b111 => some (.bgeu (rs1Of w) (rs2Of w) (immBOf w))
  | _ => none

def decodeOpImm (w : BitVec 32) : Option Instr :=
  match (funct3Of w).toNat with
  | 0b000 => some (.addi (rdOf w) (rs1Of w) (immIOf w))
  | 0b001 => if funct6Of w = 0b000000 then some (.slli (rdOf w) (rs1Of w) (shamt6Of w)) else none
  | 0b010 => some (.slti (rdOf w) (rs1Of w) (immIOf w))
  | 0b011 => some (.sltiu (rdOf w) (rs1Of w) (immIOf w))
  | 0b100 => some (.xori (rdOf w) (rs1Of w) (immIOf w))
  | 0b101 =>
    if funct6Of w = 0b000000 then some (.srli (rdOf w) (rs1Of w) (shamt6Of w))
    else if funct6Of w = 0b010000 then some (.srai (rdOf w) (rs1Of w) (shamt6Of w)) else none
  | 0b110 => some (.ori (rdOf w) (rs1Of w) (immIOf w))
  | 0b111 => some (.andi (rdOf w) (rs1Of w) (immIOf w))
  | _ => none

def decodeOp (w : BitVec 32) : Option Instr :=
  match (funct7Of w).toNat, (funct3Of w).toNat with
  | 0b0000000, 0b000 => some (.add (rdOf w) (rs1Of w) (rs2Of w))
  | 0b0100000, 0b000 => some (.sub (rdOf w) (rs1Of w) (rs2Of w))
  | 0b0000000, 0b001 => some (.sll (rdOf w) (rs1Of w) (rs2Of w))
  | 0b0000000, 0b010 => some (.slt (rdOf w) (rs1Of w) (rs2Of w))
  | 0b0000000, 0b011 => some (.sltu (rdOf w) (rs1Of w) (rs2Of w))
  | 0b0000000, 0b100 => some (.xor (rdOf w) (rs1Of w) (rs2Of w))
  | 0b0000000, 0b101 => some (.srl (rdOf w) (rs1Of w) (rs2Of w))
  | 0b0100000, 0b101 => some (.sra (rdOf w) (rs1Of w) (rs2Of w))
  | 0b0000000, 0b110 => some (.or (rdOf w) (rs1Of w) (rs2Of w))
  | 0b0000000, 0b111 => some (.and (rdOf w) (rs1Of w) (rs2Of w))
  | _, _ => none

def decodeOpImm32 (w : BitVec 32) : Option Instr :=
  match (funct3Of w).toNat with
  | 0b000 => some (.addiw (rdOf w) (rs1Of w) (immIOf w))
  | 0b001 => if funct7Of w = 0b0000000 then some (.slliw (rdOf w) (rs1Of w) (rs2Of w)) else none
  | 0b101 =>
    if funct7Of w = 0b0000000 then some (.srliw (rdOf w) (rs1Of w) (rs2Of w))
    else if funct7Of w = 0b0100000 then some (.sraiw (rdOf w) (rs1Of w) (rs2Of w)) else none
  | _ => none

def decodeOp32 (w : BitVec 32) : Option Instr :=
  match (funct7Of w).toNat, (funct3Of w).toNat with
  | 0b0000000, 0b000 => some (.addw (rdOf w) (rs1Of w) (rs2Of w))
  | 0b0100000, 0b000 => some (.subw (rdOf w) (rs1Of w) (rs2Of w))
  | 0b0000000, 0b001 => some (.sllw (rdOf w) (rs1Of w) (rs2Of w))
  | 0b0000000, 0b101 => some (.srlw (rdOf w) (rs1Of w) (rs2Of w))
  | 0b0100000, 0b101 => some (.sraw (rdOf w) (rs1Of w) (rs2Of w))
  | _, _ => none

/-- ECALL and EBREAK are single words: all 32 bits are matched (30_encoding R85, 43_fence_system R193). -/
def decodeSystem (w : BitVec 32) : Option Instr :=
  if w = 0x00000073 then some .ecall
  else if w = 0x00100073 then some .ebreak else none

/-- The row of R84 a 32-bit word matches, none if it matches no row at any XLEN (R85, R101). -/
def decode32 (w : BitVec 32) : Option Instr :=
  match (opcodeOf w).toNat with
  | 0b0110111 => some (.lui (rdOf w) (immUOf w))
  | 0b0010111 => some (.auipc (rdOf w) (immUOf w))
  | 0b1101111 => some (.jal (rdOf w) (immJOf w))
  | 0b1100111 => if funct3Of w = 0b000 then some (.jalr (rdOf w) (rs1Of w) (immIOf w)) else none
  | 0b1100011 => decodeBranch w
  | 0b0000011 => decodeLoad w
  | 0b0100011 => decodeStore w
  | 0b0010011 => decodeOpImm w
  | 0b0110011 => decodeOp w
  | 0b0001111 =>
    -- only opcode and funct3 are matched (R85, 43_fence_system R190)
    if funct3Of w = 0b000 then some (.fence (rdOf w) (rs1Of w) (fmOf w) (predOf w) (succOf w)) else none
  | 0b1110011 => decodeSystem w
  | 0b0011011 => decodeOpImm32 w
  | 0b0111011 => decodeOp32 w
  | _ => none

/-! ### Decoding a 16-bit word (30_encoding R97)

The reserved field values of R98 are not tested here: `decode` refuses what is not well-formed. -/

def decodeQuadrant0 (w : Parcel) : Option Instr :=
  match (cFunct3Of w).toNat with
  | 0b000 => if w = 0 then some .cIllegal else some (.cAddi4spn (cRd'Of w) (cAddi4spnImmOf w))
  | 0b001 => some (.cFld (cRd'Of w) (cRs1'Of w) (cDoubleOffOf w))
  | 0b010 => some (.cLw (cRd'Of w) (cRs1'Of w) (cWordOffOf w))
  | 0b011 => some (.cFlw (cRd'Of w) (cRs1'Of w) (cWordOffOf w))
  | 0b101 => some (.cFsd (cRs1'Of w) (cRd'Of w) (cDoubleOffOf w))
  | 0b110 => some (.cSw (cRs1'Of w) (cRd'Of w) (cWordOffOf w))
  | 0b111 => some (.cFsw (cRs1'Of w) (cRd'Of w) (cWordOffOf w))
  | _ => none

/-- The rows of quadrant 01 with inst[15:13] = 100. -/
def decodeQuadrant1Alu (w : Parcel) : Option Instr :=
  match (cFunct2Of w).toNat with
  | 0b00 => some (.cSrli (cRs1'Of w) (cImm6Of w))
  | 0b01 => some (.cSrai (cRs1'Of w) (cImm6Of w))
  | 0b10 => some (.cAndi (cRs1'Of w) (cImm6Of w))
  | _ =>
    if cBit12Of w = 0 then
      match (cFunct2RegOf w).toNat with
      | 0b00 => some (.cSub (cRs1'Of w) (cRd'Of w))
      | 0b01 => some (.cXor (cRs1'Of w) (cRd'Of w))
      | 0b10 => some (.cOr (cRs1'Of w) (cRd'Of w))
      | _ => some (.cAnd (cRs1'Of w) (cRd'Of w))
    else none

def decodeQuadrant1 (w : Parcel) : Option Instr :=
  match (cFunct3Of w).toNat with
  | 0b000 => if cRdOf w = 0 then some (.cNop (cImm6Of w)) else some (.cAddi (cRdOf w) (cImm6Of w))
  | 0b001 => some (.cJal (cJumpOffOf w))
  | 0b010 => some (.cLi (cRdOf w) (cImm6Of w))
  | 0b011 => if cRdOf w = 2 then some (.cAddi16sp (cAddi16spImmOf w)) else some (.cLui (cRdOf w) (cImm6Of w))
  | 0b100 => decodeQuadrant1Alu w
  | 0b101 => some (.cJ (cJumpOffOf w))
  | 0b110 => some (.cBeqz (cRs1'Of w) (cBranchOffOf w))
  | _ => some (.cBnez (cRs1'Of w) (cBranchOffOf w))

/-- The rows of quadrant 10 with inst[15:13] = 100. -/
def decodeQuadrant2Reg (w : Parcel) : Option Instr :=
  if cBit12Of w = 0 then
    if cRs2Of w = 0 then some (.cJr (cRdOf w)) else some (.cMv (cRdOf w) (cRs2Of w))
  else if cRs2Of w = 0 then
    if cRdOf w = 0 then some .cEbreak else some (.cJalr (cRdOf w))
  else some (.cAdd (cRdOf w) (cRs2Of w))

def decodeQuadrant2 (w : Parcel) : Option Instr :=
  match (cFunct3Of w).toNat with
  | 0b000 => if cImm6Of w = 0 then some (.cSlli64 (cRdOf w)) else some (.cSlli (cRdOf w) (cImm6Of w))
  | 0b001 => some (.cFldsp (cRdOf w) (cFldspOffOf w))
  | 0b010 => some (.cLwsp (cRdOf w) (cLwspOffOf w))
  | 0b011 => some (.cFlwsp (cRdOf w) (cLwspOffOf w))
  | 0b100 => decodeQuadrant2Reg w
  | 0b101 => some (.cFsdsp (cRs2Of w) (cFsdspOffOf w))
  | 0b110 => some (.cSwsp (cRs2Of w) (cSwspOffOf w))
  | _ => some (.cFswsp (cRs2Of w) (cSwspOffOf w))

/-- The row of R95 a 16-bit word matches; a parcel with inst[1:0] = 11 begins a longer instruction and matches none. -/
def decode16 (w : Parcel) : Option Instr :=
  match (cOpOf w).toNat with
  | 0b00 => decodeQuadrant0 w
  | 0b01 => decodeQuadrant1 w
  | 0b10 => decodeQuadrant2 w
  | _ => none

/-! ### The decoder -/

/-- Why bits are no instruction of a configuration. Each but `truncated` is an IllegalInstruction of 60_exceptions R282. -/
inductive Reject where
  /-- The bytes end before the instruction does. -/
  | truncated
  /-- No row of the table at any configuration (30_encoding R98, R101). -/
  | unassigned (w : InstrWord)
  /-- A row the configuration does not have: RV64I-only with XLEN = 32, sixteen bits with EXT_C = false (R70, R85). -/
  | notEnabled (i : Instr)
  /-- A row with a reserved field value (R79, R98). -/
  | reserved (i : Instr)
  deriving DecidableEq, Repr

/-- The row a word matches, whatever the configuration. -/
def decodeRow : InstrWord → Option Instr
  | .short w => decode16 w
  | .long w => decode32 w

/-- Decoding an instruction word in a configuration (30_encoding R85, R97, R98). -/
def decode (c : Isa) (w : InstrWord) : Except Reject Instr :=
  match decodeRow w with
  | none => .error (.unassigned w)
  | some i =>
    if i.family.enabled c then if i.fieldsOk c then .ok i else .error (.reserved i)
    else .error (.notEnabled i)

/-- The first instruction word of a byte sequence and the bytes after it; none if they end before it does (R70). -/
def splitWord : List Byte → Option (InstrWord × List Byte)
  | b0 :: b1 :: rest =>
    if isLong (parcelOf b0 b1) then
      match rest with
      | b2 :: b3 :: rest' => some (.long (parcelOf b2 b3 ++ parcelOf b0 b1), rest')
      | _ => none
    else some (.short (parcelOf b0 b1), rest)
  | _ => none

/-- The decoder on bytes: the first instruction and the bytes after it. -/
def decodeBytes (c : Isa) (bs : List Byte) : Except Reject (Instr × List Byte) :=
  match splitWord bs with
  | none => .error .truncated
  | some (w, rest) =>
    match decode c w with
    | .ok i => .ok (i, rest)
    | .error e => .error e

/-- The bytes of an instruction whose bits, numbered as the opcode table numbers them, are `w`: `nbits` of them, then
zeros up to the longest instruction, four bytes. -/
def tableBytes (nbits w : Nat) : List Byte :=
  let v : BitVec 32 := BitVec.ofNat 32 (w % 2 ^ nbits)
  (InstrWord.long v).bytes

/-- The first of some configurations whose decoder accepts the bytes, with the instruction it reads. -/
def firstDecoding : List Isa → List Byte → Option (Isa × Instr)
  | [], _ => none
  | c :: cs, bs =>
    match decodeBytes c bs with
    | .ok (i, _) => some (c, i)
    | .error _ => firstDecoding cs bs

/-- The instruction the decoder reads from a table row's bits, in the first configuration that has the row. -/
def decodeTableWord (nbits w : Nat) : Option Instr :=
  (firstDecoding [.rv32ic, .rv64i] (tableBytes nbits w)).map (·.2)

/-! ### The encoder -/

/-- Format R (30_encoding R72). -/
def encR (funct7 : BitVec 7) (rs2 rs1 : RegNum) (funct3 : BitVec 3) (rd : RegNum) (opcode : BitVec 7) : BitVec 32 :=
  funct7 ++ rs2 ++ rs1 ++ funct3 ++ rd ++ opcode

/-- Format I (R73). -/
def encI (imm : BitVec 12) (rs1 : RegNum) (funct3 : BitVec 3) (rd : RegNum) (opcode : BitVec 7) : BitVec 32 :=
  imm ++ rs1 ++ funct3 ++ rd ++ opcode

/-- Format I with a six-bit shift amount (R79). -/
def encShift (funct6 : BitVec 6) (shamt : BitVec 6) (rs1 : RegNum) (funct3 : BitVec 3) (rd : RegNum)
    (opcode : BitVec 7) : BitVec 32 :=
  funct6 ++ shamt ++ rs1 ++ funct3 ++ rd ++ opcode

/-- Format S (R74). -/
def encS (imm : BitVec 12) (rs2 rs1 : RegNum) (funct3 : BitVec 3) (opcode : BitVec 7) : BitVec 32 :=
  imm.extractLsb 11 5 ++ rs2 ++ rs1 ++ funct3 ++ imm.extractLsb 4 0 ++ opcode

/-- Format B (R75); bit i of `f` is imm[i+1]. -/
def encB (f : BitVec 12) (rs2 rs1 : RegNum) (funct3 : BitVec 3) (opcode : BitVec 7) : BitVec 32 :=
  f.extractLsb 11 11 ++ f.extractLsb 9 4 ++ rs2 ++ rs1 ++ funct3 ++ f.extractLsb 3 0 ++ f.extractLsb 10 10 ++ opcode

/-- Format U (R76). -/
def encU (imm : BitVec 20) (rd : RegNum) (opcode : BitVec 7) : BitVec 32 := imm ++ rd ++ opcode

/-- Format J (R77); bit i of `f` is imm[i+1]. -/
def encJ (f : BitVec 20) (rd : RegNum) (opcode : BitVec 7) : BitVec 32 :=
  f.extractLsb 19 19 ++ f.extractLsb 9 0 ++ f.extractLsb 10 10 ++ f.extractLsb 18 11 ++ rd ++ opcode

/-- FENCE's fields (43_fence_system R190). -/
def encFence (fm pred succ : BitVec 4) (rs1 rd : RegNum) : BitVec 32 :=
  fm ++ pred ++ succ ++ rs1 ++ 0b000#3 ++ rd ++ 0b0001111#7

/-- CR (R86). -/
def encCR (funct4 : BitVec 4) (rd rs2 : RegNum) : Parcel := funct4 ++ rd ++ rs2 ++ 0b10#2

/-- CI with imm[5:0] in inst[12], inst[6:2] (R87, R96). -/
def encCI (funct3 : BitVec 3) (imm : BitVec 6) (rd : RegNum) (op : BitVec 2) : Parcel :=
  funct3 ++ imm.extractLsb 5 5 ++ rd ++ imm.extractLsb 4 0 ++ op

/-- c.addi4spn (R89, R96); bit i of `u` is nzuimm[i+2]. -/
def encAddi4spn (u : BitVec 8) (rd' : RegNum3) : Parcel :=
  0b000#3 ++ u.extractLsb 3 2 ++ u.extractLsb 7 4 ++ u.extractLsb 0 0 ++ u.extractLsb 1 1 ++ rd' ++ 0b00#2

/-- CL and CS with a word offset (R90, R91, R96); bit i of `u` is uimm[i+2]. -/
def encWordOff (funct3 : BitVec 3) (u : BitVec 5) (rs1' r' : RegNum3) : Parcel :=
  funct3 ++ u.extractLsb 3 1 ++ rs1' ++ u.extractLsb 0 0 ++ u.extractLsb 4 4 ++ r' ++ 0b00#2

/-- CL and CS with a doubleword offset (R90, R91, R96); bit i of `u` is uimm[i+3]. -/
def encDoubleOff (funct3 : BitVec 3) (u : BitVec 5) (rs1' r' : RegNum3) : Parcel :=
  funct3 ++ u.extractLsb 2 0 ++ rs1' ++ u.extractLsb 4 3 ++ r' ++ 0b00#2

/-- CJ (R93, R96); bit i of `j` is imm[i+1]. -/
def encCJ (funct3 : BitVec 3) (j : BitVec 11) : Parcel :=
  funct3 ++ j.extractLsb 10 10 ++ j.extractLsb 3 3 ++ j.extractLsb 8 7 ++ j.extractLsb 9 9 ++ j.extractLsb 5 5 ++
    j.extractLsb 6 6 ++ j.extractLsb 2 0 ++ j.extractLsb 4 4 ++ 0b01#2

/-- c.addi16sp (R87, R96); bit i of `n` is nzimm[i+4]. -/
def encAddi16sp (n : BitVec 6) : Parcel :=
  0b011#3 ++ n.extractLsb 5 5 ++ 0b00010#5 ++ n.extractLsb 0 0 ++ n.extractLsb 2 2 ++ n.extractLsb 4 3 ++
    n.extractLsb 1 1 ++ 0b01#2

/-- The CB-shaped rows of quadrant 01 with a six-bit immediate or shift amount (R92). -/
def encCBImm (funct2 : BitVec 2) (imm : BitVec 6) (rd' : RegNum3) : Parcel :=
  0b100#3 ++ imm.extractLsb 5 5 ++ funct2 ++ rd' ++ imm.extractLsb 4 0 ++ 0b01#2

/-- The register-register rows of quadrant 01 (R91). -/
def encCA (funct2 : BitVec 2) (rd' rs2' : RegNum3) : Parcel :=
  0b100011#6 ++ rd' ++ funct2 ++ rs2' ++ 0b01#2

/-- CB with a branch offset (R92, R96); bit i of `b` is imm[i+1]. -/
def encCB (funct3 : BitVec 3) (b : BitVec 8) (rs1' : RegNum3) : Parcel :=
  funct3 ++ b.extractLsb 7 7 ++ b.extractLsb 3 2 ++ rs1' ++ b.extractLsb 6 5 ++ b.extractLsb 1 0 ++
    b.extractLsb 4 4 ++ 0b01#2

/-- c.lwsp, c.flwsp (R87, R96); bit i of `u` is uimm[i+2]. -/
def encLwsp (funct3 : BitVec 3) (u : BitVec 6) (rd : RegNum) : Parcel :=
  funct3 ++ u.extractLsb 3 3 ++ rd ++ u.extractLsb 2 0 ++ u.extractLsb 5 4 ++ 0b10#2

/-- c.fldsp (R87, R96); bit i of `u` is uimm[i+3]. -/
def encFldsp (u : BitVec 6) (rd : RegNum) : Parcel :=
  0b001#3 ++ u.extractLsb 2 2 ++ rd ++ u.extractLsb 1 0 ++ u.extractLsb 5 3 ++ 0b10#2

/-- c.swsp, c.fswsp (R88, R96); bit i of `u` is uimm[i+2]. -/
def encSwsp (funct3 : BitVec 3) (u : BitVec 6) (rs2 : RegNum) : Parcel :=
  funct3 ++ u.extractLsb 3 0 ++ u.extractLsb 5 4 ++ rs2 ++ 0b10#2

/-- c.fsdsp (R88, R96); bit i of `u` is uimm[i+3]. -/
def encFsdsp (u : BitVec 6) (rs2 : RegNum) : Parcel :=
  0b101#3 ++ u.extractLsb 2 0 ++ u.extractLsb 5 3 ++ rs2 ++ 0b10#2

/-- The word of a well-formed instruction (30_encoding R84, R95). -/
def encode : Instr → InstrWord
  | .lui rd imm => .long (encU imm rd 0b0110111)
  | .auipc rd imm => .long (encU imm rd 0b0010111)
  | .jal rd imm => .long (encJ imm rd 0b1101111)
  | .jalr rd rs1 imm => .long (encI imm rs1 0b000 rd 0b1100111)
  | .beq rs1 rs2 imm => .long (encB imm rs2 rs1 0b000 0b1100011)
  | .bne rs1 rs2 imm => .long (encB imm rs2 rs1 0b001 0b1100011)
  | .blt rs1 rs2 imm => .long (encB imm rs2 rs1 0b100 0b1100011)
  | .bge rs1 rs2 imm => .long (encB imm rs2 rs1 0b101 0b1100011)
  | .bltu rs1 rs2 imm => .long (encB imm rs2 rs1 0b110 0b1100011)
  | .bgeu rs1 rs2 imm => .long (encB imm rs2 rs1 0b111 0b1100011)
  | .lb rd rs1 imm => .long (encI imm rs1 0b000 rd 0b0000011)
  | .lh rd rs1 imm => .long (encI imm rs1 0b001 rd 0b0000011)
  | .lw rd rs1 imm => .long (encI imm rs1 0b010 rd 0b0000011)
  | .ld rd rs1 imm => .long (encI imm rs1 0b011 rd 0b0000011)
  | .lbu rd rs1 imm => .long (encI imm rs1 0b100 rd 0b0000011)
  | .lhu rd rs1 imm => .long (encI imm rs1 0b101 rd 0b0000011)
  | .lwu rd rs1 imm => .long (encI imm rs1 0b110 rd 0b0000011)
  | .sb rs1 rs2 imm => .long (encS imm rs2 rs1 0b000 0b0100011)
  | .sh rs1 rs2 imm => .long (encS imm rs2 rs1 0b001 0b0100011)
  | .sw rs1 rs2 imm => .long (encS imm rs2 rs1 0b010 0b0100011)
  | .sd rs1 rs2 imm => .long (encS imm rs2 rs1 0b011 0b0100011)
  | .addi rd rs1 imm => .long (encI imm rs1 0b000 rd 0b0010011)
  | .slti rd rs1 imm => .long (encI imm rs1 0b010 rd 0b0010011)
  | .sltiu rd rs1 imm => .long (encI imm rs1 0b011 rd 0b0010011)
  | .xori rd rs1 imm => .long (encI imm rs1 0b100 rd 0b0010011)
  | .ori rd rs1 imm => .long (encI imm rs1 0b110 rd 0b0010011)
  | .andi rd rs1 imm => .long (encI imm rs1 0b111 rd 0b0010011)
  | .slli rd rs1 shamt => .long (encShift 0b000000 shamt rs1 0b001 rd 0b0010011)
  | .srli rd rs1 shamt => .long (encShift 0b000000 shamt rs1 0b101 rd 0b0010011)
  | .srai rd rs1 shamt => .long (encShift 0b010000 shamt rs1 0b101 rd 0b0010011)
  | .add rd rs1 rs2 => .long (encR 0b0000000 rs2 rs1 0b000 rd 0b0110011)
  | .sub rd rs1 rs2 => .long (encR 0b0100000 rs2 rs1 0b000 rd 0b0110011)
  | .sll rd rs1 rs2 => .long (encR 0b0000000 rs2 rs1 0b001 rd 0b0110011)
  | .slt rd rs1 rs2 => .long (encR 0b0000000 rs2 rs1 0b010 rd 0b0110011)
  | .sltu rd rs1 rs2 => .long (encR 0b0000000 rs2 rs1 0b011 rd 0b0110011)
  | .xor rd rs1 rs2 => .long (encR 0b0000000 rs2 rs1 0b100 rd 0b0110011)
  | .srl rd rs1 rs2 => .long (encR 0b0000000 rs2 rs1 0b101 rd 0b0110011)
  | .sra rd rs1 rs2 => .long (encR 0b0100000 rs2 rs1 0b101 rd 0b0110011)
  | .or rd rs1 rs2 => .long (encR 0b0000000 rs2 rs1 0b110 rd 0b0110011)
  | .and rd rs1 rs2 => .long (encR 0b0000000 rs2 rs1 0b111 rd 0b0110011)
  | .fence rd rs1 fm pred succ => .long (encFence fm pred succ rs1 rd)
  | .ecall => .long 0x00000073
  | .ebreak => .long 0x00100073
  | .addiw rd rs1 imm => .long (encI imm rs1 0b000 rd 0b0011011)
  | .slliw rd rs1 shamt => .long (encR 0b0000000 shamt rs1 0b001 rd 0b0011011)
  | .srliw rd rs1 shamt => .long (encR 0b0000000 shamt rs1 0b101 rd 0b0011011)
  | .sraiw rd rs1 shamt => .long (encR 0b0100000 shamt rs1 0b101 rd 0b0011011)
  | .addw rd rs1 rs2 => .long (encR 0b0000000 rs2 rs1 0b000 rd 0b0111011)
  | .subw rd rs1 rs2 => .long (encR 0b0100000 rs2 rs1 0b000 rd 0b0111011)
  | .sllw rd rs1 rs2 => .long (encR 0b0000000 rs2 rs1 0b001 rd 0b0111011)
  | .srlw rd rs1 rs2 => .long (encR 0b0000000 rs2 rs1 0b101 rd 0b0111011)
  | .sraw rd rs1 rs2 => .long (encR 0b0100000 rs2 rs1 0b101 rd 0b0111011)
  | .cIllegal => .short 0x0000
  | .cAddi4spn rd' u => .short (encAddi4spn u rd')
  | .cFld rd' rs1' u => .short (encDoubleOff 0b001 u rs1' rd')
  | .cLw rd' rs1' u => .short (encWordOff 0b010 u rs1' rd')
  | .cFlw rd' rs1' u => .short (encWordOff 0b011 u rs1' rd')
  | .cFsd rs1' rs2' u => .short (encDoubleOff 0b101 u rs1' rs2')
  | .cSw rs1' rs2' u => .short (encWordOff 0b110 u rs1' rs2')
  | .cFsw rs1' rs2' u => .short (encWordOff 0b111 u rs1' rs2')
  | .cNop imm => .short (encCI 0b000 imm 0b00000 0b01)
  | .cAddi rd imm => .short (encCI 0b000 imm rd 0b01)
  | .cJal imm => .short (encCJ 0b001 imm)
  | .cLi rd imm => .short (encCI 0b010 imm rd 0b01)
  | .cAddi16sp n => .short (encAddi16sp n)
  | .cLui rd n => .short (encCI 0b011 n rd 0b01)
  | .cSrli rd' shamt => .short (encCBImm 0b00 shamt rd')
  | .cSrai rd' shamt => .short (encCBImm 0b01 shamt rd')
  | .cAndi rd' imm => .short (encCBImm 0b10 imm rd')
  | .cSub rd' rs2' => .short (encCA 0b00 rd' rs2')
  | .cXor rd' rs2' => .short (encCA 0b01 rd' rs2')
  | .cOr rd' rs2' => .short (encCA 0b10 rd' rs2')
  | .cAnd rd' rs2' => .short (encCA 0b11 rd' rs2')
  | .cJ imm => .short (encCJ 0b101 imm)
  | .cBeqz rs1' imm => .short (encCB 0b110 imm rs1')
  | .cBnez rs1' imm => .short (encCB 0b111 imm rs1')
  | .cSlli64 rd => .short (encCI 0b000 0b000000 rd 0b10)
  | .cSlli rd shamt => .short (encCI 0b000 shamt rd 0b10)
  | .cFldsp rd u => .short (encFldsp u rd)
  | .cLwsp rd u => .short (encLwsp 0b010 u rd)
  | .cFlwsp rd u => .short (encLwsp 0b011 u rd)
  | .cJr rs1 => .short (encCR 0b1000 rs1 0b00000)
  | .cMv rd rs2 => .short (encCR 0b1000 rd rs2)
  | .cEbreak => .short 0x9002
  | .cJalr rs1 => .short (encCR 0b1001 rs1 0b00000)
  | .cAdd rd rs2 => .short (encCR 0b1001 rd rs2)
  | .cFsdsp rs2 u => .short (encFsdsp u rs2)
  | .cSwsp rs2 u => .short (encSwsp 0b110 u rs2)
  | .cFswsp rs2 u => .short (encSwsp 0b111 u rs2)

/-- The bytes of an instruction in memory. -/
def encodeBytes (i : Instr) : List Byte := (encode i).bytes

/-! ### The rows of the opcode table, as the spec prints them -/

/-- One row of spec/opcode_table.json: its width in bits, and the bits it fixes. -/
structure TableRow where
  width : Nat
  mask : Nat
  pattern : Nat
  deriving DecidableEq, Repr

/-- A word of a row has the row's width and the row's pattern under its mask. -/
def TableRow.admits (r : TableRow) (w : InstrWord) : Bool :=
  decide (r.width = 8 * w.bytes.length ∧ w.bits &&& r.mask = r.pattern)

/-- The row of spec/opcode_table.json that an instruction's constructor stands for, transcribed from the file: `width`,
`mask` and `match`, for SLLI, SRLI, SRAI those of the configuration (30_encoding R79). The decoder does not use it. -/
def Instr.tableRow (c : Isa) : Instr → TableRow
  | .lui .. => ⟨32, 0x0000007F, 0x00000037⟩
  | .auipc .. => ⟨32, 0x0000007F, 0x00000017⟩
  | .jal .. => ⟨32, 0x0000007F, 0x0000006F⟩
  | .jalr .. => ⟨32, 0x0000707F, 0x00000067⟩
  | .beq .. => ⟨32, 0x0000707F, 0x00000063⟩
  | .bne .. => ⟨32, 0x0000707F, 0x00001063⟩
  | .blt .. => ⟨32, 0x0000707F, 0x00004063⟩
  | .bge .. => ⟨32, 0x0000707F, 0x00005063⟩
  | .bltu .. => ⟨32, 0x0000707F, 0x00006063⟩
  | .bgeu .. => ⟨32, 0x0000707F, 0x00007063⟩
  | .lb .. => ⟨32, 0x0000707F, 0x00000003⟩
  | .lh .. => ⟨32, 0x0000707F, 0x00001003⟩
  | .lw .. => ⟨32, 0x0000707F, 0x00002003⟩
  | .lbu .. => ⟨32, 0x0000707F, 0x00004003⟩
  | .lhu .. => ⟨32, 0x0000707F, 0x00005003⟩
  | .lwu .. => ⟨32, 0x0000707F, 0x00006003⟩
  | .ld .. => ⟨32, 0x0000707F, 0x00003003⟩
  | .sb .. => ⟨32, 0x0000707F, 0x00000023⟩
  | .sh .. => ⟨32, 0x0000707F, 0x00001023⟩
  | .sw .. => ⟨32, 0x0000707F, 0x00002023⟩
  | .sd .. => ⟨32, 0x0000707F, 0x00003023⟩
  | .addi .. => ⟨32, 0x0000707F, 0x00000013⟩
  | .slti .. => ⟨32, 0x0000707F, 0x00002013⟩
  | .sltiu .. => ⟨32, 0x0000707F, 0x00003013⟩
  | .xori .. => ⟨32, 0x0000707F, 0x00004013⟩
  | .ori .. => ⟨32, 0x0000707F, 0x00006013⟩
  | .andi .. => ⟨32, 0x0000707F, 0x00007013⟩
  | .slli .. => ⟨32, if c.xlen = 64 then 0xFC00707F else 0xFE00707F, 0x00001013⟩
  | .srli .. => ⟨32, if c.xlen = 64 then 0xFC00707F else 0xFE00707F, 0x00005013⟩
  | .srai .. => ⟨32, if c.xlen = 64 then 0xFC00707F else 0xFE00707F, 0x40005013⟩
  | .add .. => ⟨32, 0xFE00707F, 0x00000033⟩
  | .sub .. => ⟨32, 0xFE00707F, 0x40000033⟩
  | .sll .. => ⟨32, 0xFE00707F, 0x00001033⟩
  | .slt .. => ⟨32, 0xFE00707F, 0x00002033⟩
  | .sltu .. => ⟨32, 0xFE00707F, 0x00003033⟩
  | .xor .. => ⟨32, 0xFE00707F, 0x00004033⟩
  | .srl .. => ⟨32, 0xFE00707F, 0x00005033⟩
  | .sra .. => ⟨32, 0xFE00707F, 0x40005033⟩
  | .or .. => ⟨32, 0xFE00707F, 0x00006033⟩
  | .and .. => ⟨32, 0xFE00707F, 0x00007033⟩
  | .fence .. => ⟨32, 0x0000707F, 0x0000000F⟩
  | .ecall => ⟨32, 0xFFFFFFFF, 0x00000073⟩
  | .ebreak => ⟨32, 0xFFFFFFFF, 0x00100073⟩
  | .addiw .. => ⟨32, 0x0000707F, 0x0000001B⟩
  | .slliw .. => ⟨32, 0xFE00707F, 0x0000101B⟩
  | .srliw .. => ⟨32, 0xFE00707F, 0x0000501B⟩
  | .sraiw .. => ⟨32, 0xFE00707F, 0x4000501B⟩
  | .addw .. => ⟨32, 0xFE00707F, 0x0000003B⟩
  | .subw .. => ⟨32, 0xFE00707F, 0x4000003B⟩
  | .sllw .. => ⟨32, 0xFE00707F, 0x0000103B⟩
  | .srlw .. => ⟨32, 0xFE00707F, 0x0000503B⟩
  | .sraw .. => ⟨32, 0xFE00707F, 0x4000503B⟩
  | .cIllegal => ⟨16, 0xFFFF, 0x0000⟩
  | .cAddi4spn .. => ⟨16, 0xE003, 0x0000⟩
  | .cFld .. => ⟨16, 0xE003, 0x2000⟩
  | .cLw .. => ⟨16, 0xE003, 0x4000⟩
  | .cFlw .. => ⟨16, 0xE003, 0x6000⟩
  | .cFsd .. => ⟨16, 0xE003, 0xA000⟩
  | .cSw .. => ⟨16, 0xE003, 0xC000⟩
  | .cFsw .. => ⟨16, 0xE003, 0xE000⟩
  | .cNop .. => ⟨16, 0xEF83, 0x0001⟩
  | .cAddi .. => ⟨16, 0xE003, 0x0001⟩
  | .cJal .. => ⟨16, 0xE003, 0x2001⟩
  | .cLi .. => ⟨16, 0xE003, 0x4001⟩
  | .cAddi16sp .. => ⟨16, 0xEF83, 0x6101⟩
  | .cLui .. => ⟨16, 0xE003, 0x6001⟩
  | .cSrli .. => ⟨16, 0xEC03, 0x8001⟩
  | .cSrai .. => ⟨16, 0xEC03, 0x8401⟩
  | .cAndi .. => ⟨16, 0xEC03, 0x8801⟩
  | .cSub .. => ⟨16, 0xFC63, 0x8C01⟩
  | .cXor .. => ⟨16, 0xFC63, 0x8C21⟩
  | .cOr .. => ⟨16, 0xFC63, 0x8C41⟩
  | .cAnd .. => ⟨16, 0xFC63, 0x8C61⟩
  | .cJ .. => ⟨16, 0xE003, 0xA001⟩
  | .cBeqz .. => ⟨16, 0xE003, 0xC001⟩
  | .cBnez .. => ⟨16, 0xE003, 0xE001⟩
  | .cSlli64 .. => ⟨16, 0xF07F, 0x0002⟩
  | .cSlli .. => ⟨16, 0xE003, 0x0002⟩
  | .cFldsp .. => ⟨16, 0xE003, 0x2002⟩
  | .cLwsp .. => ⟨16, 0xE003, 0x4002⟩
  | .cFlwsp .. => ⟨16, 0xE003, 0x6002⟩
  | .cJr .. => ⟨16, 0xF07F, 0x8002⟩
  | .cMv .. => ⟨16, 0xF003, 0x8002⟩
  | .cEbreak => ⟨16, 0xFFFF, 0x9002⟩
  | .cJalr .. => ⟨16, 0xF07F, 0x9002⟩
  | .cAdd .. => ⟨16, 0xF003, 0x9002⟩
  | .cFsdsp .. => ⟨16, 0xE003, 0xA002⟩
  | .cSwsp .. => ⟨16, 0xE003, 0xC002⟩
  | .cFswsp .. => ⟨16, 0xE003, 0xE002⟩

end Sys2Proof
end

