-- ==== Sys2Proof/Machine/State.lean ====
section
/-! DEFINITION. The machine's state as plain data (spec/10_state.md R20, R31), the trap record (spec/60_exceptions.md
R280, R290), the reasons a step stops, the launch state (spec/70_reset_and_hazards.md R321) and the state after reset. -/

namespace Sys2Proof.Machine

/-- Memory: the bytes that hold a value, by address (10_state R31). Addresses rise strictly; an unlisted address holds no
value (10_state R36, log entry 5). `Memory.wf` says the form holds. -/
abbrev Memory := List Host.Cell

/-- The hart and its memory in the configuration `c`. -/
structure Hart (c : Isa) where
  /-- x1 to x31: register i at place i - 1; x0 has no storage (10_state R20, R21). -/
  regs : Vector (BitVec c.xlen) 31
  /-- The address of the current instruction (10_state R25). -/
  pc : BitVec c.xlen
  /-- The one byte-addressed space (20_memory R40). -/
  mem : Memory
  /-- The regions that may be accessed; no instruction changes them (20_memory R42, 60_exceptions R297). -/
  memMap : MemMap
  /-- The model's own field: the addresses that a store of this run has written, strictly rising. Only fetch reads it, to
  give no meaning to self-modified code (20_memory R58, log entry 6). -/
  stored : List Nat
  deriving DecidableEq, Repr

/-- The machine's state: the configuration the run was launched with (00_scope R6, log entry 1) and the hart. -/
structure State where
  isa : Isa
  hart : Hart isa
  deriving DecidableEq, Repr

/-- The nine exceptions (60_exceptions R280), by name. -/
inductive Cause where
  /-- JAL, JALR and taken branches with a target that is not IALIGN-aligned, EXT_C = false only (R285). -/
  | instructionAddressMisaligned
  /-- Fetch from where `MemMap` does not permit execution (R286). -/
  | instructionAccessFault
  /-- Bits that are no instruction of the configuration (R282). -/
  | illegalInstruction
  /-- EBREAK and c.ebreak (R283). -/
  | breakpoint
  /-- A load whose address is not a multiple of its size (R287). -/
  | loadAddressMisaligned
  /-- A load `MemMap` does not permit (R287). -/
  | loadAccessFault
  /-- A store whose address is not a multiple of its size (R287). -/
  | storeAddressMisaligned
  /-- A store `MemMap` does not permit (R287). -/
  | storeAccessFault
  /-- ECALL (R284). -/
  | environmentCall
  deriving DecidableEq, Repr

/-- The cause-code label of an exception (60_exceptions R280); a label only, no rule depends on it (92 D22). -/
def Cause.code : Cause → Nat
  | .instructionAddressMisaligned => 0
  | .instructionAccessFault => 1
  | .illegalInstruction => 2
  | .breakpoint => 3
  | .loadAddressMisaligned => 4
  | .loadAccessFault => 5
  | .storeAddressMisaligned => 6
  | .storeAccessFault => 7
  | .environmentCall => 8

/-- A trap as it is handed to the environment: Trap(cause, pc, tval, State) of 60_exceptions R290. -/
structure Trap where
  cause : Cause
  /-- The state exactly as it was before the trapping instruction began. -/
  state : State
  /-- The address of the trapping instruction. -/
  pc : BitVec state.isa.xlen
  /-- The recorded value of R280, 0 for EnvironmentCall. -/
  tval : BitVec state.isa.xlen
  deriving DecidableEq, Repr

/-- Why a step has no next state. -/
inductive Fault where
  /-- One of the nine exceptions: the trap is the terminal outcome of the step, a value for the environment
  (60_exceptions R290). Raised by fetch, by decode and by the meanings through `raise`. Safe: it is the spec's outcome. -/
  | trap (t : Trap)
  /-- A load or a fetch reads a byte that neither the launch state nor a store has defined: it holds no value
  (10_state R36, 93 V2). Raised by `memRead` and `fetchParcel`. Safe: a machine that goes on does so with a value that
  no claim can name. -/
  | undefinedByte (addr : Nat)
  deriving DecidableEq, Repr

/-- Why a step has no meaning. -/
inductive Refusal where
  /-- An instruction with no meaning yet, raised by `exec`'s arm of that instruction. Safe. -/
  | notModelled (mnemonic : String)
  /-- Fetch of a byte that a store of this run has written (20_memory R58: "giving no meaning to the fetch"). Raised by
  `fetchParcel`. Safe: neither the old nor the new byte is promised. -/
  | fetchOfStoredByte (addr : Nat)
  deriving DecidableEq, Repr

/-- The launch state (70_reset_and_hazards R321): the environment gives the configuration, the memory map, RESET_PC, the
bytes of memory and the registers; no store has run yet. -/
def State.launch (c : Isa) (memMap : MemMap) (resetPc : BitVec c.xlen) (mem : Memory)
    (regs : Vector (BitVec c.xlen) 31) : State :=
  { isa := c, hart := { regs := regs, pc := resetPc, mem := mem, memMap := memMap, stored := [] } }

/-- The machine right after reset (10_state R34 to R36, 70 R320): pc = RESET_PC, memory with nothing listed. RESET_PC, the
memory map and x1 to x31 are open in the spec; their values here are the model's (Config; log entries 2, 3, 4). -/
def State.reset : State :=
  State.launch Config.resetIsa (Config.resetMemMap Config.resetIsa) (Config.resetPc Config.resetIsa) []
    (Vector.replicate 31 (Config.resetReg Config.resetIsa))

end Sys2Proof.Machine
end

