-- ==== Sys2Proof/Machine/Ops.lean ====
section
/-! DEFINITION. The named operations over registers, pc and memory, and raising an exception, which every meaning is
written with (spec/00_scope.md R9, spec/20_memory.md R42 to R47, spec/60_exceptions.md R290). -/

namespace Sys2Proof.Machine

/-- What a rule of the spec yields at the hart: a next hart, a trap or a stop. -/
abbrev HartResult (c : Isa) := Host.Outcome (Hart c) Fault Refusal

/-- What a step yields. -/
abbrev Result := Host.Outcome State Fault Refusal

/-! ### Sequencing -/

/-- Go on with a value, or stop as the first part stopped: a `raise` abandons the instruction (00_scope R9). -/
def andThen {α β : Type} (r : Host.Outcome α Fault Refusal) (f : α → Host.Outcome β Fault Refusal) :
    Host.Outcome β Fault Refusal :=
  match r with
  | .next a => f a
  | .fault e => .fault e
  | .refused e => .refused e

/-- Run a rule on the hart of a state; the configuration is fixed for the run (00_scope R6). -/
def State.atHart (s : State) (f : Hart s.isa → HartResult s.isa) : Result :=
  andThen (f s.hart) fun h => .next { isa := s.isa, hart := h }

/-! ### Integer registers (10_state R20, R21) -/

/-- The place of register r ≠ 0 in the register file. -/
def regIndex (r : RegNum) (hr : r ≠ 0) : Fin 31 :=
  ⟨r.toNat - 1, by
    have h1 : r.toNat ≠ 0 := fun h => hr (BitVec.eq_of_toNat_eq h)
    have h2 := r.isLt
    omega⟩

/-- `x[r]`: 0 for r = 0 (10_state R21). -/
def Hart.x {c : Isa} (h : Hart c) (r : RegNum) : BitVec c.xlen :=
  if hr : r = 0 then 0 else h.regs[regIndex r hr]

/-- `x[r] <- v`: discarded for r = 0 (10_state R21). -/
def Hart.setX {c : Isa} (h : Hart c) (r : RegNum) (v : BitVec c.xlen) : Hart c :=
  if hr : r = 0 then h else { h with regs := h.regs.set (regIndex r hr) v }

/-- The register a primed 3-bit field names: 8 + field (10_state R33). -/
def primed (r' : RegNum3) : RegNum := 0b01#2 ++ r'

/-! ### The program counter (10_state R25, R26) -/

def Hart.setPc {c : Isa} (h : Hart c) (t : BitVec c.xlen) : Hart c := { h with pc := t }

/-- `pc + ilen`, modulo 2^XLEN. -/
def Hart.nextPc {c : Isa} (h : Hart c) (ilen : Nat) : BitVec c.xlen := h.pc + BitVec.ofNat c.xlen ilen

/-- `pc <- pc + ilen`. -/
def Hart.advance {c : Isa} (h : Hart c) (ilen : Nat) : Hart c := h.setPc (h.nextPc ilen)

/-! ### Raising an exception and resuming after one (60_exceptions R290 to R292) -/

/-- `raise E(info)`: the trap record is handed out with the state as it was before the instruction; nothing is saved in the
machine, no mode changes, the pc still holds the instruction's address (00_scope R9, 60_exceptions R290). `h` is the hart
the instruction began with. -/
def raise {c : Isa} {α : Type} (h : Hart c) (cause : Cause) (tval : BitVec c.xlen) : Host.Outcome α Fault Refusal :=
  .fault (.trap { cause := cause, state := { isa := c, hart := h }, pc := h.pc, tval := tval })

/-- There is no trap-return instruction (60_exceptions R292). What may follow a trap is the environment's: `handle` gives
the state it resumes with, or none to end the run (R290). -/
def resume (handle : Trap → Option State) (r : Result) : Result :=
  match r with
  | .fault (.trap t) =>
    match handle t with
    | some s => .next s
    | none => .fault (.trap t)
  | r => r

/-- The spec's default environment: every trap ends the run (60_exceptions R290). -/
def noHandler (_ : Trap) : Option State := none

/-- IllegalInstruction with the instruction's bits, zero-extended to XLEN (60_exceptions R282, log entry 12). -/
def raiseIllegal {c : Isa} (h : Hart c) (i : Instr) : HartResult c :=
  raise h .illegalInstruction (BitVec.ofNat c.xlen (encode i).bits)

/-- A rule's body where the instruction is one of the configuration, IllegalInstruction where it is not
(30_encoding R79, R85, R98). -/
def whenLegal {c : Isa} (h : Hart c) (i : Instr) (body : HartResult c) : HartResult c :=
  if i.wf c then body else raiseIllegal h i

/-! ### Memory cells -/

/-- The byte at an address, none where nothing has defined it. -/
def Memory.read : Memory → Nat → Option Byte
  | [], _ => none
  | (k, b) :: rest, a => if k = a then some b else Memory.read rest a

/-- Write one byte, keeping the addresses rising. -/
def Memory.write : Memory → Nat → Byte → Memory
  | [], a, v => [(a, v)]
  | (k, b) :: rest, a, v =>
    if a < k then (a, v) :: (k, b) :: rest
    else if a = k then (a, v) :: rest
    else (k, b) :: Memory.write rest a v

/-- The canonical form: strictly rising addresses. An unlisted address holds no value, so no entry is equal to it. -/
def Memory.wf (m : Memory) : Bool := decide (m.Pairwise fun p q => p.1 < q.1)

/-- The n-byte little-endian value at an address; none where a byte is undefined (20_memory R43, R45). -/
def Memory.readLE (m : Memory) (a : Nat) : (n : Nat) → Option (BitVec (8 * n))
  | 0 => some 0
  | n + 1 =>
    match Memory.read m a, Memory.readLE m (a + 1) n with
    | some b, some hi => some (hi ++ b)
    | _, _ => none

/-- Store n bytes, the lowest-addressed the least significant (20_memory R43, R46). -/
def Memory.writeLE (m : Memory) (a : Nat) : (n : Nat) → BitVec (8 * n) → Memory
  | 0, _ => m
  | n + 1, v => Memory.writeLE (Memory.write m a (v.setWidth 8)) (a + 1) n ((v >>> 8).setWidth (8 * n))

/-- The first of n addresses that holds no value; the address itself where all do. -/
def Memory.firstUndefined (m : Memory) (a : Nat) : Nat → Nat
  | 0 => a
  | n + 1 => if (Memory.read m a).isNone then a else Memory.firstUndefined m (a + 1) n

/-- Insert an address into a strictly rising list. -/
def insertAddr : List Nat → Nat → List Nat
  | [], a => [a]
  | k :: rest, a => if a < k then a :: k :: rest else if a = k then k :: rest else k :: insertAddr rest a

/-- Insert n addresses from `a` on. -/
def insertAddrs (l : List Nat) (a : Nat) : Nat → List Nat
  | 0 => l
  | n + 1 => insertAddrs (insertAddr l a) (a + 1) n

/-- The byte of memory at an address, as every statement about memory reads it. -/
def Hart.byteAt {c : Isa} (h : Hart c) (a : Nat) : Option Byte := Memory.read h.mem a

/-! ### The memory map (20_memory R42) -/

def regionAllows (r : Region) : Access → Bool
  | .read => r.r
  | .write => r.w
  | .execute => r.x

/-- Bytes a to a + n - 1 all lie in the region. -/
def regionCovers (r : Region) (a n : Nat) : Bool := decide (r.base ≤ a ∧ a + n ≤ r.base + r.size)

/-- An access of n bytes at `a` is permitted: one region with the permission holds all its bytes, and it does not run past
the top of the address space (20_memory R42, R53). -/
def permitted (c : Isa) (m : MemMap) (k : Access) (a n : Nat) : Bool :=
  decide (a + n ≤ 2 ^ c.xlen) && m.any fun r => regionAllows r k && regionCovers r a n

/-- Two regions share no byte. -/
def regionsApart (p q : Region) : Bool :=
  decide (p.size = 0 ∨ q.size = 0 ∨ p.base + p.size ≤ q.base ∨ q.base + q.size ≤ p.base)

/-- A memory map of R42: disjoint regions inside the address space. -/
def MemMap.wf (c : Isa) (m : MemMap) : Bool :=
  decide (m.Pairwise fun p q => regionsApart p q = true) && m.all fun r => decide (r.base + r.size ≤ 2 ^ c.xlen)

/-! ### The access primitives (20_memory R45, R46) -/

/-- `MemRead(addr, n)`: alignment, permission, then the bytes (R45, 60_exceptions R288). -/
def memRead {c : Isa} (h : Hart c) (addr : BitVec c.xlen) (n : Nat) : Host.Outcome (BitVec (8 * n)) Fault Refusal :=
  if addr.toNat % n ≠ 0 then raise h .loadAddressMisaligned addr
  else if permitted c h.memMap .read addr.toNat n then
    match Memory.readLE h.mem addr.toNat n with
    | some v => .next v
    | none => .fault (.undefinedByte (Memory.firstUndefined h.mem addr.toNat n))
  else raise h .loadAccessFault addr

/-- The hart after n bytes are stored; the addresses are remembered for R58. -/
def Hart.store {c : Isa} (h : Hart c) (a n : Nat) (v : BitVec (8 * n)) : Hart c :=
  { h with mem := Memory.writeLE h.mem a n v, stored := insertAddrs h.stored a n }

/-- `MemWrite(addr, n, v)`: alignment, permission, then all n bytes (R46). -/
def memWrite {c : Isa} (h : Hart c) (addr : BitVec c.xlen) (n : Nat) (v : BitVec (8 * n)) : HartResult c :=
  if addr.toNat % n ≠ 0 then raise h .storeAddressMisaligned addr
  else if permitted c h.memMap .write addr.toNat n then .next (h.store addr.toNat n v)
  else raise h .storeAccessFault addr

/-! ### The shapes instructions share -/

/-- Write a register and go on with the next instruction (40_integer_computational R120). -/
def writeReg {c : Isa} (h : Hart c) (ilen : Nat) (rd : RegNum) (v : BitVec c.xlen) : HartResult c :=
  .next ((h.setX rd v).advance ilen)

/-- A load of n bytes, extended by `ext` into rd; all checks stand before the value is dropped for rd = x0
(42_load_store R170, R171, 20_memory R52). -/
def loadInto {c : Isa} (h : Hart c) (ilen : Nat) (rd : RegNum) (addr : BitVec c.xlen) (n : Nat)
    (ext : BitVec (8 * n) → BitVec c.xlen) : HartResult c :=
  andThen (memRead h addr n) fun v => writeReg h ilen rd (ext v)

/-- A store of the low n bytes of a register's value (42_load_store R170, R184). -/
def storeFrom {c : Isa} (h : Hart c) (ilen : Nat) (addr : BitVec c.xlen) (n : Nat) (v : BitVec c.xlen) : HartResult c :=
  andThen (memWrite h addr n (v.setWidth (8 * n))) fun h' => .next (h'.advance ilen)

/-- `check_target(t)`: whether a target is not IALIGN-aligned (41_control_transfer R152). -/
def misalignedTarget (c : Isa) (t : BitVec c.xlen) : Bool := decide (t.toNat % c.instrAlign ≠ 0)

/-- An unconditional jump with a link: the target is checked before anything changes (41_control_transfer R152 to R154). -/
def jumpAndLink {c : Isa} (h : Hart c) (ilen : Nat) (rd : RegNum) (t : BitVec c.xlen) : HartResult c :=
  if misalignedTarget c t then raise h .instructionAddressMisaligned t
  else .next ((h.setX rd (h.nextPc ilen)).setPc t)

/-- A conditional branch: only a taken one checks its target (41_control_transfer R152, R162). -/
def branchTo {c : Isa} (h : Hart c) (ilen : Nat) (taken : Bool) (t : BitVec c.xlen) : HartResult c :=
  if taken then
    if misalignedTarget c t then raise h .instructionAddressMisaligned t else .next (h.setPc t)
  else .next (h.advance ilen)

end Sys2Proof.Machine
end

