-- ==== Sys2Proof/Machine/Operands.lean ====
section
/-! DEFINITION. Every operand form of the spec as an XLEN-bit value: the immediates (spec/30_encoding.md R73 to R79, R96),
shift amounts (spec/40_integer_computational.md R145), effective addresses (spec/42_load_store.md R170) and targets
(spec/41_control_transfer.md R151, R154). -/

namespace Sys2Proof.Machine

/-! ### Immediates of the 32-bit formats, sign-extended to XLEN (30_encoding R78) -/

/-- immI and immS: twelve bits (R73, R74). -/
def imm12 (c : Isa) (imm : BitVec 12) : BitVec c.xlen := imm.signExtend c.xlen

/-- immB: imm[12:1] with bit 0 zero (R75). -/
def immB (c : Isa) (imm12_1 : BitVec 12) : BitVec c.xlen := (imm12_1 ++ 0#1).signExtend c.xlen

/-- immU: imm[31:12] with twelve zeros, sign-extended from bit 31 (R76). -/
def immU (c : Isa) (imm31_12 : BitVec 20) : BitVec c.xlen := (imm31_12 ++ 0#12).signExtend c.xlen

/-- immJ: imm[20:1] with bit 0 zero (R77). -/
def immJ (c : Isa) (imm20_1 : BitVec 20) : BitVec c.xlen := (imm20_1 ++ 0#1).signExtend c.xlen

/-! ### Immediates of the 16-bit formats (30_encoding R96) -/

/-- imm[5:0] of c.nop, c.addi, c.li, c.andi: sign from bit 5. -/
def cImm6 (c : Isa) (imm : BitVec 6) : BitVec c.xlen := imm.signExtend c.xlen

/-- nzuimm of c.addi4spn: nzuimm[9:2] scaled by 4, zero-extended. -/
def cAddi4spnImm (c : Isa) (nzuimm9_2 : BitVec 8) : BitVec c.xlen := (nzuimm9_2 ++ 0#2).zeroExtend c.xlen

/-- nzimm of c.addi16sp: nzimm[9:4] scaled by 16, sign from bit 9. -/
def cAddi16spImm (c : Isa) (nzimm9_4 : BitVec 6) : BitVec c.xlen := (nzimm9_4 ++ 0#4).signExtend c.xlen

/-- nzimm of c.lui: nzimm[17:12] with twelve zeros, sign from bit 17. -/
def cLuiImm (c : Isa) (nzimm17_12 : BitVec 6) : BitVec c.xlen := (nzimm17_12 ++ 0#12).signExtend c.xlen

/-- The offset of c.lw, c.sw: uimm[6:2] scaled by 4, zero-extended. -/
def cWordOff (c : Isa) (uimm6_2 : BitVec 5) : BitVec c.xlen := (uimm6_2 ++ 0#2).zeroExtend c.xlen

/-- The offset of c.lwsp, c.swsp: uimm[7:2] scaled by 4, zero-extended. -/
def cSpOff (c : Isa) (uimm7_2 : BitVec 6) : BitVec c.xlen := (uimm7_2 ++ 0#2).zeroExtend c.xlen

/-- The offset of c.j, c.jal: imm[11:1] with bit 0 zero, sign from bit 11. -/
def cJumpOff (c : Isa) (imm11_1 : BitVec 11) : BitVec c.xlen := (imm11_1 ++ 0#1).signExtend c.xlen

/-- The offset of c.beqz, c.bnez: imm[8:1] with bit 0 zero, sign from bit 8. -/
def cBranchOff (c : Isa) (imm8_1 : BitVec 8) : BitVec c.xlen := (imm8_1 ++ 0#1).signExtend c.xlen

/-! ### Shift amounts -/

/-- The low log2(XLEN) bits of a register's value (40 R145). -/
def shiftAmount {c : Isa} (v : BitVec c.xlen) : Nat := (v.setWidth c.log2Xlen).toNat

/-- The low five bits, of the W shifts (44_rv64i_word R208). -/
def shiftAmountW {c : Isa} (v : BitVec c.xlen) : Nat := (v.setWidth 5).toNat

/-! ### The word part of a 64-bit register and the result of a W instruction (44_rv64i_word R200) -/

/-- x[31:0]. -/
def lowWord {c : Isa} (v : BitVec c.xlen) : BitVec 32 := v.setWidth 32

/-- A 32-bit result sign-extended to XLEN. -/
def wordResult (c : Isa) (v : BitVec 32) : BitVec c.xlen := v.signExtend c.xlen

/-! ### Addresses and targets -/

/-- x[rs1] + offset, modulo 2^XLEN (42_load_store R170, 20_memory R53). -/
def effectiveAddress {c : Isa} (h : Hart c) (rs1 : RegNum) (offset : BitVec c.xlen) : BitVec c.xlen := h.x rs1 + offset

/-- pc + offset, relative to the instruction's own address, modulo 2^XLEN (41_control_transfer R151). -/
def pcRelative {c : Isa} (h : Hart c) (offset : BitVec c.xlen) : BitVec c.xlen := h.pc + offset

/-- (x[rs1] + offset) & ~1 (41_control_transfer R154). -/
def indirectTarget {c : Isa} (h : Hart c) (rs1 : RegNum) (offset : BitVec c.xlen) : BitVec c.xlen :=
  (h.x rs1 + offset) &&& ~~~1

/-! ### Extensions of loaded values (42_load_store R172 to R178) -/

def signed (c : Isa) {n : Nat} (v : BitVec n) : BitVec c.xlen := v.signExtend c.xlen
def unsigned (c : Isa) {n : Nat} (v : BitVec n) : BitVec c.xlen := v.zeroExtend c.xlen

end Sys2Proof.Machine
end

