-- ==== Sys2Proof/Machine/Flags.lean ====
section
/-! DEFINITION. The hardware has no flags (spec/10_state.md R28): a comparison writes 0 or 1 into a register or is folded
into a conditional branch. These are those comparisons (spec/40_integer_computational.md R122, R123, R135, R136,
spec/41_control_transfer.md R155 to R160). -/

namespace Sys2Proof.Machine

/-- The XLEN-bit value 1 or 0 of a comparison (40 R122). -/
def setIf (c : Isa) (b : Bool) : BitVec c.xlen := if b then 1 else 0

/-- The conditions of the six conditional branches (41 R155 to R160). -/
inductive BranchCond where
  | eq
  | ne
  | lt
  | ge
  | ltu
  | geu
  deriving DecidableEq, Repr

/-- `cond(a, b)`: `<s` and `>=s` compare as two's complement, `<u` and `>=u` as unsigned (00_scope R8). -/
def BranchCond.holds {n : Nat} (k : BranchCond) (a b : BitVec n) : Bool :=
  match k with
  | .eq => decide (a = b)
  | .ne => decide (a ≠ b)
  | .lt => a.slt b
  | .ge => !a.slt b
  | .ltu => a.ult b
  | .geu => !a.ult b

end Sys2Proof.Machine
end

