-- ==== Sys2Proof/Machine/Compressed.lean ====
section
/-! DEFINITION. The sixteen-bit instructions, EXT_C = true only (spec/45_compressed.md R220 to R264): each one is its base
instruction with length 2 (R220, R221). -/

namespace Sys2Proof.Machine

/-! ### Quadrant 00 (R223 to R225) -/

/-- The word 0x0000, "Illegal instruction" (30_encoding R98). -/
def execCIllegal (s : State) : Result :=
  s.atHart fun h => raiseIllegal h .cIllegal

/-- c.addi4spn (R223): addi rd', x2, nzuimm. -/
def execCAddi4spn (rd' : RegNum3) (nzuimm9_2 : BitVec 8) (s : State) : Result :=
  s.atHart fun h => whenLegal h (.cAddi4spn rd' nzuimm9_2) <|
    writeReg h 2 (primed rd') (h.x 2 + cAddi4spnImm s.isa nzuimm9_2)

/-- c.lw (R224): lw rd', uimm(rs1'). -/
def execCLw (rd' rs1' : RegNum3) (uimm6_2 : BitVec 5) (s : State) : Result :=
  s.atHart fun h => whenLegal h (.cLw rd' rs1' uimm6_2) <|
    loadInto h 2 (primed rd') (effectiveAddress h (primed rs1') (cWordOff s.isa uimm6_2)) 4 (signed s.isa)

/-- c.sw (R225): sw rs2', uimm(rs1'). -/
def execCSw (rs1' rs2' : RegNum3) (uimm6_2 : BitVec 5) (s : State) : Result :=
  s.atHart fun h => whenLegal h (.cSw rs1' rs2' uimm6_2) <|
    storeFrom h 2 (effectiveAddress h (primed rs1') (cWordOff s.isa uimm6_2)) 4 (h.x (primed rs2'))

/-! ### Quadrant 01 (R226 to R241) -/

/-- c.nop (R226): addi x0, x0, imm; a nonzero immediate is a HINT (30_encoding R100). -/
def execCNop (imm : BitVec 6) (s : State) : Result :=
  s.atHart fun h => whenLegal h (.cNop imm) <|
    writeReg h 2 0 (h.x 0 + cImm6 s.isa imm)

/-- c.addi (R227): addi rd, rd, nzimm. -/
def execCAddi (rd : RegNum) (imm : BitVec 6) (s : State) : Result :=
  s.atHart fun h => whenLegal h (.cAddi rd imm) <|
    writeReg h 2 rd (h.x rd + cImm6 s.isa imm)

/-- c.jal (R228): jal x1, offset; the link is pc + 2. -/
def execCJal (imm11_1 : BitVec 11) (s : State) : Result :=
  s.atHart fun h => whenLegal h (.cJal imm11_1) <|
    jumpAndLink h 2 1 (pcRelative h (cJumpOff s.isa imm11_1))

/-- c.li (R229): addi rd, x0, imm. -/
def execCLi (rd : RegNum) (imm : BitVec 6) (s : State) : Result :=
  s.atHart fun h => whenLegal h (.cLi rd imm) <|
    writeReg h 2 rd (h.x 0 + cImm6 s.isa imm)

/-- c.addi16sp (R230): addi x2, x2, nzimm. -/
def execCAddi16sp (nzimm9_4 : BitVec 6) (s : State) : Result :=
  s.atHart fun h => whenLegal h (.cAddi16sp nzimm9_4) <|
    writeReg h 2 2 (h.x 2 + cAddi16spImm s.isa nzimm9_4)

/-- c.lui (R231): lui rd, nzimm[17:12], sign-extended. -/
def execCLui (rd : RegNum) (nzimm17_12 : BitVec 6) (s : State) : Result :=
  s.atHart fun h => whenLegal h (.cLui rd nzimm17_12) <|
    writeReg h 2 rd (cLuiImm s.isa nzimm17_12)

/-- c.srli (R232): srli rd', rd', shamt. -/
def execCSrli (rd' : RegNum3) (shamt : BitVec 6) (s : State) : Result :=
  s.atHart fun h => whenLegal h (.cSrli rd' shamt) <|
    writeReg h 2 (primed rd') (h.x (primed rd') >>> shamt.toNat)

/-- c.srai (R233): srai rd', rd', shamt. -/
def execCSrai (rd' : RegNum3) (shamt : BitVec 6) (s : State) : Result :=
  s.atHart fun h => whenLegal h (.cSrai rd' shamt) <|
    writeReg h 2 (primed rd') ((h.x (primed rd')).sshiftRight shamt.toNat)

/-- c.andi (R234): andi rd', rd', imm. -/
def execCAndi (rd' : RegNum3) (imm : BitVec 6) (s : State) : Result :=
  s.atHart fun h => whenLegal h (.cAndi rd' imm) <|
    writeReg h 2 (primed rd') (h.x (primed rd') &&& cImm6 s.isa imm)

/-- c.sub (R235): sub rd', rd', rs2'. -/
def execCSub (rd' rs2' : RegNum3) (s : State) : Result :=
  s.atHart fun h => whenLegal h (.cSub rd' rs2') <|
    writeReg h 2 (primed rd') (h.x (primed rd') - h.x (primed rs2'))

/-- c.xor (R236): xor rd', rd', rs2'. -/
def execCXor (rd' rs2' : RegNum3) (s : State) : Result :=
  s.atHart fun h => whenLegal h (.cXor rd' rs2') <|
    writeReg h 2 (primed rd') (h.x (primed rd') ^^^ h.x (primed rs2'))

/-- c.or (R237): or rd', rd', rs2'. -/
def execCOr (rd' rs2' : RegNum3) (s : State) : Result :=
  s.atHart fun h => whenLegal h (.cOr rd' rs2') <|
    writeReg h 2 (primed rd') (h.x (primed rd') ||| h.x (primed rs2'))

/-- c.and (R238): and rd', rd', rs2'. -/
def execCAnd (rd' rs2' : RegNum3) (s : State) : Result :=
  s.atHart fun h => whenLegal h (.cAnd rd' rs2') <|
    writeReg h 2 (primed rd') (h.x (primed rd') &&& h.x (primed rs2'))

/-- c.j (R239): jal x0, offset. -/
def execCJ (imm11_1 : BitVec 11) (s : State) : Result :=
  s.atHart fun h => whenLegal h (.cJ imm11_1) <|
    jumpAndLink h 2 0 (pcRelative h (cJumpOff s.isa imm11_1))

/-- c.beqz (R240): beq rs1', x0, offset. -/
def execCBeqz (rs1' : RegNum3) (imm8_1 : BitVec 8) (s : State) : Result :=
  s.atHart fun h => whenLegal h (.cBeqz rs1' imm8_1) <|
    branchTo h 2 (BranchCond.eq.holds (h.x (primed rs1')) (h.x 0)) (pcRelative h (cBranchOff s.isa imm8_1))

/-- c.bnez (R241): bne rs1', x0, offset. -/
def execCBnez (rs1' : RegNum3) (imm8_1 : BitVec 8) (s : State) : Result :=
  s.atHart fun h => whenLegal h (.cBnez rs1' imm8_1) <|
    branchTo h 2 (BranchCond.ne.holds (h.x (primed rs1')) (h.x 0)) (pcRelative h (cBranchOff s.isa imm8_1))

/-! ### Quadrant 10 (R246 to R261) -/

/-- c.slli64 (R246): slli rd, rd, 0, a HINT that changes nothing but the pc. -/
def execCSlli64 (rd : RegNum) (s : State) : Result :=
  s.atHart fun h => whenLegal h (.cSlli64 rd) <|
    writeReg h 2 rd (h.x rd <<< 0)

/-- c.slli (R246): slli rd, rd, shamt. -/
def execCSlli (rd : RegNum) (shamt : BitVec 6) (s : State) : Result :=
  s.atHart fun h => whenLegal h (.cSlli rd shamt) <|
    writeReg h 2 rd (h.x rd <<< shamt.toNat)

/-- c.lwsp (R247): lw rd, uimm(x2). -/
def execCLwsp (rd : RegNum) (uimm7_2 : BitVec 6) (s : State) : Result :=
  s.atHart fun h => whenLegal h (.cLwsp rd uimm7_2) <|
    loadInto h 2 rd (effectiveAddress h 2 (cSpOff s.isa uimm7_2)) 4 (signed s.isa)

/-- c.jr (R248): jalr x0, 0(rs1). -/
def execCJr (rs1 : RegNum) (s : State) : Result :=
  s.atHart fun h => whenLegal h (.cJr rs1) <|
    jumpAndLink h 2 0 (indirectTarget h rs1 0)

/-- c.mv (R249): add rd, x0, rs2. -/
def execCMv (rd rs2 : RegNum) (s : State) : Result :=
  s.atHart fun h => whenLegal h (.cMv rd rs2) <|
    writeReg h 2 rd (h.x 0 + h.x rs2)

/-- c.ebreak (R258): ebreak; the trap records the address of the instruction. -/
def execCEbreak (s : State) : Result :=
  s.atHart fun h => whenLegal h (.cEbreak) <|
    raise h .breakpoint h.pc

/-- c.jalr (R259): jalr x1, 0(rs1); rs1 is read first, the link is pc + 2. -/
def execCJalr (rs1 : RegNum) (s : State) : Result :=
  s.atHart fun h => whenLegal h (.cJalr rs1) <|
    jumpAndLink h 2 1 (indirectTarget h rs1 0)

/-- c.add (R260): add rd, rd, rs2. -/
def execCAdd (rd rs2 : RegNum) (s : State) : Result :=
  s.atHart fun h => whenLegal h (.cAdd rd rs2) <|
    writeReg h 2 rd (h.x rd + h.x rs2)

/-- c.swsp (R261): sw rs2, uimm(x2). -/
def execCSwsp (rs2 : RegNum) (uimm7_2 : BitVec 6) (s : State) : Result :=
  s.atHart fun h => whenLegal h (.cSwsp rs2 uimm7_2) <|
    storeFrom h 2 (effectiveAddress h 2 (cSpOff s.isa uimm7_2)) 4 (h.x rs2)

/-! ### The floating-point rows: no f registers, each raises IllegalInstruction (R262) -/

/-- c.fld (R262). -/
def execCFld (rd' rs1' : RegNum3) (uimm7_3 : BitVec 5) (s : State) : Result :=
  s.atHart fun h => raiseIllegal h (.cFld rd' rs1' uimm7_3)

/-- c.flw (R262). -/
def execCFlw (rd' rs1' : RegNum3) (uimm6_2 : BitVec 5) (s : State) : Result :=
  s.atHart fun h => raiseIllegal h (.cFlw rd' rs1' uimm6_2)

/-- c.fsd (R262). -/
def execCFsd (rs1' rs2' : RegNum3) (uimm7_3 : BitVec 5) (s : State) : Result :=
  s.atHart fun h => raiseIllegal h (.cFsd rs1' rs2' uimm7_3)

/-- c.fsw (R262). -/
def execCFsw (rs1' rs2' : RegNum3) (uimm6_2 : BitVec 5) (s : State) : Result :=
  s.atHart fun h => raiseIllegal h (.cFsw rs1' rs2' uimm6_2)

/-- c.fldsp (R262). -/
def execCFldsp (rd : RegNum) (uimm8_3 : BitVec 6) (s : State) : Result :=
  s.atHart fun h => raiseIllegal h (.cFldsp rd uimm8_3)

/-- c.flwsp (R262). -/
def execCFlwsp (rd : RegNum) (uimm7_2 : BitVec 6) (s : State) : Result :=
  s.atHart fun h => raiseIllegal h (.cFlwsp rd uimm7_2)

/-- c.fsdsp (R262). -/
def execCFsdsp (rs2 : RegNum) (uimm8_3 : BitVec 6) (s : State) : Result :=
  s.atHart fun h => raiseIllegal h (.cFsdsp rs2 uimm8_3)

/-- c.fswsp (R262). -/
def execCFswsp (rs2 : RegNum) (uimm7_2 : BitVec 6) (s : State) : Result :=
  s.atHart fun h => raiseIllegal h (.cFswsp rs2 uimm7_2)

/-! ### The table of expansions (45_compressed R220, R263) -/

/-- The 32-bit base instruction that a sixteen-bit instruction is defined as; none for the floating-point rows and the
illegal word, and for what is no sixteen-bit instruction. The meanings above do not use it. -/
def expansion : Instr → Option Instr
  | .cAddi4spn rd' u => some (.addi (primed rd') 2 ((u ++ 0#2).zeroExtend 12))
  | .cLw rd' rs1' u => some (.lw (primed rd') (primed rs1') ((u ++ 0#2).zeroExtend 12))
  | .cSw rs1' rs2' u => some (.sw (primed rs1') (primed rs2') ((u ++ 0#2).zeroExtend 12))
  | .cNop imm => some (.addi 0 0 (imm.signExtend 12))
  | .cAddi rd imm => some (.addi rd rd (imm.signExtend 12))
  | .cJal j => some (.jal 1 (j.signExtend 20))
  | .cLi rd imm => some (.addi rd 0 (imm.signExtend 12))
  | .cAddi16sp n => some (.addi 2 2 ((n ++ 0#4).signExtend 12))
  | .cLui rd n => some (.lui rd (n.signExtend 20))
  | .cSrli rd' shamt => some (.srli (primed rd') (primed rd') shamt)
  | .cSrai rd' shamt => some (.srai (primed rd') (primed rd') shamt)
  | .cAndi rd' imm => some (.andi (primed rd') (primed rd') (imm.signExtend 12))
  | .cSub rd' rs2' => some (.sub (primed rd') (primed rd') (primed rs2'))
  | .cXor rd' rs2' => some (.xor (primed rd') (primed rd') (primed rs2'))
  | .cOr rd' rs2' => some (.or (primed rd') (primed rd') (primed rs2'))
  | .cAnd rd' rs2' => some (.and (primed rd') (primed rd') (primed rs2'))
  | .cJ j => some (.jal 0 (j.signExtend 20))
  | .cBeqz rs1' b => some (.beq (primed rs1') 0 (b.signExtend 12))
  | .cBnez rs1' b => some (.bne (primed rs1') 0 (b.signExtend 12))
  | .cSlli64 rd => some (.slli rd rd 0)
  | .cSlli rd shamt => some (.slli rd rd shamt)
  | .cLwsp rd u => some (.lw rd 2 ((u ++ 0#2).zeroExtend 12))
  | .cJr rs1 => some (.jalr 0 rs1 0)
  | .cMv rd rs2 => some (.add rd 0 rs2)
  | .cEbreak => some .ebreak
  | .cJalr rs1 => some (.jalr 1 rs1 0)
  | .cAdd rd rs2 => some (.add rd rd rs2)
  | .cSwsp rs2 u => some (.sw 2 rs2 ((u ++ 0#2).zeroExtend 12))
  | .cIllegal | .cFld .. | .cFlw .. | .cFsd .. | .cFsw .. | .cFldsp .. | .cFlwsp .. | .cFsdsp .. | .cFswsp .. => none
  | .lui .. | .auipc .. | .jal .. | .jalr .. | .beq .. | .bne .. | .blt .. | .bge .. | .bltu .. | .bgeu .. => none
  | .lb .. | .lh .. | .lw .. | .lbu .. | .lhu .. | .sb .. | .sh .. | .sw .. => none
  | .addi .. | .slti .. | .sltiu .. | .xori .. | .ori .. | .andi .. | .slli .. | .srli .. | .srai .. => none
  | .add .. | .sub .. | .sll .. | .slt .. | .sltu .. | .xor .. | .srl .. | .sra .. | .or .. | .and .. => none
  | .fence .. | .ecall | .ebreak => none
  | .lwu .. | .ld .. | .sd .. | .addiw .. | .slliw .. | .srliw .. | .sraiw .. => none
  | .addw .. | .subw .. | .sllw .. | .srlw .. | .sraw .. => none

/-- What length 2 changes in the hart `t` that a 4-byte instruction leaves when it starts at `h` (45_compressed R221): the
link value, and the address of the next instruction where that is sequential. -/
def withLengthTwo {c : Isa} (h : Hart c) (base : Instr) (t : Hart c) : Hart c :=
  match base with
  | .jal rd _ => t.setX rd (h.nextPc 2)
  | .jalr rd _ _ => t.setX rd (h.nextPc 2)
  | .beq rs1 rs2 _ => if h.x rs1 = h.x rs2 then t else t.setPc (h.nextPc 2)
  | .bne rs1 rs2 _ => if h.x rs1 = h.x rs2 then t.setPc (h.nextPc 2) else t
  | _ => t.setPc (h.nextPc 2)

end Sys2Proof.Machine
end

