-- ==== Sys2Proof/Machine/Control.lean ====
section
/-! DEFINITION. The control transfer instructions (spec/41_control_transfer.md R150 to R162). -/

namespace Sys2Proof.Machine

/-! ### Unconditional jumps -/

/-- JAL (R153): target pc + immJ, link pc + 4. -/
def execJal (rd : RegNum) (imm20_1 : BitVec 20) (s : State) : Result :=
  s.atHart fun h => jumpAndLink h 4 rd (pcRelative h (immJ s.isa imm20_1))

/-- JALR (R154): target (x[rs1] + immI) & ~1, link pc + 4; x[rs1] is read before x[rd] is written. -/
def execJalr (rd rs1 : RegNum) (imm : BitVec 12) (s : State) : Result :=
  s.atHart fun h => jumpAndLink h 4 rd (indirectTarget h rs1 (imm12 s.isa imm))

/-! ### Conditional branches (R162) -/

/-- BEQ (R155). -/
def execBeq (rs1 rs2 : RegNum) (imm12_1 : BitVec 12) (s : State) : Result :=
  s.atHart fun h => branchTo h 4 (BranchCond.eq.holds (h.x rs1) (h.x rs2)) (pcRelative h (immB s.isa imm12_1))

/-- BNE (R156). -/
def execBne (rs1 rs2 : RegNum) (imm12_1 : BitVec 12) (s : State) : Result :=
  s.atHart fun h => branchTo h 4 (BranchCond.ne.holds (h.x rs1) (h.x rs2)) (pcRelative h (immB s.isa imm12_1))

/-- BLT (R157). -/
def execBlt (rs1 rs2 : RegNum) (imm12_1 : BitVec 12) (s : State) : Result :=
  s.atHart fun h => branchTo h 4 (BranchCond.lt.holds (h.x rs1) (h.x rs2)) (pcRelative h (immB s.isa imm12_1))

/-- BGE (R158). -/
def execBge (rs1 rs2 : RegNum) (imm12_1 : BitVec 12) (s : State) : Result :=
  s.atHart fun h => branchTo h 4 (BranchCond.ge.holds (h.x rs1) (h.x rs2)) (pcRelative h (immB s.isa imm12_1))

/-- BLTU (R159). -/
def execBltu (rs1 rs2 : RegNum) (imm12_1 : BitVec 12) (s : State) : Result :=
  s.atHart fun h => branchTo h 4 (BranchCond.ltu.holds (h.x rs1) (h.x rs2)) (pcRelative h (immB s.isa imm12_1))

/-- BGEU (R160). -/
def execBgeu (rs1 rs2 : RegNum) (imm12_1 : BitVec 12) (s : State) : Result :=
  s.atHart fun h => branchTo h 4 (BranchCond.geu.holds (h.x rs1) (h.x rs2)) (pcRelative h (immB s.isa imm12_1))

end Sys2Proof.Machine
end

