-- ==== Sys2Proof/Machine/Integer.lean ====
section
/-! DEFINITION. The integer computational instructions (spec/40_integer_computational.md R120 to R145). -/

namespace Sys2Proof.Machine

/-! ### Register-immediate instructions (R121 to R131) -/

/-- ADDI (R121): x[rd] <- x[rs1] + immI; NOP is ADDI x0, x0, 0 (R142). -/
def execAddi (rd rs1 : RegNum) (imm : BitVec 12) (s : State) : Result :=
  s.atHart fun h => writeReg h 4 rd (h.x rs1 + imm12 s.isa imm)

/-- SLTI (R122): 1 if x[rs1] <s immI, else 0. -/
def execSlti (rd rs1 : RegNum) (imm : BitVec 12) (s : State) : Result :=
  s.atHart fun h => writeReg h 4 rd (setIf s.isa ((h.x rs1).slt (imm12 s.isa imm)))

/-- SLTIU (R123): immI is sign-extended first, then both are read as unsigned. -/
def execSltiu (rd rs1 : RegNum) (imm : BitVec 12) (s : State) : Result :=
  s.atHart fun h => writeReg h 4 rd (setIf s.isa ((h.x rs1).ult (imm12 s.isa imm)))

/-- XORI (R124). -/
def execXori (rd rs1 : RegNum) (imm : BitVec 12) (s : State) : Result :=
  s.atHart fun h => writeReg h 4 rd (h.x rs1 ^^^ imm12 s.isa imm)

/-- ORI (R125). -/
def execOri (rd rs1 : RegNum) (imm : BitVec 12) (s : State) : Result :=
  s.atHart fun h => writeReg h 4 rd (h.x rs1 ||| imm12 s.isa imm)

/-- ANDI (R126). -/
def execAndi (rd rs1 : RegNum) (imm : BitVec 12) (s : State) : Result :=
  s.atHart fun h => writeReg h 4 rd (h.x rs1 &&& imm12 s.isa imm)

/-- SLLI (R127): zeros enter at bit 0; a six-bit amount with XLEN = 32 is illegal (30_encoding R79). -/
def execSlli (rd rs1 : RegNum) (shamt : BitVec 6) (s : State) : Result :=
  s.atHart fun h => whenLegal h (.slli rd rs1 shamt) <|
    writeReg h 4 rd (h.x rs1 <<< shamt.toNat)

/-- SRLI (R128): zeros enter at the top. -/
def execSrli (rd rs1 : RegNum) (shamt : BitVec 6) (s : State) : Result :=
  s.atHart fun h => whenLegal h (.srli rd rs1 shamt) <|
    writeReg h 4 rd (h.x rs1 >>> shamt.toNat)

/-- SRAI (R129): copies of the old top bit enter at the top. -/
def execSrai (rd rs1 : RegNum) (shamt : BitVec 6) (s : State) : Result :=
  s.atHart fun h => whenLegal h (.srai rd rs1 shamt) <|
    writeReg h 4 rd ((h.x rs1).sshiftRight shamt.toNat)

/-- LUI (R130). -/
def execLui (rd : RegNum) (imm31_12 : BitVec 20) (s : State) : Result :=
  s.atHart fun h => writeReg h 4 rd (immU s.isa imm31_12)

/-- AUIPC (R131): pc is the address of this instruction. -/
def execAuipc (rd : RegNum) (imm31_12 : BitVec 20) (s : State) : Result :=
  s.atHart fun h => writeReg h 4 rd (h.pc + immU s.isa imm31_12)

/-! ### Register-register instructions (R132 to R141, R145) -/

/-- ADD (R132): modulo 2^XLEN. -/
def execAdd (rd rs1 rs2 : RegNum) (s : State) : Result :=
  s.atHart fun h => writeReg h 4 rd (h.x rs1 + h.x rs2)

/-- SUB (R133): modulo 2^XLEN. -/
def execSub (rd rs1 rs2 : RegNum) (s : State) : Result :=
  s.atHart fun h => writeReg h 4 rd (h.x rs1 - h.x rs2)

/-- SLL (R134): the low log2(XLEN) bits of x[rs2] count. -/
def execSll (rd rs1 rs2 : RegNum) (s : State) : Result :=
  s.atHart fun h => writeReg h 4 rd (h.x rs1 <<< shiftAmount (h.x rs2))

/-- SLT (R135): signed. -/
def execSlt (rd rs1 rs2 : RegNum) (s : State) : Result :=
  s.atHart fun h => writeReg h 4 rd (setIf s.isa ((h.x rs1).slt (h.x rs2)))

/-- SLTU (R136): unsigned. -/
def execSltu (rd rs1 rs2 : RegNum) (s : State) : Result :=
  s.atHart fun h => writeReg h 4 rd (setIf s.isa ((h.x rs1).ult (h.x rs2)))

/-- XOR (R137). -/
def execXor (rd rs1 rs2 : RegNum) (s : State) : Result :=
  s.atHart fun h => writeReg h 4 rd (h.x rs1 ^^^ h.x rs2)

/-- SRL (R138): zeros enter. -/
def execSrl (rd rs1 rs2 : RegNum) (s : State) : Result :=
  s.atHart fun h => writeReg h 4 rd (h.x rs1 >>> shiftAmount (h.x rs2))

/-- SRA (R139): the sign enters. -/
def execSra (rd rs1 rs2 : RegNum) (s : State) : Result :=
  s.atHart fun h => writeReg h 4 rd ((h.x rs1).sshiftRight (shiftAmount (h.x rs2)))

/-- OR (R140). -/
def execOr (rd rs1 rs2 : RegNum) (s : State) : Result :=
  s.atHart fun h => writeReg h 4 rd (h.x rs1 ||| h.x rs2)

/-- AND (R141). -/
def execAnd (rd rs1 rs2 : RegNum) (s : State) : Result :=
  s.atHart fun h => writeReg h 4 rd (h.x rs1 &&& h.x rs2)

end Sys2Proof.Machine
end

