-- ==== Sys2Proof/Machine/LoadStore.lean ====
section
/-! DEFINITION. The loads and stores (spec/42_load_store.md R170 to R184). -/

namespace Sys2Proof.Machine

/-! ### Loads (R172 to R178) -/

/-- LB (R172): 1 byte, sign-extended. -/
def execLb (rd rs1 : RegNum) (imm : BitVec 12) (s : State) : Result :=
  s.atHart fun h => loadInto h 4 rd (effectiveAddress h rs1 (imm12 s.isa imm)) 1 (signed s.isa)

/-- LH (R173): 2 bytes, sign-extended. -/
def execLh (rd rs1 : RegNum) (imm : BitVec 12) (s : State) : Result :=
  s.atHart fun h => loadInto h 4 rd (effectiveAddress h rs1 (imm12 s.isa imm)) 2 (signed s.isa)

/-- LW (R174): 4 bytes, sign-extended. -/
def execLw (rd rs1 : RegNum) (imm : BitVec 12) (s : State) : Result :=
  s.atHart fun h => loadInto h 4 rd (effectiveAddress h rs1 (imm12 s.isa imm)) 4 (signed s.isa)

/-- LBU (R175): 1 byte, zero-extended. -/
def execLbu (rd rs1 : RegNum) (imm : BitVec 12) (s : State) : Result :=
  s.atHart fun h => loadInto h 4 rd (effectiveAddress h rs1 (imm12 s.isa imm)) 1 (unsigned s.isa)

/-- LHU (R176): 2 bytes, zero-extended. -/
def execLhu (rd rs1 : RegNum) (imm : BitVec 12) (s : State) : Result :=
  s.atHart fun h => loadInto h 4 rd (effectiveAddress h rs1 (imm12 s.isa imm)) 2 (unsigned s.isa)

/-- LWU (R177), XLEN = 64 only: 4 bytes, zero-extended. -/
def execLwu (rd rs1 : RegNum) (imm : BitVec 12) (s : State) : Result :=
  s.atHart fun h => whenLegal h (.lwu rd rs1 imm) <|
    loadInto h 4 rd (effectiveAddress h rs1 (imm12 s.isa imm)) 4 (unsigned s.isa)

/-- LD (R178), XLEN = 64 only: 8 bytes. -/
def execLd (rd rs1 : RegNum) (imm : BitVec 12) (s : State) : Result :=
  s.atHart fun h => whenLegal h (.ld rd rs1 imm) <|
    loadInto h 4 rd (effectiveAddress h rs1 (imm12 s.isa imm)) 8 (unsigned s.isa)

/-! ### Stores (R179 to R182) -/

/-- SB (R179): the low 8 bits of x[rs2]. -/
def execSb (rs1 rs2 : RegNum) (imm : BitVec 12) (s : State) : Result :=
  s.atHart fun h => storeFrom h 4 (effectiveAddress h rs1 (imm12 s.isa imm)) 1 (h.x rs2)

/-- SH (R180): the low 16 bits of x[rs2]. -/
def execSh (rs1 rs2 : RegNum) (imm : BitVec 12) (s : State) : Result :=
  s.atHart fun h => storeFrom h 4 (effectiveAddress h rs1 (imm12 s.isa imm)) 2 (h.x rs2)

/-- SW (R181): the low 32 bits of x[rs2]. -/
def execSw (rs1 rs2 : RegNum) (imm : BitVec 12) (s : State) : Result :=
  s.atHart fun h => storeFrom h 4 (effectiveAddress h rs1 (imm12 s.isa imm)) 4 (h.x rs2)

/-- SD (R182), XLEN = 64 only. -/
def execSd (rs1 rs2 : RegNum) (imm : BitVec 12) (s : State) : Result :=
  s.atHart fun h => whenLegal h (.sd rs1 rs2 imm) <|
    storeFrom h 4 (effectiveAddress h rs1 (imm12 s.isa imm)) 8 (h.x rs2)

end Sys2Proof.Machine
end

