-- ==== Sys2Proof/Machine/System.lean ====
section
/-! DEFINITION. FENCE, ECALL and EBREAK (spec/43_fence_system.md R190 to R193). -/

namespace Sys2Proof.Machine

/-- FENCE (R190): with one hart and no other observer every access is already in order, so it only advances the pc
(20_memory R57); rd, rs1 and fm are ignored. -/
def execFence (_rd _rs1 : RegNum) (_fm _pred _succ : BitVec 4) (s : State) : Result :=
  s.atHart fun h => .next (h.advance 4)

/-- ECALL (R191): a precise requested trap; no value is recorded (60_exceptions R284). -/
def execEcall (s : State) : Result :=
  s.atHart fun h => raise h .environmentCall 0

/-- EBREAK (R192): the trap records the address of the instruction (60_exceptions R283). -/
def execEbreak (s : State) : Result :=
  s.atHart fun h => raise h .breakpoint h.pc

end Sys2Proof.Machine
end

