-- ==== Sys2Proof/Machine/Word64.lean ====
section
/-! DEFINITION. The RV64I W instructions, XLEN = 64 only (spec/44_rv64i_word.md R200 to R211). -/

namespace Sys2Proof.Machine

/-! ### Register-immediate (R202 to R205) -/

/-- ADDIW (R202). -/
def execAddiw (rd rs1 : RegNum) (imm : BitVec 12) (s : State) : Result :=
  s.atHart fun h => whenLegal h (.addiw rd rs1 imm) <|
    writeReg h 4 rd (wordResult s.isa (lowWord (h.x rs1 + imm12 s.isa imm)))

/-- SLLIW (R203). -/
def execSlliw (rd rs1 : RegNum) (shamt : BitVec 5) (s : State) : Result :=
  s.atHart fun h => whenLegal h (.slliw rd rs1 shamt) <|
    writeReg h 4 rd (wordResult s.isa (lowWord (h.x rs1) <<< shamt.toNat))

/-- SRLIW (R204). -/
def execSrliw (rd rs1 : RegNum) (shamt : BitVec 5) (s : State) : Result :=
  s.atHart fun h => whenLegal h (.srliw rd rs1 shamt) <|
    writeReg h 4 rd (wordResult s.isa (lowWord (h.x rs1) >>> shamt.toNat))

/-- SRAIW (R205): the sign is bit 31 of x[rs1]. -/
def execSraiw (rd rs1 : RegNum) (shamt : BitVec 5) (s : State) : Result :=
  s.atHart fun h => whenLegal h (.sraiw rd rs1 shamt) <|
    writeReg h 4 rd (wordResult s.isa ((lowWord (h.x rs1)).sshiftRight shamt.toNat))

/-! ### Register-register (R206 to R210) -/

/-- ADDW (R206). -/
def execAddw (rd rs1 rs2 : RegNum) (s : State) : Result :=
  s.atHart fun h => whenLegal h (.addw rd rs1 rs2) <|
    writeReg h 4 rd (wordResult s.isa (lowWord (h.x rs1 + h.x rs2)))

/-- SUBW (R207). -/
def execSubw (rd rs1 rs2 : RegNum) (s : State) : Result :=
  s.atHart fun h => whenLegal h (.subw rd rs1 rs2) <|
    writeReg h 4 rd (wordResult s.isa (lowWord (h.x rs1 - h.x rs2)))

/-- SLLW (R208): five bits of x[rs2] count. -/
def execSllw (rd rs1 rs2 : RegNum) (s : State) : Result :=
  s.atHart fun h => whenLegal h (.sllw rd rs1 rs2) <|
    writeReg h 4 rd (wordResult s.isa (lowWord (h.x rs1) <<< shiftAmountW (h.x rs2)))

/-- SRLW (R209). -/
def execSrlw (rd rs1 rs2 : RegNum) (s : State) : Result :=
  s.atHart fun h => whenLegal h (.srlw rd rs1 rs2) <|
    writeReg h 4 rd (wordResult s.isa (lowWord (h.x rs1) >>> shiftAmountW (h.x rs2)))

/-- SRAW (R210). -/
def execSraw (rd rs1 rs2 : RegNum) (s : State) : Result :=
  s.atHart fun h => whenLegal h (.sraw rd rs1 rs2) <|
    writeReg h 4 rd (wordResult s.isa ((lowWord (h.x rs1)).sshiftRight (shiftAmountW (h.x rs2))))

end Sys2Proof.Machine
end

