-- ==== Sys2Proof/Machine/Dispatch.lean ====
section
/-! DEFINITION. One arm per instruction of spec/opcode_table.json, each a call of its meaning. -/

namespace Sys2Proof.Machine

/-- Executing an instruction at a state (spec/00_scope.md R10, step 3). -/
def exec (i : Instr) (s : State) : Host.Outcome State Fault Refusal :=
  match i with
  | .lui rd imm31_12 => Sys2Proof.Machine.execLui rd imm31_12 s
  | .auipc rd imm31_12 => Sys2Proof.Machine.execAuipc rd imm31_12 s
  | .jal rd imm20_1 => Sys2Proof.Machine.execJal rd imm20_1 s
  | .jalr rd rs1 imm => Sys2Proof.Machine.execJalr rd rs1 imm s
  | .beq rs1 rs2 imm12_1 => Sys2Proof.Machine.execBeq rs1 rs2 imm12_1 s
  | .bne rs1 rs2 imm12_1 => Sys2Proof.Machine.execBne rs1 rs2 imm12_1 s
  | .blt rs1 rs2 imm12_1 => Sys2Proof.Machine.execBlt rs1 rs2 imm12_1 s
  | .bge rs1 rs2 imm12_1 => Sys2Proof.Machine.execBge rs1 rs2 imm12_1 s
  | .bltu rs1 rs2 imm12_1 => Sys2Proof.Machine.execBltu rs1 rs2 imm12_1 s
  | .bgeu rs1 rs2 imm12_1 => Sys2Proof.Machine.execBgeu rs1 rs2 imm12_1 s
  | .lb rd rs1 imm => Sys2Proof.Machine.execLb rd rs1 imm s
  | .lh rd rs1 imm => Sys2Proof.Machine.execLh rd rs1 imm s
  | .lw rd rs1 imm => Sys2Proof.Machine.execLw rd rs1 imm s
  | .lbu rd rs1 imm => Sys2Proof.Machine.execLbu rd rs1 imm s
  | .lhu rd rs1 imm => Sys2Proof.Machine.execLhu rd rs1 imm s
  | .sb rs1 rs2 imm => Sys2Proof.Machine.execSb rs1 rs2 imm s
  | .sh rs1 rs2 imm => Sys2Proof.Machine.execSh rs1 rs2 imm s
  | .sw rs1 rs2 imm => Sys2Proof.Machine.execSw rs1 rs2 imm s
  | .addi rd rs1 imm => Sys2Proof.Machine.execAddi rd rs1 imm s
  | .slti rd rs1 imm => Sys2Proof.Machine.execSlti rd rs1 imm s
  | .sltiu rd rs1 imm => Sys2Proof.Machine.execSltiu rd rs1 imm s
  | .xori rd rs1 imm => Sys2Proof.Machine.execXori rd rs1 imm s
  | .ori rd rs1 imm => Sys2Proof.Machine.execOri rd rs1 imm s
  | .andi rd rs1 imm => Sys2Proof.Machine.execAndi rd rs1 imm s
  | .slli rd rs1 shamt => Sys2Proof.Machine.execSlli rd rs1 shamt s
  | .srli rd rs1 shamt => Sys2Proof.Machine.execSrli rd rs1 shamt s
  | .srai rd rs1 shamt => Sys2Proof.Machine.execSrai rd rs1 shamt s
  | .add rd rs1 rs2 => Sys2Proof.Machine.execAdd rd rs1 rs2 s
  | .sub rd rs1 rs2 => Sys2Proof.Machine.execSub rd rs1 rs2 s
  | .sll rd rs1 rs2 => Sys2Proof.Machine.execSll rd rs1 rs2 s
  | .slt rd rs1 rs2 => Sys2Proof.Machine.execSlt rd rs1 rs2 s
  | .sltu rd rs1 rs2 => Sys2Proof.Machine.execSltu rd rs1 rs2 s
  | .xor rd rs1 rs2 => Sys2Proof.Machine.execXor rd rs1 rs2 s
  | .srl rd rs1 rs2 => Sys2Proof.Machine.execSrl rd rs1 rs2 s
  | .sra rd rs1 rs2 => Sys2Proof.Machine.execSra rd rs1 rs2 s
  | .or rd rs1 rs2 => Sys2Proof.Machine.execOr rd rs1 rs2 s
  | .and rd rs1 rs2 => Sys2Proof.Machine.execAnd rd rs1 rs2 s
  | .fence rd rs1 fm pred succ => Sys2Proof.Machine.execFence rd rs1 fm pred succ s
  | .ecall => Sys2Proof.Machine.execEcall s
  | .ebreak => Sys2Proof.Machine.execEbreak s
  | .lwu rd rs1 imm => Sys2Proof.Machine.execLwu rd rs1 imm s
  | .ld rd rs1 imm => Sys2Proof.Machine.execLd rd rs1 imm s
  | .sd rs1 rs2 imm => Sys2Proof.Machine.execSd rs1 rs2 imm s
  | .addiw rd rs1 imm => Sys2Proof.Machine.execAddiw rd rs1 imm s
  | .slliw rd rs1 shamt => Sys2Proof.Machine.execSlliw rd rs1 shamt s
  | .srliw rd rs1 shamt => Sys2Proof.Machine.execSrliw rd rs1 shamt s
  | .sraiw rd rs1 shamt => Sys2Proof.Machine.execSraiw rd rs1 shamt s
  | .addw rd rs1 rs2 => Sys2Proof.Machine.execAddw rd rs1 rs2 s
  | .subw rd rs1 rs2 => Sys2Proof.Machine.execSubw rd rs1 rs2 s
  | .sllw rd rs1 rs2 => Sys2Proof.Machine.execSllw rd rs1 rs2 s
  | .srlw rd rs1 rs2 => Sys2Proof.Machine.execSrlw rd rs1 rs2 s
  | .sraw rd rs1 rs2 => Sys2Proof.Machine.execSraw rd rs1 rs2 s
  | .cIllegal => Sys2Proof.Machine.execCIllegal s
  | .cAddi4spn rd' nzuimm9_2 => Sys2Proof.Machine.execCAddi4spn rd' nzuimm9_2 s
  | .cFld rd' rs1' uimm7_3 => Sys2Proof.Machine.execCFld rd' rs1' uimm7_3 s
  | .cLw rd' rs1' uimm6_2 => Sys2Proof.Machine.execCLw rd' rs1' uimm6_2 s
  | .cFlw rd' rs1' uimm6_2 => Sys2Proof.Machine.execCFlw rd' rs1' uimm6_2 s
  | .cFsd rs1' rs2' uimm7_3 => Sys2Proof.Machine.execCFsd rs1' rs2' uimm7_3 s
  | .cSw rs1' rs2' uimm6_2 => Sys2Proof.Machine.execCSw rs1' rs2' uimm6_2 s
  | .cFsw rs1' rs2' uimm6_2 => Sys2Proof.Machine.execCFsw rs1' rs2' uimm6_2 s
  | .cNop imm => Sys2Proof.Machine.execCNop imm s
  | .cAddi rd imm => Sys2Proof.Machine.execCAddi rd imm s
  | .cJal imm11_1 => Sys2Proof.Machine.execCJal imm11_1 s
  | .cLi rd imm => Sys2Proof.Machine.execCLi rd imm s
  | .cAddi16sp nzimm9_4 => Sys2Proof.Machine.execCAddi16sp nzimm9_4 s
  | .cLui rd nzimm17_12 => Sys2Proof.Machine.execCLui rd nzimm17_12 s
  | .cSrli rd' shamt => Sys2Proof.Machine.execCSrli rd' shamt s
  | .cSrai rd' shamt => Sys2Proof.Machine.execCSrai rd' shamt s
  | .cAndi rd' imm => Sys2Proof.Machine.execCAndi rd' imm s
  | .cSub rd' rs2' => Sys2Proof.Machine.execCSub rd' rs2' s
  | .cXor rd' rs2' => Sys2Proof.Machine.execCXor rd' rs2' s
  | .cOr rd' rs2' => Sys2Proof.Machine.execCOr rd' rs2' s
  | .cAnd rd' rs2' => Sys2Proof.Machine.execCAnd rd' rs2' s
  | .cJ imm11_1 => Sys2Proof.Machine.execCJ imm11_1 s
  | .cBeqz rs1' imm8_1 => Sys2Proof.Machine.execCBeqz rs1' imm8_1 s
  | .cBnez rs1' imm8_1 => Sys2Proof.Machine.execCBnez rs1' imm8_1 s
  | .cSlli64 rd => Sys2Proof.Machine.execCSlli64 rd s
  | .cSlli rd shamt => Sys2Proof.Machine.execCSlli rd shamt s
  | .cFldsp rd uimm8_3 => Sys2Proof.Machine.execCFldsp rd uimm8_3 s
  | .cLwsp rd uimm7_2 => Sys2Proof.Machine.execCLwsp rd uimm7_2 s
  | .cFlwsp rd uimm7_2 => Sys2Proof.Machine.execCFlwsp rd uimm7_2 s
  | .cJr rs1 => Sys2Proof.Machine.execCJr rs1 s
  | .cMv rd rs2 => Sys2Proof.Machine.execCMv rd rs2 s
  | .cEbreak => Sys2Proof.Machine.execCEbreak s
  | .cJalr rs1 => Sys2Proof.Machine.execCJalr rs1 s
  | .cAdd rd rs2 => Sys2Proof.Machine.execCAdd rd rs2 s
  | .cFsdsp rs2 uimm8_3 => Sys2Proof.Machine.execCFsdsp rs2 uimm8_3 s
  | .cSwsp rs2 uimm7_2 => Sys2Proof.Machine.execCSwsp rs2 uimm7_2 s
  | .cFswsp rs2 uimm7_2 => Sys2Proof.Machine.execCFswsp rs2 uimm7_2 s

end Sys2Proof.Machine
end

