-- ==== Sys2Proof/Machine/Fetch.lean ====
section
/-! DEFINITION. Fetching an instruction word at the pc (spec/20_memory.md R47, R53, R58), the recorded bits of an illegal
one, and placing an instruction for the next fetch. -/

namespace Sys2Proof.Machine

/-- One byte of a parcel: a byte that a store of this run has written has no meaning as an instruction (20_memory R58);
an undefined byte has no value (10_state R36). -/
def fetchByte {c : Isa} (h : Hart c) (a : Nat) : Host.Outcome Byte Fault Refusal :=
  if h.stored.contains a then .refused (.fetchOfStoredByte a)
  else
    match h.byteAt a with
    | some b => .next b
    | none => .fault (.undefinedByte a)

/-- One parcel at `a`, recording `a` where execution is not permitted (20_memory R47, 60_exceptions R286). -/
def fetchParcel {c : Isa} (h : Hart c) (a : Nat) : Host.Outcome Parcel Fault Refusal :=
  if permitted c h.memMap .execute a 2 then
    andThen (fetchByte h a) fun b0 => andThen (fetchByte h (a + 1)) fun b1 => .next (parcelOf b0 b1)
  else raise h .instructionAccessFault (BitVec.ofNat c.xlen a)

/-- Instruction fetch at the pc (20_memory R47). The second parcel of an instruction at 2^XLEN - 2 would lie past the top:
it is not permitted there, and the recorded value is (pc + 2) mod 2^XLEN = 0 (R53). -/
def fetch {c : Isa} (h : Hart c) : Host.Outcome InstrWord Fault Refusal :=
  if misalignedTarget c h.pc then raise h .instructionAddressMisaligned h.pc
  else
    andThen (fetchParcel h h.pc.toNat) fun p0 =>
      if isLong p0 then andThen (fetchParcel h (h.pc.toNat + 2)) fun p1 => .next (.long (p1 ++ p0))
      else .next (.short p0)

/-! ### Placing an instruction for the next fetch (log entry 8) -/

/-- Bytes placed from `a` on by the environment, not by a store. -/
def Memory.place (m : Memory) (a : Nat) : List Byte → Memory
  | [] => m
  | b :: bs => Memory.place (Memory.write m a b) (a + 1) bs

/-- The state with the same registers, pc, memory and map launched in another configuration: register and pc values are
zero-extended or cut to its XLEN, and the pc is cut to its instruction alignment. -/
def State.inIsa (s : State) (c : Isa) : State :=
  if s.isa = c then s
  else
    { isa := c
      hart :=
        { regs := s.hart.regs.map fun v => v.setWidth c.xlen
          pc := BitVec.ofNat c.xlen (s.hart.pc.toNat % 2 ^ c.xlen / c.instrAlign * c.instrAlign)
          mem := s.hart.mem
          memMap := s.hart.memMap
          stored := s.hart.stored } }

/-- The hart with bytes placed at its pc so that the next fetch reads them: the placed bytes count as loaded, not as
stored, and the map permits execution there. -/
def Hart.placeAtPc {c : Isa} (h : Hart c) (bs : List Byte) : Hart c :=
  let a := h.pc.toNat
  { h with
    mem := Memory.place h.mem a bs
    stored := h.stored.filter fun k => decide (k < a ∨ a + bs.length ≤ k)
    memMap :=
      if permitted c h.memMap .execute a 2 && permitted c h.memMap .execute (a + 2) 2 then h.memMap
      else Config.resetMemMap c }

/-- The configuration the bytes are launched in: the state's own if its decoder accepts them, else the first that does. -/
def launchIsa (s : State) (bs : List Byte) : Isa :=
  match firstDecoding [s.isa, .rv32ic, .rv64i, .rv32i] bs with
  | some (c, _) => c
  | none => s.isa

/-- The state with the bytes placed at its pc in a configuration that decodes them. -/
def State.placeInstr (s : State) (bs : List Byte) : State :=
  let s' := s.inIsa (launchIsa s bs)
  { isa := s'.isa, hart := s'.hart.placeAtPc bs }

end Sys2Proof.Machine
end

