-- ==== Sys2Proof/Machine/Step.lean ====
section
/-! DEFINITION. One step of the machine: fetch, decode, execute (spec/00_scope.md R10), and the same with an environment
that may resume after a trap (spec/60_exceptions.md R290). -/

namespace Sys2Proof.Machine

/-- Decode the fetched word and execute it; bits that are no instruction raise IllegalInstruction with those bits
(00_scope R10, 60_exceptions R282). -/
def runWord (s : State) (w : InstrWord) : Host.Outcome State Fault Refusal :=
  match decode s.isa w with
  | .ok i => exec i s
  | .error _ => raise s.hart .illegalInstruction (BitVec.ofNat s.isa.xlen w.bits)

/-- One step (00_scope R10). -/
def step (s : State) : Host.Outcome State Fault Refusal := andThen (fetch s.hart) (runWord s)

/-- One step with an environment function (60_exceptions R290): `step` is `stepWith noHandler`. -/
def stepWith (handle : Trap → Option State) (s : State) : Host.Outcome State Fault Refusal := resume handle (step s)

/-- The state with an instruction placed where the next step fetches (log entry 8). -/
def State.withFetchWord (s : State) (nbits w : Nat) : State := s.placeInstr (tableBytes nbits w)

end Sys2Proof.Machine
end

