-- ==== Sys2Proof/Machine/Multicycle.lean ====
section
/-! DEFINITION. The multicycle control machine of spec/70_reset_and_hazards.md R330 to R333: eleven states over a datapath
of its own, for six instruction classes of RV32I. It is informational (R331): no rule of `step` uses it. Its registers
Instr, Data, ALUOut and OldPC are not architectural state (spec/10_state.md R32) and stand here, not in `State`. -/

namespace Sys2Proof.Machine.Multicycle

/-- The eleven states of R330. -/
inductive Phase where
  | fetch
  | decode
  | memAdr
  | memRead
  | memWB
  | memWrite
  | executeR
  | executeI
  | aluWB
  | beq
  | jal
  deriving DecidableEq, Repr

/-- The six instruction classes of R331. -/
inductive Class where
  | lw
  | sw
  | rType
  | iType
  | beq
  | jal
  deriving DecidableEq, Repr

/-- The clock cycles of a class (R331). -/
def Class.cycles : Class → Nat
  | .lw => 5
  | .sw => 4
  | .rType => 4
  | .iType => 4
  | .beq => 3
  | .jal => 4

/-- The operation of the arithmetic unit in ExecuteR and ExecuteI. -/
inductive AluOp where
  | add
  | sub
  | sll
  | slt
  | sltu
  | xor
  | srl
  | sra
  | or
  | and
  deriving DecidableEq, Repr

/-- The arithmetic unit; a shift uses the low five bits of its second operand. -/
def AluOp.apply (k : AluOp) (a b : BitVec 32) : BitVec 32 :=
  match k with
  | .add => a + b
  | .sub => a - b
  | .sll => a <<< (b.setWidth 5).toNat
  | .slt => if a.slt b then 1 else 0
  | .sltu => if a.ult b then 1 else 0
  | .xor => a ^^^ b
  | .srl => a >>> (b.setWidth 5).toNat
  | .sra => a.sshiftRight (b.setWidth 5).toNat
  | .or => a ||| b
  | .and => a &&& b

/-- What the control unit reads from the instruction: its class, its registers, its immediate, its operation. -/
structure Control where
  cls : Class
  rd : RegNum
  rs1 : RegNum
  rs2 : RegNum
  imm : BitVec 32
  op : AluOp
  deriving DecidableEq, Repr

def rControl (op : AluOp) (rd rs1 rs2 : RegNum) : Control := ⟨.rType, rd, rs1, rs2, 0, op⟩
def iControl (op : AluOp) (rd rs1 : RegNum) (imm : BitVec 32) : Control := ⟨.iType, rd, rs1, 0, imm, op⟩

/-- The control values of an instruction, none for what the slide has no state for (R333). -/
def control : Instr → Option Control
  | .lw rd rs1 imm => some ⟨.lw, rd, rs1, 0, imm.signExtend 32, .add⟩
  | .sw rs1 rs2 imm => some ⟨.sw, 0, rs1, rs2, imm.signExtend 32, .add⟩
  | .beq rs1 rs2 b => some ⟨.beq, 0, rs1, rs2, (b ++ 0#1).signExtend 32, .sub⟩
  | .jal rd j => some ⟨.jal, rd, 0, 0, (j ++ 0#1).signExtend 32, .add⟩
  | .add rd rs1 rs2 => some (rControl .add rd rs1 rs2)
  | .sub rd rs1 rs2 => some (rControl .sub rd rs1 rs2)
  | .sll rd rs1 rs2 => some (rControl .sll rd rs1 rs2)
  | .slt rd rs1 rs2 => some (rControl .slt rd rs1 rs2)
  | .sltu rd rs1 rs2 => some (rControl .sltu rd rs1 rs2)
  | .xor rd rs1 rs2 => some (rControl .xor rd rs1 rs2)
  | .srl rd rs1 rs2 => some (rControl .srl rd rs1 rs2)
  | .sra rd rs1 rs2 => some (rControl .sra rd rs1 rs2)
  | .or rd rs1 rs2 => some (rControl .or rd rs1 rs2)
  | .and rd rs1 rs2 => some (rControl .and rd rs1 rs2)
  | .addi rd rs1 imm => some (iControl .add rd rs1 (imm.signExtend 32))
  | .slti rd rs1 imm => some (iControl .slt rd rs1 (imm.signExtend 32))
  | .sltiu rd rs1 imm => some (iControl .sltu rd rs1 (imm.signExtend 32))
  | .xori rd rs1 imm => some (iControl .xor rd rs1 (imm.signExtend 32))
  | .ori rd rs1 imm => some (iControl .or rd rs1 (imm.signExtend 32))
  | .andi rd rs1 imm => some (iControl .and rd rs1 (imm.signExtend 32))
  | .slli rd rs1 shamt => some (iControl .sll rd rs1 (shamt.zeroExtend 32))
  | .srli rd rs1 shamt => some (iControl .srl rd rs1 (shamt.zeroExtend 32))
  | .srai rd rs1 shamt => some (iControl .sra rd rs1 (shamt.zeroExtend 32))
  | .lui .. | .auipc .. | .jalr .. | .bne .. | .blt .. | .bge .. | .bltu .. | .bgeu .. => none
  | .lb .. | .lh .. | .lbu .. | .lhu .. | .sb .. | .sh .. | .fence .. | .ecall | .ebreak => none
  | .lwu .. | .ld .. | .sd .. | .addiw .. | .slliw .. | .srliw .. | .sraiw .. => none
  | .addw .. | .subw .. | .sllw .. | .srlw .. | .sraw .. => none
  | .cIllegal | .cAddi4spn .. | .cFld .. | .cLw .. | .cFlw .. | .cFsd .. | .cSw .. | .cFsw .. => none
  | .cNop .. | .cAddi .. | .cJal .. | .cLi .. | .cAddi16sp .. | .cLui .. | .cSrli .. | .cSrai .. => none
  | .cAndi .. | .cSub .. | .cXor .. | .cOr .. | .cAnd .. | .cJ .. | .cBeqz .. | .cBnez .. => none
  | .cSlli64 .. | .cSlli .. | .cFldsp .. | .cLwsp .. | .cFlwsp .. | .cJr .. | .cMv .. | .cEbreak => none
  | .cJalr .. | .cAdd .. | .cFsdsp .. | .cSwsp .. | .cFswsp .. => none

/-- The datapath: the hart's registers, PC and memory, and the machine's own registers. -/
structure Datapath where
  phase : Phase
  hart : Hart .rv32i
  /-- The address of the instruction in `instr` (R332). -/
  oldPc : BitVec 32
  instr : BitVec 32
  data : BitVec 32
  aluOut : BitVec 32
  deriving DecidableEq, Repr

/-- The machine at the start of an instruction: in Fetch, its own registers holding anything. -/
def start (h : Hart .rv32i) (oldPc instr data aluOut : BitVec 32) : Datapath :=
  { phase := .fetch, hart := h, oldPc := oldPc, instr := instr, data := data, aluOut := aluOut }

/-- The control values of the instruction in `instr`. -/
def Datapath.control (d : Datapath) : Option Control :=
  match decode .rv32i (.long d.instr) with
  | .ok i => Multicycle.control i
  | .error _ => none

/-- The state after Decode for each class (R331). -/
def Class.afterDecode : Class → Phase
  | .lw => .memAdr
  | .sw => .memAdr
  | .rType => .executeR
  | .iType => .executeI
  | .beq => .beq
  | .jal => .jal

/-- What one state of R330 does with the datapath under given control values; none where the machine has no state for what
happens (an exception, R333). In Decode, BEQ and JAL "PC" reads as the address of the instruction (R332, conflict C11);
MemWrite stores x[rs2] (conflict C5). -/
def Datapath.micro (d : Datapath) (k : Control) : Option Datapath :=
  match d.phase with
  | .fetch => none
  | .decode => some { d with aluOut := d.oldPc + k.imm, phase := k.cls.afterDecode }
  | .memAdr =>
    some { d with aluOut := d.hart.x k.rs1 + k.imm, phase := if k.cls = .lw then .memRead else .memWrite }
  | .memRead =>
    match memRead d.hart d.aluOut 4 with
    | .next v => some { d with data := v, phase := .memWB }
    | _ => none
  | .memWB => some { d with hart := d.hart.setX k.rd d.data, phase := .fetch }
  | .memWrite =>
    match memWrite d.hart d.aluOut 4 (d.hart.x k.rs2) with
    | .next h => some { d with hart := h, phase := .fetch }
    | _ => none
  | .executeR => some { d with aluOut := k.op.apply (d.hart.x k.rs1) (d.hart.x k.rs2), phase := .aluWB }
  | .executeI => some { d with aluOut := k.op.apply (d.hart.x k.rs1) k.imm, phase := .aluWB }
  | .aluWB => some { d with hart := d.hart.setX k.rd d.aluOut, phase := .fetch }
  | .beq =>
    some { d with
      hart := if d.hart.x k.rs1 - d.hart.x k.rs2 = 0 then d.hart.setPc d.aluOut else d.hart
      phase := .fetch }
  | .jal => some { d with hart := d.hart.setPc d.aluOut, aluOut := d.oldPc + 4, phase := .aluWB }

/-- One clock cycle. Fetch: Instr <- Mem[PC], PC <- PC + 4, and the old PC kept (R330, R332). -/
def tick (d : Datapath) : Option Datapath :=
  match d.phase with
  | .fetch =>
    match fetch d.hart with
    | .next (.long w) => some { d with instr := w, oldPc := d.hart.pc, hart := d.hart.advance 4, phase := .decode }
    | _ => none
  | _ => d.control.bind d.micro

/-- Some clock cycles. -/
def ticks : Nat → Datapath → Option Datapath
  | 0, d => some d
  | n + 1, d => (tick d).bind (ticks n)

end Sys2Proof.Machine.Multicycle
end

