-- ==== Sys2Proof/Machine/Pseudo.lean ====
section
/-! DEFINITION. The spellings that add no behaviour: ABI register names (spec/10_state.md R23) and pseudo-instructions
(spec/30_encoding.md R103). No rule of the machine uses them. -/

namespace Sys2Proof.Machine

/-- The register an ABI name spells (10_state R23); x8 has two names. -/
def abiRegister : String → Option RegNum
  | "zero" => some 0
  | "ra" => some 1
  | "sp" => some 2
  | "gp" => some 3
  | "tp" => some 4
  | "t0" => some 5
  | "t1" => some 6
  | "t2" => some 7
  | "s0" | "fp" => some 8
  | "s1" => some 9
  | "a0" => some 10
  | "a1" => some 11
  | "a2" => some 12
  | "a3" => some 13
  | "a4" => some 14
  | "a5" => some 15
  | "a6" => some 16
  | "a7" => some 17
  | "s2" => some 18
  | "s3" => some 19
  | "s4" => some 20
  | "s5" => some 21
  | "s6" => some 22
  | "s7" => some 23
  | "s8" => some 24
  | "s9" => some 25
  | "s10" => some 26
  | "s11" => some 27
  | "t3" => some 28
  | "t4" => some 29
  | "t5" => some 30
  | "t6" => some 31
  | _ => none

/-- The roles of 10_state R23 in the customary calling convention; the hardware does not know them. -/
inductive Role where
  | hardwiredZero
  | returnAddress
  | stackPointer
  | globalPointer
  | threadPointer
  | temporary
  | saved
  | argument
  deriving DecidableEq, Repr

/-- The role of a register (10_state R23). -/
def roleOf (r : RegNum) : Role :=
  match r.toNat with
  | 0 => .hardwiredZero
  | 1 => .returnAddress
  | 2 => .stackPointer
  | 3 => .globalPointer
  | 4 => .threadPointer
  | 8 | 9 | 18 | 19 | 20 | 21 | 22 | 23 | 24 | 25 | 26 | 27 => .saved
  | 10 | 11 | 12 | 13 | 14 | 15 | 16 | 17 => .argument
  | _ => .temporary

/-- The pseudo-instructions of 30_encoding R103. A branch or jump offset is given as the encoded bits, imm[12:1] or
imm[20:1]; `call` and `tail` take the 32-bit distance from the AUIPC to the target. -/
inductive Pseudo where
  | nop
  | mv (rd rs : RegNum)
  | liShort (rd : RegNum) (imm : BitVec 12)
  | li (rd : RegNum) (imm : BitVec 32)
  | not (rd rs : RegNum)
  | neg (rd rs : RegNum)
  | seqz (rd rs : RegNum)
  | snez (rd rs : RegNum)
  | sltz (rd rs : RegNum)
  | sgtz (rd rs : RegNum)
  | beqz (rs : RegNum) (imm12_1 : BitVec 12)
  | bnez (rs : RegNum) (imm12_1 : BitVec 12)
  | blez (rs : RegNum) (imm12_1 : BitVec 12)
  | bgez (rs : RegNum) (imm12_1 : BitVec 12)
  | bltz (rs : RegNum) (imm12_1 : BitVec 12)
  | bgtz (rs : RegNum) (imm12_1 : BitVec 12)
  | bgt (rs rt : RegNum) (imm12_1 : BitVec 12)
  | ble (rs rt : RegNum) (imm12_1 : BitVec 12)
  | bgtu (rs rt : RegNum) (imm12_1 : BitVec 12)
  | bleu (rs rt : RegNum) (imm12_1 : BitVec 12)
  | j (imm20_1 : BitVec 20)
  | jal (imm20_1 : BitVec 20)
  | jr (rs : RegNum)
  | jalr (rs : RegNum)
  | ret
  | call (distance : BitVec 32)
  | tail (distance : BitVec 32)
  | sextW (rd rs : RegNum)
  | negw (rd rs : RegNum)
  deriving DecidableEq, Repr

/-- hi20(v) = (v + 0x800) >> 12 (R103). -/
def hi20 (v : BitVec 32) : BitVec 20 := (v + 0x800).extractLsb 31 12

/-- lo12(v) = v[11:0], which the instruction sign-extends (R103). -/
def lo12 (v : BitVec 32) : BitVec 12 := v.extractLsb 11 0

/-- The instructions a pseudo-instruction spells (R103). -/
def Pseudo.expand : Pseudo → List Instr
  | .nop => [.addi 0 0 0]
  | .mv rd rs => [.addi rd rs 0]
  | .liShort rd imm => [.addi rd 0 imm]
  | .li rd imm => if lo12 imm = 0 then [.lui rd (hi20 imm)] else [.lui rd (hi20 imm), .addi rd rd (lo12 imm)]
  | .not rd rs => [.xori rd rs 0xFFF]
  | .neg rd rs => [.sub rd 0 rs]
  | .seqz rd rs => [.sltiu rd rs 1]
  | .snez rd rs => [.sltu rd 0 rs]
  | .sltz rd rs => [.slt rd rs 0]
  | .sgtz rd rs => [.slt rd 0 rs]
  | .beqz rs l => [.beq rs 0 l]
  | .bnez rs l => [.bne rs 0 l]
  | .blez rs l => [.bge 0 rs l]
  | .bgez rs l => [.bge rs 0 l]
  | .bltz rs l => [.blt rs 0 l]
  | .bgtz rs l => [.blt 0 rs l]
  | .bgt rs rt l => [.blt rt rs l]
  | .ble rs rt l => [.bge rt rs l]
  | .bgtu rs rt l => [.bltu rt rs l]
  | .bleu rs rt l => [.bgeu rt rs l]
  | .j l => [.jal 0 l]
  | .jal l => [.jal 1 l]
  | .jr rs => [.jalr 0 rs 0]
  | .jalr rs => [.jalr 1 rs 0]
  | .ret => [.jalr 0 1 0]
  | .call d => [.auipc 1 (hi20 d), .jalr 1 1 (lo12 d)]
  | .tail d => [.auipc 6 (hi20 d), .jalr 0 6 (lo12 d)]
  | .sextW rd rs => [.addiw rd rs 0]
  | .negw rd rs => [.subw rd 0 rs]

end Sys2Proof.Machine
end

