-- ==== Sys2Proof/Safety.lean ====
section
/-! DEFINITION. What claims are stated in: the invariant of the machine, the outcomes the spec gives a meaning, and the
launch states that keep a program inside them (spec/20_memory.md R58, spec/93_implementation_defined.md V2, V4). -/

namespace Sys2Proof.Machine

/-- The invariant of a hart. -/
structure Hart.Inv {c : Isa} (h : Hart c) : Prop where
  /-- The pc is a multiple of IALIGN/8 (10_state R27). -/
  pcAligned : misalignedTarget c h.pc = false
  /-- Memory is in its canonical form. -/
  memRising : Memory.wf h.mem = true
  /-- Every listed byte lies in the address space (20_memory R40). -/
  memInside : ∀ p ∈ h.mem, p.1 < 2 ^ c.xlen
  /-- The regions are disjoint and inside the address space (20_memory R42). -/
  mapOk : MemMap.wf c h.memMap = true
  /-- The stored addresses rise strictly. -/
  storedRising : h.stored.Pairwise (· < ·)
  /-- A stored address holds a byte and may be written. -/
  storedWritten : ∀ a ∈ h.stored, (h.byteAt a).isSome = true ∧ permitted c h.memMap .write a 1 = true

/-- The invariant of a state. -/
def State.Inv (s : State) : Prop := s.hart.Inv

/-- No region may be both written and executed: the layout of 20_memory R58. -/
def MemMap.writeXorExecute (m : MemMap) : Prop := ∀ r ∈ m, ¬ (r.w = true ∧ r.x = true)

/-- Every byte that may be read or executed holds a value: the launch state defined it (10_state R36, 70 R321). -/
def Hart.Loaded {c : Isa} (h : Hart c) : Prop :=
  ∀ a, (permitted c h.memMap .read a 1 = true ∨ permitted c h.memMap .execute a 1 = true) → (h.byteAt a).isSome = true

/-- The instructions that store (20_memory R41). -/
def isStore : Instr → Bool
  | .sb .. | .sh .. | .sw .. | .sd .. | .cSw .. | .cSwsp .. => true
  | _ => false

/-- The instructions that load (20_memory R41). -/
def isLoad : Instr → Bool
  | .lb .. | .lh .. | .lw .. | .lbu .. | .lhu .. | .lwu .. | .ld .. | .cLw .. | .cLwsp .. => true
  | _ => false

/-- The outcomes the spec gives a step: a next state or a trap (60_exceptions R290). -/
def Result.Defined : Result → Prop
  | .next _ => True
  | .fault (.trap _) => True
  | .fault (.undefinedByte _) => False
  | .refused _ => False

/-- The trap a step hands to the environment, none where it hands none. -/
def Result.trap? : Result → Option Trap
  | .fault (.trap t) => some t
  | .next _ => none
  | .fault (.undefinedByte _) => none
  | .refused _ => none

end Sys2Proof.Machine
end

