-- ==== Sys2Proof/Certificates/Slice0/Obligations.lean ====
section
/-! DEFINITION. The statements for the provers, each `def Obligations.<Name> : Prop`, with the shapes they share. -/

namespace Sys2Proof.Claims

open Sys2Proof.Machine

variable {c : Isa}

/-! ### The shapes the statements share -/

/-- The state that holds a hart. -/
@[reducible] def at' (h : Hart c) : State := { isa := c, hart := h }

/-- The trap raised at a hart: the cause, the unchanged state, the instruction's address, the recorded value
(60_exceptions R290). -/
def trapAt (h : Hart c) (cause : Cause) (tval : BitVec c.xlen) : Trap :=
  { cause := cause, state := at' h, pc := h.pc, tval := tval }

/-- Every byte of memory, the memory map and the addresses stored to are as before. -/
def SameMemory (h h' : Hart c) : Prop :=
  (∀ a, h'.byteAt a = h.byteAt a) ∧ h'.memMap = h.memMap ∧ h'.stored = h.stored

/-- Every register is as before but rd, which holds v; nothing is written for x0. -/
def WritesOnly (h h' : Hart c) (rd : RegNum) (v : BitVec c.xlen) : Prop :=
  ∀ r, h'.x r = if r = rd ∧ rd ≠ 0 then v else h.x r

/-- The instruction completes: rd holds v, the pc goes on by ilen, nothing else changes. -/
def Computes (h : Hart c) (i : Instr) (ilen : Nat) (rd : RegNum) (v : BitVec c.xlen) : Prop :=
  ∃ h' : Hart c, exec i (at' h) = .next (at' h') ∧ WritesOnly h h' rd v ∧ h'.pc = h.pc + BitVec.ofNat c.xlen ilen ∧
    SameMemory h h'

/-- The instruction raises an exception. -/
def Traps (h : Hart c) (i : Instr) (cause : Cause) (tval : BitVec c.xlen) : Prop :=
  exec i (at' h) = .fault (.trap (trapAt h cause tval))

/-- A jump to t with link rd: the link is the address after the jump, nothing else changes; a target that is not
IALIGN-aligned traps instead (41_control_transfer R152). -/
def Jumps (h : Hart c) (i : Instr) (ilen : Nat) (rd : RegNum) (t : BitVec c.xlen) : Prop :=
  (t.toNat % c.instrAlign = 0 →
    ∃ h' : Hart c, exec i (at' h) = .next (at' h') ∧ WritesOnly h h' rd (h.pc + BitVec.ofNat c.xlen ilen) ∧
      h'.pc = t ∧ SameMemory h h') ∧
  (t.toNat % c.instrAlign ≠ 0 → Traps h i .instructionAddressMisaligned t)

/-- A branch to t: not taken it goes on by ilen whatever t is; taken it goes to t, or traps if t is not IALIGN-aligned. No
register and no byte of memory changes. -/
def Branches (h : Hart c) (i : Instr) (ilen : Nat) (taken : Prop) (t : BitVec c.xlen) : Prop :=
  (¬ taken → ∃ h' : Hart c, exec i (at' h) = .next (at' h') ∧ (∀ r, h'.x r = h.x r) ∧
    h'.pc = h.pc + BitVec.ofNat c.xlen ilen ∧ SameMemory h h') ∧
  (taken → t.toNat % c.instrAlign = 0 → ∃ h' : Hart c, exec i (at' h) = .next (at' h') ∧ (∀ r, h'.x r = h.x r) ∧
    h'.pc = t ∧ SameMemory h h') ∧
  (taken → t.toNat % c.instrAlign ≠ 0 → Traps h i .instructionAddressMisaligned t)

/-- Bytes a to a + n - 1 of memory hold the little-endian value v. -/
def Holds (h : Hart c) (a n : Nat) (v : BitVec (8 * n)) : Prop :=
  ∀ k, k < n → h.byteAt (a + k) = some (v.extractLsb' (8 * k) 8)

/-- A load of n bytes at a. A misaligned access traps, then one that is not permitted; where the bytes hold v, rd holds
`ext v` and nothing but the pc changes beside. -/
def Loads (h : Hart c) (i : Instr) (ilen : Nat) (a : BitVec c.xlen) (n : Nat) (rd : RegNum)
    (ext : BitVec (8 * n) → BitVec c.xlen) : Prop :=
  (a.toNat % n ≠ 0 → Traps h i .loadAddressMisaligned a) ∧
  (a.toNat % n = 0 → permitted c h.memMap .read a.toNat n = false → Traps h i .loadAccessFault a) ∧
  ∀ v : BitVec (8 * n), a.toNat % n = 0 → permitted c h.memMap .read a.toNat n = true → Holds h a.toNat n v →
    Computes h i ilen rd (ext v)

/-- A load of n bytes at a stops at the lowest of them that holds no value, where the access is aligned and permitted. -/
def StopsAtUndefinedByte (h : Hart c) (i : Instr) (a : BitVec c.xlen) (n : Nat) : Prop :=
  a.toNat % n = 0 → permitted c h.memMap .read a.toNat n = true →
    ∀ k, k < n → (∀ j, j < k → (h.byteAt (a.toNat + j)).isSome = true) → h.byteAt (a.toNat + k) = none →
      exec i (at' h) = .fault (.undefinedByte (a.toNat + k))

/-- A store of the n low bytes of v at a. A misaligned access traps, then one that is not permitted; otherwise those bytes are
in memory, every byte outside them reads as before, and no register changes. -/
def Stores (h : Hart c) (i : Instr) (ilen : Nat) (a : BitVec c.xlen) (n : Nat) (v : BitVec c.xlen) : Prop :=
  (a.toNat % n ≠ 0 → Traps h i .storeAddressMisaligned a) ∧
  (a.toNat % n = 0 → permitted c h.memMap .write a.toNat n = false → Traps h i .storeAccessFault a) ∧
  (a.toNat % n = 0 → permitted c h.memMap .write a.toNat n = true →
    ∃ h' : Hart c, exec i (at' h) = .next (at' h') ∧ (∀ r, h'.x r = h.x r) ∧ h'.pc = h.pc + BitVec.ofNat c.xlen ilen ∧
      (∀ k, k < n → h'.byteAt (a.toNat + k) = some (v.extractLsb' (8 * k) 8)) ∧
      (∀ b, (b < a.toNat ∨ a.toNat + n ≤ b) → h'.byteAt b = h.byteAt b) ∧
      h'.memMap = h.memMap ∧ (∀ b, b ∈ h'.stored ↔ (a.toNat ≤ b ∧ b < a.toNat + n) ∨ b ∈ h.stored))

/-- A 32-bit word decodes to the instruction. -/
def Word32 (c : Isa) (w : BitVec 32) (i : Instr) : Prop := decode c (.long w) = .ok i

/-- A 32-bit word is no instruction of the configuration. -/
def NoWord32 (c : Isa) (w : BitVec 32) : Prop := ∀ i, decode c (.long w) ≠ .ok i

/-- A 16-bit word decodes to the instruction. -/
def Word16 (c : Isa) (w : Parcel) (i : Instr) : Prop := decode c (.short w) = .ok i

/-- The trap of bits that are no instruction, at a step (60_exceptions R282). -/
def StepIllegal (h : Hart c) (w : InstrWord) : Prop :=
  step (at' h) = .fault (.trap (trapAt h .illegalInstruction (BitVec.ofNat c.xlen w.bits)))

/-- The bytes of a word stand in memory at the pc, may be executed parcel by parcel and have not been stored to. -/
def AtPc (h : Hart c) (w : InstrWord) : Prop :=
  h.pc.toNat % c.instrAlign = 0 ∧
  (∀ k, (hk : k < w.bytes.length) → h.byteAt (h.pc.toNat + k) = some w.bytes[k] ∧ h.pc.toNat + k ∉ h.stored) ∧
  permitted c h.memMap .execute h.pc.toNat 2 = true ∧
  (w.bytes.length = 4 → permitted c h.memMap .execute (h.pc.toNat + 2) 2 = true)

/-- The integer computational instructions with rd = x0, which are HINTs or NOP (30_encoding R99). -/
def isHint32 : Instr → Bool
  | .lui rd _ | .auipc rd _ | .addi rd _ _ | .slti rd _ _ | .sltiu rd _ _ | .xori rd _ _ | .ori rd _ _ => rd == 0
  | .andi rd _ _ | .slli rd _ _ | .srli rd _ _ | .srai rd _ _ | .add rd _ _ | .sub rd _ _ | .sll rd _ _ => rd == 0
  | .slt rd _ _ | .sltu rd _ _ | .xor rd _ _ | .srl rd _ _ | .sra rd _ _ | .or rd _ _ | .and rd _ _ => rd == 0
  | .addiw rd _ _ | .slliw rd _ _ | .srliw rd _ _ | .sraiw rd _ _ | .addw rd _ _ | .subw rd _ _ => rd == 0
  | .sllw rd _ _ | .srlw rd _ _ | .sraw rd _ _ => rd == 0
  | _ => false

/-- The sixteen-bit HINTs and c.nop (30_encoding R100). -/
def isHint16 : Instr → Bool
  | .cNop _ => true
  | .cAddi _ imm => imm == 0
  | .cLi rd _ | .cLui rd _ | .cMv rd _ | .cAdd rd _ => rd == 0
  | .cSlli rd _ => rd == 0
  | .cSlli64 _ => true
  | .cSrli _ shamt | .cSrai _ shamt => shamt == 0
  | _ => false

/-- The eight floating-point rows (45_compressed R262). -/
def isFloatRow : Instr → Bool
  | .cFld .. | .cFlw .. | .cFsd .. | .cFsw .. | .cFldsp .. | .cFlwsp .. | .cFsdsp .. | .cFswsp .. => true
  | _ => false

/-- A W instruction with its destination and operands replaced by names: rd, and the registers it reads. -/
def wOperands : Instr → Option (RegNum × RegNum × RegNum)
  | .addiw rd rs1 _ | .slliw rd rs1 _ | .srliw rd rs1 _ | .sraiw rd rs1 _ => some (rd, rs1, rs1)
  | .addw rd rs1 rs2 | .subw rd rs1 rs2 | .sllw rd rs1 rs2 | .srlw rd rs1 rs2 | .sraw rd rs1 rs2 => some (rd, rs1, rs2)
  | _ => none

end Sys2Proof.Claims

open Sys2Proof Sys2Proof.Machine Sys2Proof.Claims

/-! ### Reset and launch -/

/-- 70_reset_and_hazards R320, R321: a launch state holds exactly what the environment gives, x0 reads 0, and no store has
run. `State.reset` is the launch in the spec's default configuration with memory undefined; its RESET_PC, memory map and
x1 to x31 are the model's choice (log entries 2, 3, 4). -/
def Obligations.LaunchState : Prop :=
  (∀ (c : Isa) (m : MemMap) (p : BitVec c.xlen) (mem : Memory) (regs : Vector (BitVec c.xlen) 31),
    ∃ h : Hart c, State.launch c m p mem regs = at' h ∧ h.pc = p ∧ h.mem = mem ∧ h.memMap = m ∧ h.stored = [] ∧
      h.x 0 = 0 ∧ ∀ (r : RegNum) (hr : r ≠ 0), h.x r = regs[regIndex r hr]) ∧
  ∃ h : Hart .rv32ic, State.reset = at' h ∧ h.pc = 0 ∧ (∀ a, h.byteAt a = none) ∧ ∀ r, h.x r = 0

/-- The state after reset meets the invariant, and so does every launch with an aligned RESET_PC (10_state R35), a memory
map of disjoint regions (20_memory R42) and memory in canonical form inside the address space. The values of `State.reset`
are the model's choice (log entries 2, 3, 4). -/
def Obligations.LaunchMeetsInvariant : Prop :=
  State.reset.Inv ∧
  ∀ (c : Isa) (m : MemMap) (p : BitVec c.xlen) (mem : Memory) (regs : Vector (BitVec c.xlen) 31),
    p.toNat % c.instrAlign = 0 → MemMap.wf c m = true → Memory.wf mem = true → (∀ q ∈ mem, q.1 < 2 ^ c.xlen) →
      (State.launch c m p mem regs).Inv

/-! ### The whole machine -/

/-- 10_state R27 and the canonical form of memory: every step keeps the invariant. -/
def Obligations.StepKeepsInvariant : Prop := ∀ s t : State, s.Inv → step s = .next t → t.Inv

/-- No step changes the memory map (60_exceptions R297), nor XLEN and EXT_C, which are parameters of the run (00_scope R6,
30_encoding R70); that they stand in the state at all is log entry 1. -/
def Obligations.StepKeepsMemMap : Prop :=
  ∀ (c : Isa) (h : Hart c) (t : State), step (at' h) = .next t →
    ∃ h' : Hart c, t = at' h' ∧ h'.memMap = h.memMap

/-- 20_memory R41: only the stores write memory, and an instruction that neither loads nor stores does the same whatever
memory holds. -/
def Obligations.OnlyLoadsAndStoresAccessMemory : Prop :=
  ∀ (c : Isa) (h h' : Hart c) (i : Instr), exec i (at' h) = .next (at' h') →
    (isStore i = false → SameMemory h h') ∧
    (isStore i = false → isLoad i = false → ∀ m : Memory,
      exec i (at' { h with mem := m }) = .next (at' { h' with mem := m }))

/-- 60_exceptions R290, R291: a step that traps hands out the state exactly as it was and the address of the instruction. -/
def Obligations.TrapsArePrecise : Prop :=
  ∀ (s : State) (t : Trap), step s = .fault (.trap t) →
    ∃ (cause : Cause) (tval : BitVec s.isa.xlen), t = { cause := cause, state := s, pc := s.hart.pc, tval := tval }

/-- 60_exceptions R290: the environment resumes with the state it chooses or ends the run; a step that completes is not its
business, and the default environment ends every run at its trap. -/
def Obligations.EnvironmentMayResume : Prop :=
  ∀ (handle : Trap → Option State) (s : State),
    (∀ t, step s = .next t → stepWith handle s = .next t) ∧
    (∀ t s', step s = .fault (.trap t) → handle t = some s' → stepWith handle s = .next s') ∧
    (∀ t, step s = .fault (.trap t) → handle t = none → stepWith handle s = .fault (.trap t)) ∧
    stepWith noHandler s = step s

/-- 41_control_transfer R152: with EXT_C = true no step raises InstructionAddressMisaligned. -/
def Obligations.NoMisalignedTargetWithCompressed : Prop :=
  ∀ (s : State) (t : Trap), s.isa.extC = true → s.Inv → step s = .fault (.trap t) →
    t.cause ≠ .instructionAddressMisaligned

/-- 60_exceptions R281: InstructionAddressMisaligned is never raised at fetch, because the pc is always aligned. -/
def Obligations.FetchNeverMisaligned : Prop :=
  ∀ (c : Isa) (h : Hart c) (t : Trap), h.Inv → fetch h = .fault (.trap t) → t.cause = .instructionAccessFault

/-- No word is fetched that holds a byte a store has written (20_memory R58 gives such a fetch no meaning). The form of that
is the model's choice: the fetch that meets such a byte is refused with its address, after the permission of its own parcel
and ahead of everything later (log entry 11), and every stored byte is remembered for the rest of the run (log entry 6). -/
def Obligations.SelfModifiedCodeRefused : Prop :=
  (∀ (c : Isa) (h : Hart c) (w : InstrWord) (k : Nat), fetch h = .next w → k < w.bytes.length →
    h.pc.toNat + k ∉ h.stored) ∧
  (∀ (c : Isa) (h : Hart c), h.pc.toNat % c.instrAlign = 0 → permitted c h.memMap .execute h.pc.toNat 2 = true →
    h.pc.toNat ∈ h.stored → step (at' h) = .refused (.fetchOfStoredByte h.pc.toNat)) ∧
  (∀ (c : Isa) (h h' : Hart c) (a : BitVec c.xlen) (n k : Nat) (v : BitVec (8 * n)),
    memWrite h a n v = .next h' → k < n → a.toNat + k ∈ h'.stored) ∧
  (∀ (s t : State) (a : Nat), step s = .next t → a ∈ s.hart.stored → a ∈ t.hart.stored)

/-- 20_memory R58: where no region is both writable and executable, no step is refused. -/
def Obligations.WriteXorExecuteNeverRefused : Prop :=
  ∀ (s : State) (r : Refusal), s.Inv → MemMap.writeXorExecute s.hart.memMap → step s ≠ .refused r

/-- A machine whose readable and executable bytes the launch state defined, and that separates code from data, always takes
a next state or traps as the spec says, and stays such a machine. The stops it never meets are the model's choice (log entries
5 and 6). -/
def Obligations.LoadedMachineNeverStuck : Prop :=
  ∀ s : State, s.Inv → MemMap.writeXorExecute s.hart.memMap → s.hart.Loaded →
    Result.Defined (step s) ∧
    ∀ t, step s = .next t → t.Inv ∧ MemMap.writeXorExecute t.hart.memMap ∧ t.hart.Loaded

/-! ### Fetch and decode -/

/-- 00_scope R10: when the bytes at the pc decode to an instruction, the step is that instruction's meaning at this state. -/
def Obligations.StepRunsDecodedInstruction : Prop :=
  ∀ (c : Isa) (h : Hart c) (w : InstrWord) (i : Instr), AtPc h w → decode c w = .ok i → step (at' h) = exec i (at' h)

/-- 60_exceptions R282: bits that are no instruction of the configuration trap with those bits, zero-extended. -/
def Obligations.IllegalBitsTrap : Prop :=
  ∀ (c : Isa) (h : Hart c) (w : InstrWord) (e : Reject), fetch h = .next w → decode c w = .error e → StepIllegal h w

/-- 30_encoding R70: with EXT_C = false a parcel whose low bits are not 11 is illegal. -/
def Obligations.ShortParcelIllegalWithoutCompressed : Prop :=
  ∀ (c : Isa) (h : Hart c) (p : Parcel), c.extC = false → isLong p = false → AtPc h (.short p) → StepIllegal h (.short p)

/-- 20_memory R47, R53, 60_exceptions R286: where execution is not permitted the fetch of the first or the second parcel
raises an access fault with the parcel's address; at the top of the address space the second parcel's address is 0. -/
def Obligations.FetchAccessFaults : Prop :=
  ∀ (c : Isa) (h : Hart c), h.pc.toNat % c.instrAlign = 0 →
    (permitted c h.memMap .execute h.pc.toNat 2 = false →
      step (at' h) = .fault (.trap (trapAt h .instructionAccessFault h.pc))) ∧
    (∀ p : Parcel, fetchParcel h h.pc.toNat = .next p → isLong p = true →
      permitted c h.memMap .execute (h.pc.toNat + 2) 2 = false →
        step (at' h) = .fault (.trap (trapAt h .instructionAccessFault (h.pc + 2)))) ∧
    (h.pc.toNat = 2 ^ c.xlen - 2 → permitted c h.memMap .execute (h.pc.toNat + 2) 2 = false ∧ h.pc + 2 = 0)

/-- 20_memory R42: an access is permitted exactly when one region with the permission of its kind (R for a read, W for a
write, X for an instruction fetch) holds all its bytes and it does not run past the top of the address space. -/
def Obligations.PermittedAccesses : Prop :=
  ∀ (c : Isa) (m : MemMap) (k : Access) (a n : Nat), 0 < n →
    (permitted c m k a n = true ↔
      a + n - 1 ≤ 2 ^ c.xlen - 1 ∧ ∃ r ∈ m,
        (k = .read → r.r = true) ∧ (k = .write → r.w = true) ∧ (k = .execute → r.x = true) ∧
        ∀ b, a ≤ b → b ≤ a + n - 1 → r.base ≤ b ∧ b < r.base + r.size)

/-- Decoding the bytes of a well-formed instruction gives it back, with the bytes after it untouched. -/
def Obligations.DecodeUndoesEncode : Prop :=
  ∀ (c : Isa) (i : Instr) (rest : List Byte), i.wf c = true → decodeBytes c (encodeBytes i ++ rest) = .ok (i, rest)

/-- Each word has one meaning: the word of a decoded instruction is the word it was decoded from, and the instruction is
well-formed. A parcel that begins a 32-bit instruction is no word. -/
def Obligations.EncodeUndoesDecode : Prop :=
  ∀ (c : Isa) (w : InstrWord) (i : Instr), decode c w = .ok i → encode i = w ∧ i.wf c = true

/-- 30_encoding R85, R97: a decoded word has the width of its row of the opcode table and the row's pattern under its mask. -/
def Obligations.DecodedWordMatchesTableRow : Prop :=
  ∀ (c : Isa) (w : InstrWord) (i : Instr), decode c w = .ok i →
    (i.tableRow c).admits w = true

/-- 30_encoding R85, 60_exceptions R282: on XLEN = 32 every RV64I-only word is illegal. -/
def Obligations.Rv64OnlyIllegalOnXlen32 : Prop :=
  ∀ (c : Isa) (h : Hart c) (i : Instr), c.xlen = 32 → i.family = .rv64 →
    decode c (encode i) = .error (.notEnabled i) ∧
    Traps h i .illegalInstruction (BitVec.ofNat c.xlen (encode i).bits)

/-- Words of 95_test_vectors, one of each family, decode to the instructions they stand for. -/
def Obligations.SpecWordsDecode : Prop :=
  Word32 .rv32i 0xFFF30293 (.addi 5 6 0xFFF) ∧ Word32 .rv32i 0x407302B3 (.sub 5 6 7) ∧
  Word32 .rv32i 0x40435293 (.srai 5 6 4) ∧ Word32 .rv32i 0x123452B7 (.lui 5 0x12345) ∧
  Word32 .rv32i 0x010000EF (.jal 1 8) ∧ Word32 .rv32i 0xFE629EE3 (.bne 5 6 0xFFE) ∧
  Word32 .rv32i 0x00832283 (.lw 5 6 8) ∧ Word32 .rv32i 0xFE732E23 (.sw 6 7 0xFFC) ∧
  Word32 .rv32i 0x0FF0000F (.fence 0 0 0 0xF 0xF) ∧ Word32 .rv32i 0x00000073 .ecall ∧
  Word32 .rv64i 0x01F3129B (.slliw 5 6 31) ∧ Word32 .rv64i 0x00833283 (.ld 5 6 8) ∧
  Word16 .rv32ic 0x1FE8 (.cAddi4spn 2 0xFF) ∧ Word16 .rv32ic 0x713D (.cAddi16sp 0x3E) ∧
  Word16 .rv32ic 0xBFF5 (.cJ 0x7FE) ∧ Word16 .rv32ic 0xC606 (.cSwsp 1 3)

/-! ### Integer computational instructions -/

/-- 40_integer_computational R121 to R126: the words and results of the register-immediate instructions. -/
def Obligations.RegisterImmediateResults : Prop :=
  ∀ (c : Isa) (h : Hart c) (rd rs1 : RegNum) (imm : BitVec 12),
    Word32 c (imm ++ rs1 ++ 0b000#3 ++ rd ++ 0b0010011#7) (.addi rd rs1 imm) ∧
    Computes h (.addi rd rs1 imm) 4 rd (h.x rs1 + imm.signExtend c.xlen) ∧
    Word32 c (imm ++ rs1 ++ 0b010#3 ++ rd ++ 0b0010011#7) (.slti rd rs1 imm) ∧
    Computes h (.slti rd rs1 imm) 4 rd (if (h.x rs1).toInt < (imm.signExtend c.xlen).toInt then 1 else 0) ∧
    Word32 c (imm ++ rs1 ++ 0b011#3 ++ rd ++ 0b0010011#7) (.sltiu rd rs1 imm) ∧
    Computes h (.sltiu rd rs1 imm) 4 rd (if (h.x rs1).toNat < (imm.signExtend c.xlen).toNat then 1 else 0) ∧
    Word32 c (imm ++ rs1 ++ 0b100#3 ++ rd ++ 0b0010011#7) (.xori rd rs1 imm) ∧
    Computes h (.xori rd rs1 imm) 4 rd (h.x rs1 ^^^ imm.signExtend c.xlen) ∧
    Word32 c (imm ++ rs1 ++ 0b110#3 ++ rd ++ 0b0010011#7) (.ori rd rs1 imm) ∧
    Computes h (.ori rd rs1 imm) 4 rd (h.x rs1 ||| imm.signExtend c.xlen) ∧
    Word32 c (imm ++ rs1 ++ 0b111#3 ++ rd ++ 0b0010011#7) (.andi rd rs1 imm) ∧
    Computes h (.andi rd rs1 imm) 4 rd (h.x rs1 &&& imm.signExtend c.xlen)

/-- 40_integer_computational R127 to R129, 30_encoding R79: the words and results of the shifts by an immediate; an amount of
XLEN or more is reserved and illegal, and so is any other value of the upper bits. -/
def Obligations.ShiftImmediateResults : Prop :=
  ∀ (c : Isa) (h : Hart c) (rd rs1 : RegNum) (shamt : BitVec 6),
    (shamt.toNat < c.xlen →
      Word32 c (0b000000#6 ++ shamt ++ rs1 ++ 0b001#3 ++ rd ++ 0b0010011#7) (.slli rd rs1 shamt) ∧
      Computes h (.slli rd rs1 shamt) 4 rd (h.x rs1 <<< shamt.toNat) ∧
      Word32 c (0b000000#6 ++ shamt ++ rs1 ++ 0b101#3 ++ rd ++ 0b0010011#7) (.srli rd rs1 shamt) ∧
      Computes h (.srli rd rs1 shamt) 4 rd (h.x rs1 >>> shamt.toNat) ∧
      Word32 c (0b010000#6 ++ shamt ++ rs1 ++ 0b101#3 ++ rd ++ 0b0010011#7) (.srai rd rs1 shamt) ∧
      Computes h (.srai rd rs1 shamt) 4 rd ((h.x rs1).sshiftRight shamt.toNat)) ∧
    (c.xlen ≤ shamt.toNat →
      ∀ i ∈ [Instr.slli rd rs1 shamt, .srli rd rs1 shamt, .srai rd rs1 shamt],
        decode c (encode i) = .error (.reserved i) ∧
        Traps h i .illegalInstruction (BitVec.ofNat c.xlen (encode i).bits)) ∧
    ∀ hi : BitVec 6,
      (hi ≠ 0 → NoWord32 c (hi ++ shamt ++ rs1 ++ 0b001#3 ++ rd ++ 0b0010011#7)) ∧
      (hi ≠ 0 → hi ≠ 0b010000 → NoWord32 c (hi ++ shamt ++ rs1 ++ 0b101#3 ++ rd ++ 0b0010011#7))

/-- 40_integer_computational R130, R131: LUI and AUIPC. -/
def Obligations.UpperImmediateResults : Prop :=
  ∀ (c : Isa) (h : Hart c) (rd : RegNum) (imm : BitVec 20),
    Word32 c (imm ++ rd ++ 0b0110111#7) (.lui rd imm) ∧
    Computes h (.lui rd imm) 4 rd ((imm ++ 0#12).signExtend c.xlen) ∧
    Word32 c (imm ++ rd ++ 0b0010111#7) (.auipc rd imm) ∧
    Computes h (.auipc rd imm) 4 rd (h.pc + (imm ++ 0#12).signExtend c.xlen)

/-- 40_integer_computational R132, R133, R135, R136, R137, R140, R141: the register-register instructions but the shifts. -/
def Obligations.RegisterRegisterResults : Prop :=
  ∀ (c : Isa) (h : Hart c) (rd rs1 rs2 : RegNum),
    Word32 c (0b0000000#7 ++ rs2 ++ rs1 ++ 0b000#3 ++ rd ++ 0b0110011#7) (.add rd rs1 rs2) ∧
    Computes h (.add rd rs1 rs2) 4 rd (h.x rs1 + h.x rs2) ∧
    Word32 c (0b0100000#7 ++ rs2 ++ rs1 ++ 0b000#3 ++ rd ++ 0b0110011#7) (.sub rd rs1 rs2) ∧
    Computes h (.sub rd rs1 rs2) 4 rd (h.x rs1 - h.x rs2) ∧
    Word32 c (0b0000000#7 ++ rs2 ++ rs1 ++ 0b010#3 ++ rd ++ 0b0110011#7) (.slt rd rs1 rs2) ∧
    Computes h (.slt rd rs1 rs2) 4 rd (if (h.x rs1).toInt < (h.x rs2).toInt then 1 else 0) ∧
    Word32 c (0b0000000#7 ++ rs2 ++ rs1 ++ 0b011#3 ++ rd ++ 0b0110011#7) (.sltu rd rs1 rs2) ∧
    Computes h (.sltu rd rs1 rs2) 4 rd (if (h.x rs1).toNat < (h.x rs2).toNat then 1 else 0) ∧
    Word32 c (0b0000000#7 ++ rs2 ++ rs1 ++ 0b100#3 ++ rd ++ 0b0110011#7) (.xor rd rs1 rs2) ∧
    Computes h (.xor rd rs1 rs2) 4 rd (h.x rs1 ^^^ h.x rs2) ∧
    Word32 c (0b0000000#7 ++ rs2 ++ rs1 ++ 0b110#3 ++ rd ++ 0b0110011#7) (.or rd rs1 rs2) ∧
    Computes h (.or rd rs1 rs2) 4 rd (h.x rs1 ||| h.x rs2) ∧
    Word32 c (0b0000000#7 ++ rs2 ++ rs1 ++ 0b111#3 ++ rd ++ 0b0110011#7) (.and rd rs1 rs2) ∧
    Computes h (.and rd rs1 rs2) 4 rd (h.x rs1 &&& h.x rs2)

/-- 40_integer_computational R134, R138, R139, R145: the shifts by a register; the amount is x[rs2] modulo XLEN, which is its
low log2(XLEN) bits. -/
def Obligations.RegisterShiftResults : Prop :=
  ∀ (c : Isa) (h : Hart c) (rd rs1 rs2 : RegNum),
    Word32 c (0b0000000#7 ++ rs2 ++ rs1 ++ 0b001#3 ++ rd ++ 0b0110011#7) (.sll rd rs1 rs2) ∧
    Computes h (.sll rd rs1 rs2) 4 rd (h.x rs1 <<< ((h.x rs2).toNat % c.xlen)) ∧
    Word32 c (0b0000000#7 ++ rs2 ++ rs1 ++ 0b101#3 ++ rd ++ 0b0110011#7) (.srl rd rs1 rs2) ∧
    Computes h (.srl rd rs1 rs2) 4 rd (h.x rs1 >>> ((h.x rs2).toNat % c.xlen)) ∧
    Word32 c (0b0100000#7 ++ rs2 ++ rs1 ++ 0b101#3 ++ rd ++ 0b0110011#7) (.sra rd rs1 rs2) ∧
    Computes h (.sra rd rs1 rs2) 4 rd ((h.x rs1).sshiftRight ((h.x rs2).toNat % c.xlen))

/-- 30_encoding R99, R100, 40_integer_computational R142: an integer computational instruction with rd = x0, NOP among them,
and every sixteen-bit HINT of the configuration, changes nothing but the pc. -/
def Obligations.HintsOnlyAdvance : Prop :=
  ∀ (c : Isa) (h : Hart c) (i : Instr), Word32 c 0x00000013 (.addi 0 0 0) ∧
    (i.wf c = true → isHint32 i = true ∨ isHint16 i = true →
      exec i (at' h) = .next (at' { h with pc := h.pc + BitVec.ofNat c.xlen i.length }))

/-! ### RV64I word instructions -/

/-- 44_rv64i_word R202 to R205: the W instructions with an immediate; other upper bits of a shift are no instruction. -/
def Obligations.WordImmediateResults : Prop :=
  ∀ (h : Hart .rv64i) (rd rs1 : RegNum) (imm : BitVec 12) (shamt : BitVec 5),
    Word32 .rv64i (imm ++ rs1 ++ 0b000#3 ++ rd ++ 0b0011011#7) (.addiw rd rs1 imm) ∧
    Computes h (.addiw rd rs1 imm) 4 rd (((h.x rs1 + imm.signExtend 64).extractLsb' 0 32).signExtend 64) ∧
    Word32 .rv64i (0b0000000#7 ++ shamt ++ rs1 ++ 0b001#3 ++ rd ++ 0b0011011#7) (.slliw rd rs1 shamt) ∧
    Computes h (.slliw rd rs1 shamt) 4 rd (((h.x rs1).extractLsb' 0 32 <<< shamt.toNat).signExtend 64) ∧
    Word32 .rv64i (0b0000000#7 ++ shamt ++ rs1 ++ 0b101#3 ++ rd ++ 0b0011011#7) (.srliw rd rs1 shamt) ∧
    Computes h (.srliw rd rs1 shamt) 4 rd (((h.x rs1).extractLsb' 0 32 >>> shamt.toNat).signExtend 64) ∧
    Word32 .rv64i (0b0100000#7 ++ shamt ++ rs1 ++ 0b101#3 ++ rd ++ 0b0011011#7) (.sraiw rd rs1 shamt) ∧
    Computes h (.sraiw rd rs1 shamt) 4 rd ((((h.x rs1).extractLsb' 0 32).sshiftRight shamt.toNat).signExtend 64) ∧
    ∀ hi : BitVec 7,
      (hi ≠ 0 → NoWord32 .rv64i (hi ++ shamt ++ rs1 ++ 0b001#3 ++ rd ++ 0b0011011#7)) ∧
      (hi ≠ 0 → hi ≠ 0b0100000 → NoWord32 .rv64i (hi ++ shamt ++ rs1 ++ 0b101#3 ++ rd ++ 0b0011011#7))

/-- 44_rv64i_word R206 to R210: the W instructions on two registers; a shift amount is x[rs2] modulo 32, its low five bits. -/
def Obligations.WordRegisterResults : Prop :=
  ∀ (h : Hart .rv64i) (rd rs1 rs2 : RegNum),
    Word32 .rv64i (0b0000000#7 ++ rs2 ++ rs1 ++ 0b000#3 ++ rd ++ 0b0111011#7) (.addw rd rs1 rs2) ∧
    Computes h (.addw rd rs1 rs2) 4 rd (((h.x rs1 + h.x rs2).extractLsb' 0 32).signExtend 64) ∧
    Word32 .rv64i (0b0100000#7 ++ rs2 ++ rs1 ++ 0b000#3 ++ rd ++ 0b0111011#7) (.subw rd rs1 rs2) ∧
    Computes h (.subw rd rs1 rs2) 4 rd (((h.x rs1 - h.x rs2).extractLsb' 0 32).signExtend 64) ∧
    Word32 .rv64i (0b0000000#7 ++ rs2 ++ rs1 ++ 0b001#3 ++ rd ++ 0b0111011#7) (.sllw rd rs1 rs2) ∧
    Computes h (.sllw rd rs1 rs2) 4 rd
      (((h.x rs1).extractLsb' 0 32 <<< ((h.x rs2).toNat % 32)).signExtend 64) ∧
    Word32 .rv64i (0b0000000#7 ++ rs2 ++ rs1 ++ 0b101#3 ++ rd ++ 0b0111011#7) (.srlw rd rs1 rs2) ∧
    Computes h (.srlw rd rs1 rs2) 4 rd
      (((h.x rs1).extractLsb' 0 32 >>> ((h.x rs2).toNat % 32)).signExtend 64) ∧
    Word32 .rv64i (0b0100000#7 ++ rs2 ++ rs1 ++ 0b101#3 ++ rd ++ 0b0111011#7) (.sraw rd rs1 rs2) ∧
    Computes h (.sraw rd rs1 rs2) 4 rd
      ((((h.x rs1).extractLsb' 0 32).sshiftRight ((h.x rs2).toNat % 32)).signExtend 64)

/-- 44_rv64i_word R200: a W instruction ignores the upper 32 bits of its inputs, bits 63 to 31 of its result are equal, and it
does nothing else. -/
def Obligations.WordResultsSignedAndLowOnly : Prop :=
  ∀ (h g : Hart .rv64i) (i : Instr) (rd rs1 rs2 : RegNum), wOperands i = some (rd, rs1, rs2) →
    (h.x rs1).extractLsb' 0 32 = (g.x rs1).extractLsb' 0 32 →
    (h.x rs2).extractLsb' 0 32 = (g.x rs2).extractLsb' 0 32 →
    ∃ v : BitVec 64, Computes h i 4 rd v ∧ Computes g i 4 rd v ∧ ∀ k, 31 ≤ k → k ≤ 63 → v.getLsbD k = v.getLsbD 63

/-! ### Control transfer -/

/-- 41_control_transfer R153, R152: JAL. -/
def Obligations.JalJumps : Prop :=
  ∀ (c : Isa) (h : Hart c) (rd : RegNum) (imm : BitVec 20),
    Word32 c (imm.extractLsb' 19 1 ++ imm.extractLsb' 0 10 ++ imm.extractLsb' 10 1 ++ imm.extractLsb' 11 8 ++ rd ++
      0b1101111#7) (.jal rd imm) ∧
    Jumps h (.jal rd imm) 4 rd (h.pc + (imm ++ 0#1).signExtend c.xlen)

/-- 41_control_transfer R154, R152: JALR; x[rs1] is the value before rd is written, bit 0 of the sum is cleared; any other
funct3 is no instruction. -/
def Obligations.JalrJumps : Prop :=
  ∀ (c : Isa) (h : Hart c) (rd rs1 : RegNum) (imm : BitVec 12),
    Word32 c (imm ++ rs1 ++ 0b000#3 ++ rd ++ 0b1100111#7) (.jalr rd rs1 imm) ∧
    Jumps h (.jalr rd rs1 imm) 4 rd ((h.x rs1 + imm.signExtend c.xlen) &&& ~~~1) ∧
    ∀ f3 : BitVec 3, f3 ≠ 0 → NoWord32 c (imm ++ rs1 ++ f3 ++ rd ++ 0b1100111#7)

/-- 41_control_transfer R155 to R160, R162, R152: the six conditional branches; funct3 010 and 011 are no instruction. -/
def Obligations.ConditionalBranches : Prop :=
  ∀ (c : Isa) (h : Hart c) (rs1 rs2 : RegNum) (imm : BitVec 12),
    let t := h.pc + (imm ++ 0#1).signExtend c.xlen
    let word := fun f3 : BitVec 3 =>
      imm.extractLsb' 11 1 ++ imm.extractLsb' 4 6 ++ rs2 ++ rs1 ++ f3 ++ imm.extractLsb' 0 4 ++ imm.extractLsb' 10 1 ++
        0b1100011#7
    Word32 c (word 0b000) (.beq rs1 rs2 imm) ∧ Branches h (.beq rs1 rs2 imm) 4 (h.x rs1 = h.x rs2) t ∧
    Word32 c (word 0b001) (.bne rs1 rs2 imm) ∧ Branches h (.bne rs1 rs2 imm) 4 (h.x rs1 ≠ h.x rs2) t ∧
    Word32 c (word 0b100) (.blt rs1 rs2 imm) ∧
    Branches h (.blt rs1 rs2 imm) 4 ((h.x rs1).toInt < (h.x rs2).toInt) t ∧
    Word32 c (word 0b101) (.bge rs1 rs2 imm) ∧
    Branches h (.bge rs1 rs2 imm) 4 ((h.x rs1).toInt ≥ (h.x rs2).toInt) t ∧
    Word32 c (word 0b110) (.bltu rs1 rs2 imm) ∧
    Branches h (.bltu rs1 rs2 imm) 4 ((h.x rs1).toNat < (h.x rs2).toNat) t ∧
    Word32 c (word 0b111) (.bgeu rs1 rs2 imm) ∧
    Branches h (.bgeu rs1 rs2 imm) 4 ((h.x rs1).toNat ≥ (h.x rs2).toNat) t ∧
    NoWord32 c (word 0b010) ∧ NoWord32 c (word 0b011)

/-! ### Loads and stores -/

/-- 42_load_store R172 to R174, R170, R171: LB, LH, LW sign-extend. -/
def Obligations.SignedLoads : Prop :=
  ∀ (c : Isa) (h : Hart c) (rd rs1 : RegNum) (imm : BitVec 12),
    let a := h.x rs1 + imm.signExtend c.xlen
    Word32 c (imm ++ rs1 ++ 0b000#3 ++ rd ++ 0b0000011#7) (.lb rd rs1 imm) ∧
    Loads h (.lb rd rs1 imm) 4 a 1 rd (fun v => v.signExtend c.xlen) ∧
    Word32 c (imm ++ rs1 ++ 0b001#3 ++ rd ++ 0b0000011#7) (.lh rd rs1 imm) ∧
    Loads h (.lh rd rs1 imm) 4 a 2 rd (fun v => v.signExtend c.xlen) ∧
    Word32 c (imm ++ rs1 ++ 0b010#3 ++ rd ++ 0b0000011#7) (.lw rd rs1 imm) ∧
    Loads h (.lw rd rs1 imm) 4 a 4 rd (fun v => v.signExtend c.xlen)

/-- 42_load_store R175, R176, R170, R171: LBU and LHU zero-extend. -/
def Obligations.UnsignedLoads : Prop :=
  ∀ (c : Isa) (h : Hart c) (rd rs1 : RegNum) (imm : BitVec 12),
    let a := h.x rs1 + imm.signExtend c.xlen
    Word32 c (imm ++ rs1 ++ 0b100#3 ++ rd ++ 0b0000011#7) (.lbu rd rs1 imm) ∧
    Loads h (.lbu rd rs1 imm) 4 a 1 rd (fun v => v.zeroExtend c.xlen) ∧
    Word32 c (imm ++ rs1 ++ 0b101#3 ++ rd ++ 0b0000011#7) (.lhu rd rs1 imm) ∧
    Loads h (.lhu rd rs1 imm) 4 a 2 rd (fun v => v.zeroExtend c.xlen)

/-- 42_load_store R177, R178, R170, R171: LWU zero-extends four bytes, LD loads eight; XLEN = 64, illegal on XLEN = 32. -/
def Obligations.Rv64Loads : Prop :=
  (∀ (h : Hart .rv64i) (rd rs1 : RegNum) (imm : BitVec 12),
    let a := h.x rs1 + imm.signExtend 64
    Word32 .rv64i (imm ++ rs1 ++ 0b110#3 ++ rd ++ 0b0000011#7) (.lwu rd rs1 imm) ∧
    Loads h (.lwu rd rs1 imm) 4 a 4 rd (fun v => v.zeroExtend 64) ∧
    Word32 .rv64i (imm ++ rs1 ++ 0b011#3 ++ rd ++ 0b0000011#7) (.ld rd rs1 imm) ∧
    Loads h (.ld rd rs1 imm) 4 a 8 rd (fun v => v)) ∧
  (∀ (c : Isa) (rd rs1 : RegNum) (imm : BitVec 12), c.xlen = 32 →
    NoWord32 c (imm ++ rs1 ++ 0b110#3 ++ rd ++ 0b0000011#7) ∧ NoWord32 c (imm ++ rs1 ++ 0b011#3 ++ rd ++ 0b0000011#7))

/-- 42_load_store R179 to R182, R170, R171: the stores; SD is illegal on XLEN = 32. -/
def Obligations.StoresWriteLowBytes : Prop :=
  (∀ (c : Isa) (h : Hart c) (rs1 rs2 : RegNum) (imm : BitVec 12),
    let a := h.x rs1 + imm.signExtend c.xlen
    let word := fun f3 : BitVec 3 =>
      imm.extractLsb' 5 7 ++ rs2 ++ rs1 ++ f3 ++ imm.extractLsb' 0 5 ++ 0b0100011#7
    Word32 c (word 0b000) (.sb rs1 rs2 imm) ∧ Stores h (.sb rs1 rs2 imm) 4 a 1 (h.x rs2) ∧
    Word32 c (word 0b001) (.sh rs1 rs2 imm) ∧ Stores h (.sh rs1 rs2 imm) 4 a 2 (h.x rs2) ∧
    Word32 c (word 0b010) (.sw rs1 rs2 imm) ∧ Stores h (.sw rs1 rs2 imm) 4 a 4 (h.x rs2) ∧
    (c.xlen = 32 → NoWord32 c (word 0b011))) ∧
  (∀ (h : Hart .rv64i) (rs1 rs2 : RegNum) (imm : BitVec 12),
    Word32 .rv64i (imm.extractLsb' 5 7 ++ rs2 ++ rs1 ++ 0b011#3 ++ imm.extractLsb' 0 5 ++ 0b0100011#7) (.sd rs1 rs2 imm) ∧
    Stores h (.sd rs1 rs2 imm) 4 (h.x rs1 + imm.signExtend 64) 8 (h.x rs2))

/-- 20_memory R52, 10_state R21: a load with destination x0 stops exactly where and as the same load with any other
destination stops, and otherwise completes with nothing changed but the pc. -/
def Obligations.LoadToX0StillChecks : Prop :=
  ∀ (c : Isa) (h : Hart c) (rd rs1 : RegNum) (imm : BitVec 12) (p : Instr × Instr),
    p ∈ [(Instr.lb 0 rs1 imm, Instr.lb rd rs1 imm), (.lh 0 rs1 imm, .lh rd rs1 imm), (.lw 0 rs1 imm, .lw rd rs1 imm),
        (.lbu 0 rs1 imm, .lbu rd rs1 imm), (.lhu 0 rs1 imm, .lhu rd rs1 imm)] ∨
      (c.xlen = 64 ∧ p ∈ [(Instr.lwu 0 rs1 imm, Instr.lwu rd rs1 imm), (.ld 0 rs1 imm, .ld rd rs1 imm)]) →
    (∀ e, exec p.1 (at' h) = .fault e ↔ exec p.2 (at' h) = .fault e) ∧
    (∀ h' : Hart c, exec p.2 (at' h) = .next (at' h') →
      exec p.1 (at' h) = .next (at' { h with pc := h.pc + BitVec.ofNat c.xlen 4 }))

/-- Every load stops at the lowest of its bytes that neither the launch state nor a store has defined, whatever its
destination: the byte holds no value (10_state R36); that the model faults there, and names that byte, is its choice (log
entry 5). -/
def Obligations.UndefinedByteStopsLoad : Prop :=
  (∀ (c : Isa) (h : Hart c) (rd rs1 : RegNum) (imm : BitVec 12),
    let a := h.x rs1 + imm.signExtend c.xlen
    StopsAtUndefinedByte h (.lb rd rs1 imm) a 1 ∧ StopsAtUndefinedByte h (.lh rd rs1 imm) a 2 ∧
    StopsAtUndefinedByte h (.lw rd rs1 imm) a 4 ∧ StopsAtUndefinedByte h (.lbu rd rs1 imm) a 1 ∧
    StopsAtUndefinedByte h (.lhu rd rs1 imm) a 2) ∧
  (∀ (h : Hart .rv64i) (rd rs1 : RegNum) (imm : BitVec 12),
    let a := h.x rs1 + imm.signExtend 64
    StopsAtUndefinedByte h (.lwu rd rs1 imm) a 4 ∧ StopsAtUndefinedByte h (.ld rd rs1 imm) a 8) ∧
  (∀ (h : Hart .rv32ic) (rd : RegNum) (rd' rs1' : RegNum3) (u : BitVec 5) (v : BitVec 6),
    StopsAtUndefinedByte h (.cLw rd' rs1' u) (h.x (0b01#2 ++ rs1') + (u ++ 0#2).zeroExtend 32) 4 ∧
    (rd ≠ 0 → StopsAtUndefinedByte h (.cLwsp rd v) (h.x 2 + (v ++ 0#2).zeroExtend 32) 4))

/-- 20_memory R43, R44: after a store of n bytes, a load of any m of them that may be read returns those bytes of the value,
the lowest address the least significant: mixed widths see bytes, not words. -/
def Obligations.ByteOrderIsLittleEndian : Prop :=
  ∀ (c : Isa) (h h' : Hart c) (a : BitVec c.xlen) (n k m : Nat) (v : BitVec (8 * n)),
    memWrite h a n v = .next h' → 0 < m → k + m ≤ n → (a.toNat + k) % m = 0 →
    permitted c h'.memMap .read (a.toNat + k) m = true →
      memRead h' (a + BitVec.ofNat c.xlen k) m = .next (v.extractLsb' (8 * k) (8 * m))

/-! ### FENCE, ECALL, EBREAK -/

/-- 43_fence_system R190, 20_memory R57: FENCE with any operands changes nothing but the pc; any other funct3 is no
instruction. -/
def Obligations.FenceOnlyAdvances : Prop :=
  ∀ (c : Isa) (h : Hart c) (rd rs1 : RegNum) (fm pred succ : BitVec 4),
    Word32 c (fm ++ pred ++ succ ++ rs1 ++ 0b000#3 ++ rd ++ 0b0001111#7) (.fence rd rs1 fm pred succ) ∧
    exec (.fence rd rs1 fm pred succ) (at' h) = .next (at' { h with pc := h.pc + BitVec.ofNat c.xlen 4 }) ∧
    ∀ f3 : BitVec 3, f3 ≠ 0 → NoWord32 c (fm ++ pred ++ succ ++ rs1 ++ f3 ++ rd ++ 0b0001111#7)

/-- 43_fence_system R191, R192, 45_compressed R258, 60_exceptions R283, R284: ECALL, EBREAK and c.ebreak always trap, with the
state unchanged, and no other instruction raises an environment call or a breakpoint. -/
def Obligations.RequestedTraps : Prop :=
  (∀ (c : Isa) (h : Hart c),
    Word32 c 0x00000073 .ecall ∧ Traps h .ecall .environmentCall 0 ∧
    Word32 c 0x00100073 .ebreak ∧ Traps h .ebreak .breakpoint h.pc) ∧
  (∀ h : Hart .rv32ic, Word16 .rv32ic 0x9002 .cEbreak ∧ Traps h .cEbreak .breakpoint h.pc) ∧
  (∀ (s : State) (t : Trap) (i : Instr), exec i s = .fault (.trap t) →
    (t.cause = .environmentCall → i = .ecall) ∧ (t.cause = .breakpoint → i = .ebreak ∨ i = .cEbreak))

/-! ### Sixteen-bit instructions, EXT_C = true -/

/-- 45_compressed R223, R230: the words and results of c.addi4spn and c.addi16sp. -/
def Obligations.CompressedStackPointerResults : Prop :=
  ∀ (h : Hart .rv32ic) (rd' : RegNum3) (u : BitVec 8) (n : BitVec 6),
    (u ≠ 0 →
      Word16 .rv32ic (0b000#3 ++ u.extractLsb' 2 2 ++ u.extractLsb' 4 4 ++ u.extractLsb' 0 1 ++ u.extractLsb' 1 1 ++ rd' ++
        0b00#2) (.cAddi4spn rd' u) ∧
      Computes h (.cAddi4spn rd' u) 2 (0b01#2 ++ rd') (h.x 2 + (u ++ 0#2).zeroExtend 32)) ∧
    (n ≠ 0 →
      Word16 .rv32ic (0b011#3 ++ n.extractLsb' 5 1 ++ 0b00010#5 ++ n.extractLsb' 0 1 ++ n.extractLsb' 2 1 ++
        n.extractLsb' 3 2 ++ n.extractLsb' 1 1 ++ 0b01#2) (.cAddi16sp n) ∧
      Computes h (.cAddi16sp n) 2 2 (h.x 2 + (n ++ 0#4).signExtend 32))

/-- 45_compressed R226, R227, R229, R231, R234: the words and results of c.nop, c.addi, c.li, c.lui, c.andi. -/
def Obligations.CompressedImmediateResults : Prop :=
  ∀ (h : Hart .rv32ic) (rd : RegNum) (rd' : RegNum3) (imm : BitVec 6),
    let ci := fun (f3 : BitVec 3) (r : RegNum) => f3 ++ imm.extractLsb' 5 1 ++ r ++ imm.extractLsb' 0 5 ++ 0b01#2
    Word16 .rv32ic (ci 0b000 0) (.cNop imm) ∧ Computes h (.cNop imm) 2 0 0 ∧
    (rd ≠ 0 →
      Word16 .rv32ic (ci 0b000 rd) (.cAddi rd imm) ∧ Computes h (.cAddi rd imm) 2 rd (h.x rd + imm.signExtend 32)) ∧
    Word16 .rv32ic (ci 0b010 rd) (.cLi rd imm) ∧ Computes h (.cLi rd imm) 2 rd (imm.signExtend 32) ∧
    (rd ≠ 2 → imm ≠ 0 →
      Word16 .rv32ic (ci 0b011 rd) (.cLui rd imm) ∧
      Computes h (.cLui rd imm) 2 rd ((imm ++ 0#12).signExtend 32)) ∧
    Word16 .rv32ic (0b100#3 ++ imm.extractLsb' 5 1 ++ 0b10#2 ++ rd' ++ imm.extractLsb' 0 5 ++ 0b01#2) (.cAndi rd' imm) ∧
    Computes h (.cAndi rd' imm) 2 (0b01#2 ++ rd') (h.x (0b01#2 ++ rd') &&& imm.signExtend 32)

/-- 45_compressed R232, R233, R246: the words and results of c.srli, c.srai, c.slli, c.slli64. -/
def Obligations.CompressedShiftResults : Prop :=
  ∀ (h : Hart .rv32ic) (rd : RegNum) (rd' : RegNum3) (sh : BitVec 5),
    let shamt : BitVec 6 := 0#1 ++ sh
    Word16 .rv32ic (0b100#3 ++ 0#1 ++ 0b00#2 ++ rd' ++ sh ++ 0b01#2) (.cSrli rd' shamt) ∧
    Computes h (.cSrli rd' shamt) 2 (0b01#2 ++ rd') (h.x (0b01#2 ++ rd') >>> sh.toNat) ∧
    Word16 .rv32ic (0b100#3 ++ 0#1 ++ 0b01#2 ++ rd' ++ sh ++ 0b01#2) (.cSrai rd' shamt) ∧
    Computes h (.cSrai rd' shamt) 2 (0b01#2 ++ rd') ((h.x (0b01#2 ++ rd')).sshiftRight sh.toNat) ∧
    (sh ≠ 0 →
      Word16 .rv32ic (0b000#3 ++ 0#1 ++ rd ++ sh ++ 0b10#2) (.cSlli rd shamt) ∧
      Computes h (.cSlli rd shamt) 2 rd (h.x rd <<< sh.toNat)) ∧
    Word16 .rv32ic (0b000#3 ++ 0#1 ++ rd ++ 0#5 ++ 0b10#2) (.cSlli64 rd) ∧
    Computes h (.cSlli64 rd) 2 rd (h.x rd)

/-- 45_compressed R235 to R238, R249, R260: the words and results of c.sub, c.xor, c.or, c.and, c.mv, c.add. -/
def Obligations.CompressedRegisterResults : Prop :=
  ∀ (h : Hart .rv32ic) (rd rs2 : RegNum) (rd' rs2' : RegNum3),
    let d : RegNum := 0b01#2 ++ rd'
    let s : RegNum := 0b01#2 ++ rs2'
    let ca := fun f2 : BitVec 2 => 0b100#3 ++ 0#1 ++ 0b11#2 ++ rd' ++ f2 ++ rs2' ++ 0b01#2
    Word16 .rv32ic (ca 0b00) (.cSub rd' rs2') ∧ Computes h (.cSub rd' rs2') 2 d (h.x d - h.x s) ∧
    Word16 .rv32ic (ca 0b01) (.cXor rd' rs2') ∧ Computes h (.cXor rd' rs2') 2 d (h.x d ^^^ h.x s) ∧
    Word16 .rv32ic (ca 0b10) (.cOr rd' rs2') ∧ Computes h (.cOr rd' rs2') 2 d (h.x d ||| h.x s) ∧
    Word16 .rv32ic (ca 0b11) (.cAnd rd' rs2') ∧ Computes h (.cAnd rd' rs2') 2 d (h.x d &&& h.x s) ∧
    (rs2 ≠ 0 →
      Word16 .rv32ic (0b1000#4 ++ rd ++ rs2 ++ 0b10#2) (.cMv rd rs2) ∧ Computes h (.cMv rd rs2) 2 rd (h.x rs2) ∧
      Word16 .rv32ic (0b1001#4 ++ rd ++ rs2 ++ 0b10#2) (.cAdd rd rs2) ∧
      Computes h (.cAdd rd rs2) 2 rd (h.x rd + h.x rs2))

/-- 45_compressed R224, R247: the words, results and exceptions of c.lw and c.lwsp. -/
def Obligations.CompressedLoads : Prop :=
  ∀ (h : Hart .rv32ic) (rd : RegNum) (rd' rs1' : RegNum3) (u : BitVec 5) (v : BitVec 6),
    let a := h.x (0b01#2 ++ rs1') + (u ++ 0#2).zeroExtend 32
    let b := h.x 2 + (v ++ 0#2).zeroExtend 32
    Word16 .rv32ic (0b010#3 ++ u.extractLsb' 1 3 ++ rs1' ++ u.extractLsb' 0 1 ++ u.extractLsb' 4 1 ++ rd' ++ 0b00#2)
      (.cLw rd' rs1' u) ∧
    Loads h (.cLw rd' rs1' u) 2 a 4 (0b01#2 ++ rd') (fun w => w) ∧
    (rd ≠ 0 →
      Word16 .rv32ic (0b010#3 ++ v.extractLsb' 3 1 ++ rd ++ v.extractLsb' 0 3 ++ v.extractLsb' 4 2 ++ 0b10#2)
        (.cLwsp rd v) ∧
      Loads h (.cLwsp rd v) 2 b 4 rd (fun w => w))

/-- 45_compressed R225, R261: the words, effects and exceptions of c.sw and c.swsp. -/
def Obligations.CompressedStores : Prop :=
  ∀ (h : Hart .rv32ic) (rs2 : RegNum) (rs2' rs1' : RegNum3) (u : BitVec 5) (v : BitVec 6),
    let a := h.x (0b01#2 ++ rs1') + (u ++ 0#2).zeroExtend 32
    let b := h.x 2 + (v ++ 0#2).zeroExtend 32
    Word16 .rv32ic (0b110#3 ++ u.extractLsb' 1 3 ++ rs1' ++ u.extractLsb' 0 1 ++ u.extractLsb' 4 1 ++ rs2' ++ 0b00#2)
      (.cSw rs1' rs2' u) ∧
    Stores h (.cSw rs1' rs2' u) 2 a 4 (h.x (0b01#2 ++ rs2')) ∧
    Word16 .rv32ic (0b110#3 ++ v.extractLsb' 0 4 ++ v.extractLsb' 4 2 ++ rs2 ++ 0b10#2) (.cSwsp rs2 v) ∧
    Stores h (.cSwsp rs2 v) 2 b 4 (h.x rs2)

/-- 45_compressed R228, R239, R248, R259: the words of c.jal, c.j, c.jr, c.jalr; they complete from every state with an even
pc, a link being the address two bytes on. -/
def Obligations.CompressedJumps : Prop :=
  ∀ (h : Hart .rv32ic) (rs1 : RegNum) (j : BitVec 11), h.pc.toNat % 2 = 0 →
    let cj := fun f3 : BitVec 3 =>
      f3 ++ j.extractLsb' 10 1 ++ j.extractLsb' 3 1 ++ j.extractLsb' 7 2 ++ j.extractLsb' 9 1 ++ j.extractLsb' 5 1 ++
        j.extractLsb' 6 1 ++ j.extractLsb' 0 3 ++ j.extractLsb' 4 1 ++ 0b01#2
    let Goes := fun (i : Instr) (rd : RegNum) (t : BitVec 32) =>
      ∃ h' : Hart .rv32ic, exec i (at' h) = .next (at' h') ∧ WritesOnly h h' rd (h.pc + 2) ∧ h'.pc = t ∧ SameMemory h h'
    Word16 .rv32ic (cj 0b001) (.cJal j) ∧ Goes (.cJal j) 1 (h.pc + (j ++ 0#1).signExtend 32) ∧
    Word16 .rv32ic (cj 0b101) (.cJ j) ∧ Goes (.cJ j) 0 (h.pc + (j ++ 0#1).signExtend 32) ∧
    (rs1 ≠ 0 →
      Word16 .rv32ic (0b1000#4 ++ rs1 ++ 0#5 ++ 0b10#2) (.cJr rs1) ∧ Goes (.cJr rs1) 0 (h.x rs1 &&& ~~~1) ∧
      Word16 .rv32ic (0b1001#4 ++ rs1 ++ 0#5 ++ 0b10#2) (.cJalr rs1) ∧ Goes (.cJalr rs1) 1 (h.x rs1 &&& ~~~1))

/-- 45_compressed R240, R241: the words of c.beqz and c.bnez; they complete from every state with an even pc. -/
def Obligations.CompressedBranches : Prop :=
  ∀ (h : Hart .rv32ic) (rs1' : RegNum3) (b : BitVec 8), h.pc.toNat % 2 = 0 →
    let cb := fun f3 : BitVec 3 =>
      f3 ++ b.extractLsb' 7 1 ++ b.extractLsb' 2 2 ++ rs1' ++ b.extractLsb' 5 2 ++ b.extractLsb' 0 2 ++
        b.extractLsb' 4 1 ++ 0b01#2
    let Goes := fun (i : Instr) (t : BitVec 32) =>
      ∃ h' : Hart .rv32ic, exec i (at' h) = .next (at' h') ∧ (∀ r, h'.x r = h.x r) ∧ h'.pc = t ∧ SameMemory h h'
    let target := h.pc + (b ++ 0#1).signExtend 32
    Word16 .rv32ic (cb 0b110) (.cBeqz rs1' b) ∧
    Goes (.cBeqz rs1' b) (if h.x (0b01#2 ++ rs1') = 0 then target else h.pc + 2) ∧
    Word16 .rv32ic (cb 0b111) (.cBnez rs1' b) ∧
    Goes (.cBnez rs1' b) (if h.x (0b01#2 ++ rs1') ≠ 0 then target else h.pc + 2)

/-- 45_compressed R262: each of the eight floating-point rows is in the decoder and always raises IllegalInstruction with its
sixteen bits. -/
def Obligations.FloatingPointRowsIllegal : Prop :=
  ∀ (h : Hart .rv32ic) (i : Instr), isFloatRow i = true →
    decode .rv32ic (encode i) = .ok i ∧ Traps h i .illegalInstruction (BitVec.ofNat 32 (encode i).bits)

/-- 30_encoding R98: the all-zero word and every reserved sixteen-bit encoding raise IllegalInstruction with the parcel. -/
def Obligations.ReservedParcelsIllegal : Prop :=
  ∀ (h : Hart .rv32ic) (p : Parcel), AtPc h (.short p) →
    (p = 0 ∨
     (p.extractLsb' 0 2 = 0b00 ∧ p.extractLsb' 13 3 = 0b000 ∧ p.extractLsb' 5 8 = 0) ∨
     (p.extractLsb' 0 2 = 0b00 ∧ p.extractLsb' 13 3 = 0b100) ∨
     (p.extractLsb' 0 2 = 0b01 ∧ p.extractLsb' 13 3 = 0b011 ∧ p.extractLsb' 12 1 = 0 ∧ p.extractLsb' 2 5 = 0) ∨
     (p.extractLsb' 0 2 = 0b01 ∧ p.extractLsb' 10 6 = 0b100111) ∨
     (p.extractLsb' 0 2 = 0b10 ∧ p.extractLsb' 13 3 = 0b010 ∧ p.extractLsb' 7 5 = 0) ∨
     p = 0x8002 ∨
     (p.extractLsb' 0 2 = 0b10 ∧ p.extractLsb' 12 4 = 0b0001) ∨
     (p.extractLsb' 0 2 = 0b01 ∧ p.extractLsb' 12 4 = 0b1001 ∧ p.extractLsb' 11 1 = 0)) →
    StepIllegal h (.short p)

/-- The all-zero row of the table raises IllegalInstruction with recorded value 0 (30_encoding R98). -/
def Obligations.IllegalRowTraps : Prop :=
  ∀ h : Hart .rv32ic, Word16 .rv32ic 0x0000 .cIllegal ∧ Traps h .cIllegal .illegalInstruction 0

/-- 45_compressed R220, R221, R263: a well-formed sixteen-bit instruction does what its base instruction does at the same
state, but for the length 2: the same trap, or the same next state with the link and the sequential pc two bytes on. -/
def Obligations.CompressedIsItsExpansion : Prop :=
  ∀ (h : Hart .rv32ic) (i base : Instr), i.wf .rv32ic = true → expansion i = some base →
    (∀ e, exec base (at' h) = .fault e → exec i (at' h) = .fault e) ∧
    (∀ t : Hart .rv32ic, exec base (at' h) = .next (at' t) → exec i (at' h) = .next (at' (withLengthTwo h base t)))

/-! ### Spellings and the multicycle machine -/

/-- 30_encoding R103: the two-instruction spelling of `li` leaves the immediate in rd, on XLEN = 32. -/
def Obligations.LoadImmediateSpelling : Prop :=
  ∀ (h : Hart .rv32i) (rd : RegNum) (imm : BitVec 32), rd ≠ 0 →
    (lo12 imm = 0 → (Pseudo.li rd imm).expand = [.lui rd (hi20 imm)] ∧
      ∃ h' : Hart .rv32i, exec (.lui rd (hi20 imm)) (at' h) = .next (at' h') ∧ h'.x rd = imm) ∧
    (lo12 imm ≠ 0 → (Pseudo.li rd imm).expand = [.lui rd (hi20 imm), .addi rd rd (lo12 imm)] ∧
      ∃ h' h'' : Hart .rv32i, exec (.lui rd (hi20 imm)) (at' h) = .next (at' h') ∧
        exec (.addi rd rd (lo12 imm)) (at' h') = .next (at' h'') ∧ h''.x rd = imm)

/-- 70_reset_and_hazards R330, R331: from Fetch, with its own registers holding anything, the multicycle machine runs an
instruction of its six classes in the class's cycles, is back in Fetch only then, and leaves the hart as `step` does. That the
shifts by an immediate are in the I-type class, and that the machine has no next state at an exception, is the model's choice
(log entry 10). -/
def Obligations.MulticycleRefinesStep : Prop :=
  ∀ (h h' : Hart .rv32i) (w : BitVec 32) (i : Instr) (k : Multicycle.Control) (o n d a : BitVec 32),
    fetch h = .next (.long w) → decode .rv32i (.long w) = .ok i → Multicycle.control i = some k →
    step (at' h) = .next (at' h') →
      (∃ m, Multicycle.ticks k.cls.cycles (Multicycle.start h o n d a) = some m ∧ m.phase = .fetch ∧ m.hart = h') ∧
      ∀ j, 0 < j → j < k.cls.cycles →
        ∃ m, Multicycle.ticks j (Multicycle.start h o n d a) = some m ∧ m.phase ≠ .fetch
end

