-- ==== Sys2Proof/Laws/Decode.lean ====
section
/-! SUPPORT. The fields that the decoder reads from an encoded word are the fields the encoder put there: one lemma per
format of spec/30_encoding.md. -/

namespace Sys2Proof

theorem toNat_cat {m n : Nat} (x : BitVec m) (y : BitVec n) : (x ++ y).toNat = x.toNat * 2 ^ n + y.toNat := by
  rw [BitVec.toNat_append, Nat.shiftLeft_eq, Nat.mul_comm x.toNat, Nat.two_pow_add_eq_or_of_lt y.isLt x.toNat]

theorem toNat_slice {n : Nat} (x : BitVec n) (s l : Nat) : (x.extractLsb' s l).toNat = x.toNat / 2 ^ s % 2 ^ l := by
  simp [Nat.shiftRight_eq_div_pow]

/-- A slice of the low part of a concatenation. -/
theorem slice_low {m n : Nat} (x : BitVec m) (y : BitVec n) (s l : Nat) (h : s + l ≤ n) :
    (x ++ y).extractLsb' s l = y.extractLsb' s l := by
  apply BitVec.eq_of_getLsbD_eq
  intro i hi
  simp [BitVec.getLsbD_append, show s + i < n by omega]

/-- A slice of the high part of a concatenation. -/
theorem slice_high {m n : Nat} (x : BitVec m) (y : BitVec n) (s l : Nat) (h : n ≤ s) :
    (x ++ y).extractLsb' s l = x.extractLsb' (s - n) l := by
  apply BitVec.eq_of_getLsbD_eq
  intro i hi
  simp [BitVec.getLsbD_append, show ¬ s + i < n by omega, show s + i - n = s - n + i by omega]

/-- A slice of a slice. -/
theorem slice_slice {n : Nat} (x : BitVec n) (s l s' l' : Nat) (h : s' + l' ≤ l) :
    (x.extractLsb' s l).extractLsb' s' l' = x.extractLsb' (s + s') l' := by
  apply BitVec.eq_of_getLsbD_eq
  intro i hi
  simp [hi, show s' + i < l by omega, Nat.add_assoc]

/-- Two slices that meet are one slice. -/
theorem slice_join {n : Nat} (x : BitVec n) (t s l l' : Nat) (h : t = s + l') :
    x.extractLsb' t l ++ x.extractLsb' s l' = x.extractLsb' s (l + l') := by
  apply BitVec.eq_of_getLsbD_eq
  intro i hi
  rw [BitVec.getLsbD_append, BitVec.getLsbD_extractLsb', BitVec.getLsbD_extractLsb', BitVec.getLsbD_extractLsb']
  by_cases hl : i < l'
  · simp [hl, show i < l + l' by omega]
  · simp [hl, h, hi, show i - l' < l by omega, show s + l' + (i - l') = s + i by omega]

theorem slice_all {n : Nat} (x : BitVec n) : x.extractLsb' 0 n = x := by simp

/-- The fields of a format R word (R72). -/
theorem encR_fields (f7 r2 r1 f3 rd op) :
    opcodeOf (encR f7 r2 r1 f3 rd op) = op ∧
    rdOf (encR f7 r2 r1 f3 rd op) = rd ∧
    funct3Of (encR f7 r2 r1 f3 rd op) = f3 ∧
    rs1Of (encR f7 r2 r1 f3 rd op) = r1 ∧
    rs2Of (encR f7 r2 r1 f3 rd op) = r2 ∧
    funct7Of (encR f7 r2 r1 f3 rd op) = f7 := by
  refine ⟨?_, ?_, ?_, ?_, ?_, ?_⟩ <;>
    simp (disch := decide) only [encR, opcodeOf, rdOf, funct3Of, rs1Of, rs2Of, funct7Of, BitVec.extractLsb, slice_low,
      slice_high, -Nat.reduceAdd] <;>
    exact slice_all _

/-- The fields of a format I word (R73). -/
theorem encI_fields (imm r1 f3 rd op) :
    opcodeOf (encI imm r1 f3 rd op) = op ∧
    rdOf (encI imm r1 f3 rd op) = rd ∧
    funct3Of (encI imm r1 f3 rd op) = f3 ∧
    rs1Of (encI imm r1 f3 rd op) = r1 ∧
    immIOf (encI imm r1 f3 rd op) = imm := by
  refine ⟨?_, ?_, ?_, ?_, ?_⟩ <;>
    simp (disch := decide) only [encI, opcodeOf, rdOf, funct3Of, rs1Of, immIOf, BitVec.extractLsb, slice_low,
      slice_high, -Nat.reduceAdd] <;>
    exact slice_all _

/-- The fields of a shift with a six-bit amount (R79). -/
theorem encShift_fields (f6 sh r1 f3 rd op) :
    opcodeOf (encShift f6 sh r1 f3 rd op) = op ∧
    rdOf (encShift f6 sh r1 f3 rd op) = rd ∧
    funct3Of (encShift f6 sh r1 f3 rd op) = f3 ∧
    rs1Of (encShift f6 sh r1 f3 rd op) = r1 ∧
    shamt6Of (encShift f6 sh r1 f3 rd op) = sh ∧
    funct6Of (encShift f6 sh r1 f3 rd op) = f6 := by
  refine ⟨?_, ?_, ?_, ?_, ?_, ?_⟩ <;>
    simp (disch := decide) only [encShift, opcodeOf, rdOf, funct3Of, rs1Of, shamt6Of, funct6Of, BitVec.extractLsb, slice_low,
      slice_high, -Nat.reduceAdd] <;>
    exact slice_all _

/-- The fields of a format S word (R74). -/
theorem encS_fields (imm r2 r1 f3 op) :
    opcodeOf (encS imm r2 r1 f3 op) = op ∧
    funct3Of (encS imm r2 r1 f3 op) = f3 ∧
    rs1Of (encS imm r2 r1 f3 op) = r1 ∧
    rs2Of (encS imm r2 r1 f3 op) = r2 ∧
    immSOf (encS imm r2 r1 f3 op) = imm := by
  refine ⟨?_, ?_, ?_, ?_, ?_⟩ <;>
    simp (disch := decide) only [encS, opcodeOf, funct3Of, rs1Of, rs2Of, immSOf, BitVec.extractLsb, slice_low,
      slice_high, slice_slice, slice_join, -Nat.reduceAdd]
  all_goals exact slice_all _

/-- The fields of a format B word (R75). -/
theorem encB_fields (f r2 r1 f3 op) :
    opcodeOf (encB f r2 r1 f3 op) = op ∧
    funct3Of (encB f r2 r1 f3 op) = f3 ∧
    rs1Of (encB f r2 r1 f3 op) = r1 ∧
    rs2Of (encB f r2 r1 f3 op) = r2 ∧
    immBOf (encB f r2 r1 f3 op) = f := by
  refine ⟨?_, ?_, ?_, ?_, ?_⟩ <;>
    simp (disch := decide) only [encB, opcodeOf, funct3Of, rs1Of, rs2Of, immBOf, BitVec.extractLsb, slice_low,
      slice_high, slice_slice, slice_join, -Nat.reduceAdd]
  all_goals exact slice_all _

/-- The fields of a format U word (R76). -/
theorem encU_fields (imm rd op) :
    opcodeOf (encU imm rd op) = op ∧
    rdOf (encU imm rd op) = rd ∧
    immUOf (encU imm rd op) = imm := by
  refine ⟨?_, ?_, ?_⟩ <;>
    simp (disch := decide) only [encU, opcodeOf, rdOf, immUOf, BitVec.extractLsb, slice_low,
      slice_high, -Nat.reduceAdd] <;>
    exact slice_all _

/-- The fields of a format J word (R77). -/
theorem encJ_fields (f rd op) :
    opcodeOf (encJ f rd op) = op ∧
    rdOf (encJ f rd op) = rd ∧
    immJOf (encJ f rd op) = f := by
  refine ⟨?_, ?_, ?_⟩ <;>
    simp (disch := decide) only [encJ, opcodeOf, rdOf, immJOf, BitVec.extractLsb, slice_low,
      slice_high, slice_slice, slice_join, -Nat.reduceAdd]
  all_goals exact slice_all _

/-- The fields of FENCE (43_fence_system R190). -/
theorem encFence_fields (fm pred succ r1 rd) :
    opcodeOf (encFence fm pred succ r1 rd) = 0b0001111 ∧
    rdOf (encFence fm pred succ r1 rd) = rd ∧
    funct3Of (encFence fm pred succ r1 rd) = 0b000 ∧
    rs1Of (encFence fm pred succ r1 rd) = r1 ∧
    fmOf (encFence fm pred succ r1 rd) = fm ∧
    predOf (encFence fm pred succ r1 rd) = pred ∧
    succOf (encFence fm pred succ r1 rd) = succ := by
  refine ⟨?_, ?_, ?_, ?_, ?_, ?_, ?_⟩ <;>
    simp (disch := decide) only [encFence, opcodeOf, rdOf, funct3Of, rs1Of, fmOf, predOf, succOf, BitVec.extractLsb, slice_low,
      slice_high, -Nat.reduceAdd] <;>
    exact slice_all _

/-- The fields of a CR parcel (R86). -/
theorem encCR_fields (f4 rd r2) :
    cOpOf (encCR f4 rd r2) = 0b10 ∧
    cRdOf (encCR f4 rd r2) = rd ∧
    cRs2Of (encCR f4 rd r2) = r2 ∧
    cFunct3Of (encCR f4 rd r2) = f4.extractLsb 3 1 ∧
    cBit12Of (encCR f4 rd r2) = f4.extractLsb 0 0 := by
  refine ⟨?_, ?_, ?_, ?_, ?_⟩ <;>
    simp (disch := decide) only [encCR, cOpOf, cRdOf, cRs2Of, cFunct3Of, cBit12Of, BitVec.extractLsb, slice_low,
      slice_high, -Nat.reduceAdd] <;>
    exact slice_all _

/-- The fields of a CI parcel (R87). -/
theorem encCI_fields (f3 imm rd op) :
    cOpOf (encCI f3 imm rd op) = op ∧
    cRdOf (encCI f3 imm rd op) = rd ∧
    cFunct3Of (encCI f3 imm rd op) = f3 ∧
    cImm6Of (encCI f3 imm rd op) = imm := by
  refine ⟨?_, ?_, ?_, ?_⟩ <;>
    simp (disch := decide) only [encCI, cOpOf, cRdOf, cFunct3Of, cImm6Of, BitVec.extractLsb, slice_low,
      slice_high, slice_slice, slice_join, -Nat.reduceAdd]
  all_goals exact slice_all _

/-- The fields of c.addi4spn (R89, R96). -/
theorem encAddi4spn_fields (u rd) :
    cOpOf (encAddi4spn u rd) = 0b00 ∧
    cFunct3Of (encAddi4spn u rd) = 0b000 ∧
    cRd'Of (encAddi4spn u rd) = rd ∧
    cAddi4spnImmOf (encAddi4spn u rd) = u := by
  refine ⟨?_, ?_, ?_, ?_⟩ <;>
    simp (disch := decide) only [encAddi4spn, cOpOf, cFunct3Of, cRd'Of, cAddi4spnImmOf, BitVec.extractLsb, slice_low,
      slice_high, slice_slice, slice_join, -Nat.reduceAdd]
  all_goals exact slice_all _

/-- The fields of a CL or CS parcel with a word offset (R90, R91, R96). -/
theorem encWordOff_fields (f3 u r1 r2) :
    cOpOf (encWordOff f3 u r1 r2) = 0b00 ∧
    cFunct3Of (encWordOff f3 u r1 r2) = f3 ∧
    cRs1'Of (encWordOff f3 u r1 r2) = r1 ∧
    cRd'Of (encWordOff f3 u r1 r2) = r2 ∧
    cWordOffOf (encWordOff f3 u r1 r2) = u := by
  refine ⟨?_, ?_, ?_, ?_, ?_⟩ <;>
    simp (disch := decide) only [encWordOff, cOpOf, cFunct3Of, cRs1'Of, cRd'Of, cWordOffOf, BitVec.extractLsb, slice_low,
      slice_high, slice_slice, slice_join, -Nat.reduceAdd]
  all_goals exact slice_all _

/-- The fields of a CL or CS parcel with a doubleword offset (R90, R91, R96). -/
theorem encDoubleOff_fields (f3 u r1 r2) :
    cOpOf (encDoubleOff f3 u r1 r2) = 0b00 ∧
    cFunct3Of (encDoubleOff f3 u r1 r2) = f3 ∧
    cRs1'Of (encDoubleOff f3 u r1 r2) = r1 ∧
    cRd'Of (encDoubleOff f3 u r1 r2) = r2 ∧
    cDoubleOffOf (encDoubleOff f3 u r1 r2) = u := by
  refine ⟨?_, ?_, ?_, ?_, ?_⟩ <;>
    simp (disch := decide) only [encDoubleOff, cOpOf, cFunct3Of, cRs1'Of, cRd'Of, cDoubleOffOf, BitVec.extractLsb, slice_low,
      slice_high, slice_slice, slice_join, -Nat.reduceAdd]
  all_goals exact slice_all _

/-- The fields of a CJ parcel (R93, R96). -/
theorem encCJ_fields (f3 j) :
    cOpOf (encCJ f3 j) = 0b01 ∧
    cFunct3Of (encCJ f3 j) = f3 ∧
    cJumpOffOf (encCJ f3 j) = j := by
  refine ⟨?_, ?_, ?_⟩ <;>
    simp (disch := decide) only [encCJ, cOpOf, cFunct3Of, cJumpOffOf, BitVec.extractLsb, slice_low,
      slice_high, slice_slice, slice_join, -Nat.reduceAdd]
  all_goals exact slice_all _

/-- The fields of c.addi16sp (R87, R96). -/
theorem encAddi16sp_fields (n) :
    cOpOf (encAddi16sp n) = 0b01 ∧
    cFunct3Of (encAddi16sp n) = 0b011 ∧
    cRdOf (encAddi16sp n) = 2 ∧
    cAddi16spImmOf (encAddi16sp n) = n := by
  refine ⟨?_, ?_, ?_, ?_⟩ <;>
    simp (disch := decide) only [encAddi16sp, cOpOf, cFunct3Of, cRdOf, cAddi16spImmOf, BitVec.extractLsb, slice_low,
      slice_high, slice_slice, slice_join, -Nat.reduceAdd]
  all_goals exact slice_all _

/-- The fields of a CB-shaped parcel with a six-bit immediate (R92). -/
theorem encCBImm_fields (f2 imm rd) :
    cOpOf (encCBImm f2 imm rd) = 0b01 ∧
    cFunct3Of (encCBImm f2 imm rd) = 0b100 ∧
    cFunct2Of (encCBImm f2 imm rd) = f2 ∧
    cRs1'Of (encCBImm f2 imm rd) = rd ∧
    cImm6Of (encCBImm f2 imm rd) = imm := by
  refine ⟨?_, ?_, ?_, ?_, ?_⟩ <;>
    simp (disch := decide) only [encCBImm, cOpOf, cFunct3Of, cFunct2Of, cRs1'Of, cImm6Of, BitVec.extractLsb, slice_low,
      slice_high, slice_slice, slice_join, -Nat.reduceAdd]
  all_goals exact slice_all _

/-- The fields of a register-register parcel of quadrant 01 (R91). -/
theorem encCA_fields (f2 rd r2) :
    cOpOf (encCA f2 rd r2) = 0b01 ∧
    cFunct3Of (encCA f2 rd r2) = 0b100 ∧
    cBit12Of (encCA f2 rd r2) = 0 ∧
    cFunct2Of (encCA f2 rd r2) = 0b11 ∧
    cFunct2RegOf (encCA f2 rd r2) = f2 ∧
    cRs1'Of (encCA f2 rd r2) = rd ∧
    cRd'Of (encCA f2 rd r2) = r2 := by
  refine ⟨?_, ?_, ?_, ?_, ?_, ?_, ?_⟩ <;>
    simp (disch := decide) only [encCA, cOpOf, cFunct3Of, cBit12Of, cFunct2Of, cFunct2RegOf, cRs1'Of, cRd'Of, BitVec.extractLsb, slice_low,
      slice_high, -Nat.reduceAdd] <;>
    first | exact slice_all _ | decide

/-- The fields of a CB parcel with a branch offset (R92, R96). -/
theorem encCB_fields (f3 b r1) :
    cOpOf (encCB f3 b r1) = 0b01 ∧
    cFunct3Of (encCB f3 b r1) = f3 ∧
    cRs1'Of (encCB f3 b r1) = r1 ∧
    cBranchOffOf (encCB f3 b r1) = b := by
  refine ⟨?_, ?_, ?_, ?_⟩ <;>
    simp (disch := decide) only [encCB, cOpOf, cFunct3Of, cRs1'Of, cBranchOffOf, BitVec.extractLsb, slice_low,
      slice_high, slice_slice, slice_join, -Nat.reduceAdd]
  all_goals exact slice_all _

/-- The fields of c.lwsp and c.flwsp (R87, R96). -/
theorem encLwsp_fields (f3 u rd) :
    cOpOf (encLwsp f3 u rd) = 0b10 ∧
    cFunct3Of (encLwsp f3 u rd) = f3 ∧
    cRdOf (encLwsp f3 u rd) = rd ∧
    cLwspOffOf (encLwsp f3 u rd) = u := by
  refine ⟨?_, ?_, ?_, ?_⟩ <;>
    simp (disch := decide) only [encLwsp, cOpOf, cFunct3Of, cRdOf, cLwspOffOf, BitVec.extractLsb, slice_low,
      slice_high, slice_slice, slice_join, -Nat.reduceAdd]
  all_goals exact slice_all _

/-- The fields of c.fldsp (R87, R96). -/
theorem encFldsp_fields (u rd) :
    cOpOf (encFldsp u rd) = 0b10 ∧
    cFunct3Of (encFldsp u rd) = 0b001 ∧
    cRdOf (encFldsp u rd) = rd ∧
    cFldspOffOf (encFldsp u rd) = u := by
  refine ⟨?_, ?_, ?_, ?_⟩ <;>
    simp (disch := decide) only [encFldsp, cOpOf, cFunct3Of, cRdOf, cFldspOffOf, BitVec.extractLsb, slice_low,
      slice_high, slice_slice, slice_join, -Nat.reduceAdd]
  all_goals exact slice_all _

/-- The fields of c.swsp and c.fswsp (R88, R96). -/
theorem encSwsp_fields (f3 u r2) :
    cOpOf (encSwsp f3 u r2) = 0b10 ∧
    cFunct3Of (encSwsp f3 u r2) = f3 ∧
    cRs2Of (encSwsp f3 u r2) = r2 ∧
    cSwspOffOf (encSwsp f3 u r2) = u := by
  refine ⟨?_, ?_, ?_, ?_⟩ <;>
    simp (disch := decide) only [encSwsp, cOpOf, cFunct3Of, cRs2Of, cSwspOffOf, BitVec.extractLsb, slice_low,
      slice_high, slice_slice, slice_join, -Nat.reduceAdd]
  all_goals exact slice_all _

/-- The fields of c.fsdsp (R88, R96). -/
theorem encFsdsp_fields (u r2) :
    cOpOf (encFsdsp u r2) = 0b10 ∧
    cFunct3Of (encFsdsp u r2) = 0b101 ∧
    cRs2Of (encFsdsp u r2) = r2 ∧
    cFsdspOffOf (encFsdsp u r2) = u := by
  refine ⟨?_, ?_, ?_, ?_⟩ <;>
    simp (disch := decide) only [encFsdsp, cOpOf, cFunct3Of, cRs2Of, cFsdspOffOf, BitVec.extractLsb, slice_low,
      slice_high, slice_slice, slice_join, -Nat.reduceAdd]
  all_goals exact slice_all _

/-- The two bytes of a parcel make the parcel again (20_memory R47). -/
theorem parcelOf_parcelBytes (p : Parcel) : parcelOf (p.extractLsb 7 0) (p.extractLsb 15 8) = p := by
  apply BitVec.eq_of_toNat_eq
  simp only [parcelOf, BitVec.extractLsb, toNat_slice, toNat_cat]
  omega

end Sys2Proof
end

