-- ==== Sys2Proof/Laws/Memory.lean ====
section
/-! SUPPORT. Memory cells: read after write, the canonical form, little-endian values (spec/20_memory.md R43 to R46), and
the addresses stored to. -/

namespace Sys2Proof.Machine

/-! ### One byte -/

@[simp] theorem Memory.read_write_self (m : Memory) (a : Nat) (v : Byte) : Memory.read (Memory.write m a v) a = some v := by
  induction m with
  | nil => simp [Memory.write, Memory.read]
  | cons p rest ih =>
    obtain ⟨k, b⟩ := p
    unfold Memory.write
    split
    · simp [Memory.read]
    · split
      · simp [Memory.read]
      · simp [Memory.read, ih, show k ≠ a by omega]

theorem Memory.read_write_ne (m : Memory) {a k : Nat} (v : Byte) (hk : k ≠ a) :
    Memory.read (Memory.write m a v) k = Memory.read m k := by
  induction m with
  | nil => simp [Memory.write, Memory.read, Ne.symm hk]
  | cons p rest ih =>
    obtain ⟨j, b⟩ := p
    unfold Memory.write
    split
    · simp [Memory.read, Ne.symm hk]
    · split
      · next e => simp [Memory.read, Ne.symm hk, ← e]
      · simp [Memory.read, ih]

/-- The cells after a write are the cell written and cells that were there. -/
theorem Memory.mem_write {m : Memory} {a : Nat} {v : Byte} {p : Host.Cell} (hp : p ∈ Memory.write m a v) :
    p = (a, v) ∨ p ∈ m := by
  induction m with
  | nil => simpa [Memory.write] using hp
  | cons q rest ih =>
    unfold Memory.write at hp
    split at hp
    · simpa using hp
    · split at hp
      · rcases List.mem_cons.1 hp with h | h
        · exact .inl h
        · exact .inr (List.mem_cons_of_mem _ h)
      · rcases List.mem_cons.1 hp with h | h
        · exact .inr (h ▸ List.mem_cons_self)
        · exact (ih h).imp id (List.mem_cons_of_mem _)

/-- A write keeps the canonical form. -/
theorem Memory.write_wf {m : Memory} (hm : Memory.wf m = true) (a : Nat) (v : Byte) :
    Memory.wf (Memory.write m a v) = true := by
  simp only [Memory.wf, decide_eq_true_eq] at *
  induction m with
  | nil => simp [Memory.write]
  | cons q rest ih =>
    obtain ⟨k, b⟩ := q
    have ⟨hk, hr⟩ := List.pairwise_cons.1 hm
    unfold Memory.write
    split
    · next hlt =>
      refine List.pairwise_cons.2 ⟨fun p hp => ?_, hm⟩
      rcases List.mem_cons.1 hp with h | h
      · exact h ▸ hlt
      · exact Nat.lt_trans hlt (hk p h)
    · split
      · next e => exact List.pairwise_cons.2 ⟨fun p hp => e ▸ hk p hp, hr⟩
      · next hlt hne =>
        refine List.pairwise_cons.2 ⟨fun p hp => ?_, ih hr⟩
        rcases Memory.mem_write hp with h | h
        · subst h
          show k < a
          omega
        · exact hk p h

/-! ### Bytes that the environment places -/

theorem Memory.place_wf {m : Memory} (hm : Memory.wf m = true) (a : Nat) (bs : List Byte) :
    Memory.wf (Memory.place m a bs) = true := by
  induction bs generalizing m a with
  | nil => exact hm
  | cons b bs ih => exact ih (Memory.write_wf hm a b) (a + 1)

theorem Memory.read_place_below (m : Memory) (a : Nat) (bs : List Byte) {k : Nat} (hk : k < a) :
    Memory.read (Memory.place m a bs) k = Memory.read m k := by
  induction bs generalizing m a with
  | nil => rfl
  | cons b bs ih => rw [Memory.place, ih _ _ (by omega), Memory.read_write_ne _ _ (by omega)]

/-- The placed bytes are read back. -/
theorem Memory.read_place (m : Memory) (a : Nat) (bs : List Byte) (i : Nat) (hi : i < bs.length) :
    Memory.read (Memory.place m a bs) (a + i) = some bs[i] := by
  induction bs generalizing m a i with
  | nil => simp at hi
  | cons b bs ih =>
    cases i with
    | zero =>
      show Memory.read (Memory.place (Memory.write m a b) (a + 1) bs) a = some b
      rw [Memory.read_place_below _ _ _ (by omega), Memory.read_write_self]
    | succ i =>
      rw [Memory.place, show a + (i + 1) = a + 1 + i by omega, ih _ _ _ (by simpa using hi)]
      rfl

/-! ### Little-endian values (20_memory R43) -/

/-- A store leaves every byte outside it alone. -/
theorem Memory.read_writeLE_outside (m : Memory) (a n : Nat) (v : BitVec (8 * n)) {k : Nat} (hk : k < a ∨ a + n ≤ k) :
    Memory.read (Memory.writeLE m a n v) k = Memory.read m k := by
  induction n generalizing m a with
  | zero => rfl
  | succ n ih => rw [Memory.writeLE, ih _ _ _ (by omega), Memory.read_write_ne _ _ (by omega)]

/-- Byte i of a stored value stands i addresses on. -/
theorem Memory.read_writeLE_inside (m : Memory) (a n : Nat) (v : BitVec (8 * n)) (i : Nat) (hi : i < n) :
    Memory.read (Memory.writeLE m a n v) (a + i) = some (v.extractLsb' (8 * i) 8) := by
  induction n generalizing m a i with
  | zero => omega
  | succ n ih =>
    cases i with
    | zero =>
      show Memory.read (Memory.writeLE (Memory.write m a (v.setWidth 8)) (a + 1) n _) a = _
      rw [Memory.read_writeLE_outside _ _ _ _ (by omega), Memory.read_write_self]
      congr 1
      apply BitVec.eq_of_getLsbD_eq
      intro j hj
      simp [hj]
    | succ i =>
      rw [Memory.writeLE, show a + (i + 1) = a + 1 + i by omega, ih _ _ _ _ (by omega)]
      congr 1
      apply BitVec.eq_of_getLsbD_eq
      intro j hj
      simp [hj, show 8 * i + j < 8 * n by omega, show 8 + (8 * i + j) = 8 * (i + 1) + j by omega]

/-- A store defines no byte outside it and undefines none. -/
theorem Memory.isSome_read_writeLE (m : Memory) (a n : Nat) (v : BitVec (8 * n)) (k : Nat) :
    (Memory.read (Memory.writeLE m a n v) k).isSome = (decide (a ≤ k ∧ k < a + n) || (Memory.read m k).isSome) := by
  by_cases hk : a ≤ k ∧ k < a + n
  · obtain ⟨i, rfl⟩ : ∃ i, k = a + i := ⟨k - a, by omega⟩
    simp [Memory.read_writeLE_inside m a n v i (by omega), show i < n by omega]
  · rw [Memory.read_writeLE_outside _ _ _ _ (by omega)]
    simp [hk]

theorem Memory.writeLE_wf {m : Memory} (hm : Memory.wf m = true) (a n : Nat) (v : BitVec (8 * n)) :
    Memory.wf (Memory.writeLE m a n v) = true := by
  induction n generalizing m a with
  | zero => exact hm
  | succ n ih => exact ih (Memory.write_wf hm a _) _ _

/-- The cells after a store lie where it stored or were there. -/
theorem Memory.mem_writeLE {m : Memory} {a n : Nat} {v : BitVec (8 * n)} {p : Host.Cell}
    (hp : p ∈ Memory.writeLE m a n v) : (a ≤ p.1 ∧ p.1 < a + n) ∨ p ∈ m := by
  induction n generalizing m a with
  | zero => exact .inr hp
  | succ n ih =>
    rcases ih hp with h | h
    · exact .inl (by omega)
    · rcases Memory.mem_write h with h | h
      · subst h
        exact .inl (by simp)
      · exact .inr h

/-- The value of n bytes depends on those bytes only. -/
theorem Memory.readLE_congr {m m' : Memory} (a n : Nat) (h : ∀ i, i < n → Memory.read m (a + i) = Memory.read m' (a + i)) :
    Memory.readLE m a n = Memory.readLE m' a n := by
  induction n generalizing a with
  | zero => rfl
  | succ n ih =>
    have h0 := h 0 (by omega)
    rw [Nat.add_zero] at h0
    rw [Memory.readLE, Memory.readLE, h0,
      ih (a + 1) fun i hi => by rw [show a + 1 + i = a + (i + 1) by omega]; exact h _ (by omega)]

/-- Reading defined bytes: the value whose byte i is the byte i addresses on. -/
theorem Memory.readLE_eq_some {m : Memory} {a n : Nat} {v : BitVec (8 * n)}
    (h : ∀ i, i < n → Memory.read m (a + i) = some (v.extractLsb' (8 * i) 8)) : Memory.readLE m a n = some v := by
  induction n generalizing a with
  | zero => rw [Memory.readLE, show v = 0 from BitVec.eq_of_toNat_eq (by have := v.isLt; omega)]
  | succ n ih =>
    have h0 := h 0 (by omega)
    rw [Nat.add_zero] at h0
    have hr : Memory.readLE m (a + 1) n = some (v.extractLsb' 8 (8 * n)) := by
      apply ih
      intro i hi
      rw [show a + 1 + i = a + (i + 1) by omega, h _ (by omega)]
      congr 1
      apply BitVec.eq_of_getLsbD_eq
      intro j hj
      simp [hj, show 8 * i + j < 8 * n by omega, show 8 + (8 * i + j) = 8 * (i + 1) + j by omega]
    rw [Memory.readLE, h0, hr]
    show some (v.extractLsb' 8 (8 * n) ++ v.extractLsb' (8 * 0) 8 : BitVec (8 * n + 8)) = some v
    congr 1
    apply BitVec.eq_of_getLsbD_eq
    intro j hj
    rw [BitVec.getLsbD_append, BitVec.getLsbD_extractLsb', BitVec.getLsbD_extractLsb']
    by_cases h8 : j < 8
    · simp [h8]
    · simp [h8, show j - 8 < 8 * n by omega, show 8 + (j - 8) = j by omega]

/-- A stored value is read back. -/
theorem Memory.readLE_writeLE (m : Memory) (a n : Nat) (v : BitVec (8 * n)) :
    Memory.readLE (Memory.writeLE m a n v) a n = some v :=
  Memory.readLE_eq_some fun i hi => Memory.read_writeLE_inside m a n v i hi

/-- n bytes have a value exactly where each of them is defined. -/
theorem Memory.readLE_isSome {m : Memory} {a n : Nat} :
    (Memory.readLE m a n).isSome = true ↔ ∀ i, i < n → (Memory.read m (a + i)).isSome = true := by
  induction n generalizing a with
  | zero => simp [Memory.readLE]
  | succ n ih =>
    have key : (Memory.readLE m a (n + 1)).isSome = true ↔
        (Memory.read m a).isSome = true ∧ (Memory.readLE m (a + 1) n).isSome = true := by
      rw [Memory.readLE]
      cases Memory.read m a <;> cases Memory.readLE m (a + 1) n <;> simp
    rw [key, ih]
    constructor
    · rintro ⟨h0, h1⟩ i hi
      cases i with
      | zero => exact h0
      | succ i => rw [show a + (i + 1) = a + 1 + i by omega]; exact h1 i (by omega)
    · intro h
      exact ⟨h 0 (by omega), fun i hi => by rw [show a + 1 + i = a + (i + 1) by omega]; exact h _ (by omega)⟩

/-- n bytes of which the k-th is the first without a value have no value together, and that byte is the one named. -/
theorem Memory.firstUndefined_eq {m : Memory} {a n k : Nat} (hk : k < n)
    (hd : ∀ j, j < k → (Memory.read m (a + j)).isSome = true) (hu : Memory.read m (a + k) = none) :
    Memory.readLE m a n = none ∧ Memory.firstUndefined m a n = a + k := by
  refine ⟨Option.not_isSome_iff_eq_none.1 fun hs => by simpa [hu] using Memory.readLE_isSome.1 hs k hk, ?_⟩
  induction n generalizing a k with
  | zero => omega
  | succ n ih =>
    cases k with
    | zero => simp [Memory.firstUndefined, show Memory.read m a = none from hu]
    | succ k =>
      have h0 : (Memory.read m a).isNone = false := by
        simpa [Option.isSome_iff_ne_none] using hd 0 (by omega)
      have hi := ih (a := a + 1) (k := k) (by omega)
        (fun j hj => by simpa [Nat.add_assoc, Nat.add_comm 1 j] using hd (j + 1) (by omega))
        (by simpa [Nat.add_assoc, Nat.add_comm 1 k] using hu)
      simp only [Memory.firstUndefined, h0, Bool.false_eq_true, if_false, hi]
      omega

/-! ### Addresses stored to -/

theorem mem_insertAddr {l : List Nat} {a k : Nat} : k ∈ insertAddr l a ↔ k = a ∨ k ∈ l := by
  induction l with
  | nil => simp [insertAddr]
  | cons j rest ih =>
    unfold insertAddr
    split
    · simp
    · split
      · next e => simp [e]
      · simp only [List.mem_cons, ih]
        tauto

theorem insertAddr_rising {l : List Nat} (hl : l.Pairwise (· < ·)) (a : Nat) : (insertAddr l a).Pairwise (· < ·) := by
  induction l with
  | nil => simp [insertAddr]
  | cons j rest ih =>
    have ⟨hj, hr⟩ := List.pairwise_cons.1 hl
    unfold insertAddr
    split
    · next hlt =>
      refine List.pairwise_cons.2 ⟨fun p hp => ?_, hl⟩
      rcases List.mem_cons.1 hp with h | h
      · exact h ▸ hlt
      · exact Nat.lt_trans hlt (hj p h)
    · split
      · exact hl
      · refine List.pairwise_cons.2 ⟨fun p hp => ?_, ih hr⟩
        rcases mem_insertAddr.1 hp with h | h
        · omega
        · exact hj p h

theorem mem_insertAddrs {l : List Nat} {a n k : Nat} : k ∈ insertAddrs l a n ↔ (a ≤ k ∧ k < a + n) ∨ k ∈ l := by
  induction n generalizing l a with
  | zero =>
    simp only [insertAddrs]
    constructor
    · exact .inr
    · rintro (h | h)
      · omega
      · exact h
  | succ n ih =>
    rw [insertAddrs, ih, mem_insertAddr]
    constructor
    · rintro (h | h | h)
      · exact .inl (by omega)
      · exact .inl (by omega)
      · exact .inr h
    · rintro (h | h)
      · by_cases e : k = a
        · exact .inr (.inl e)
        · exact .inl (by omega)
      · exact .inr (.inr h)

theorem insertAddrs_rising {l : List Nat} (hl : l.Pairwise (· < ·)) (a n : Nat) :
    (insertAddrs l a n).Pairwise (· < ·) := by
  induction n generalizing l a with
  | zero => exact hl
  | succ n ih => exact ih (insertAddr_rising hl a) (a + 1)

/-! ### Permissions (20_memory R42) -/

/-- Each byte of a permitted access is permitted. -/
theorem permitted_byte {c : Isa} {m : MemMap} {k : Access} {a n i : Nat} (h : permitted c m k a n = true) (hi : i < n) :
    permitted c m k (a + i) 1 = true := by
  simp only [permitted, Bool.and_eq_true, decide_eq_true_eq, List.any_eq_true, regionCovers] at *
  obtain ⟨h1, r, hr, h2, h3⟩ := h
  exact ⟨by omega, r, hr, h2, by omega⟩

/-- A permitted access lies inside the address space. -/
theorem permitted_inside {c : Isa} {m : MemMap} {k : Access} {a n : Nat} (h : permitted c m k a n = true) :
    a + n ≤ 2 ^ c.xlen := by
  simp only [permitted, Bool.and_eq_true, decide_eq_true_eq] at h
  exact h.1

end Sys2Proof.Machine
end

