-- ==== Sys2Proof/Laws/State.lean ====
section
/-! SUPPORT. One lemma per field per update of the hart, so that no proof unfolds a record update; reading a register
after a write (spec/10_state.md R21). -/

namespace Sys2Proof.Machine

variable {c : Isa} (h : Hart c)

/-! ### Registers -/

@[simp] theorem Hart.x_zero : h.x 0 = 0 := rfl

@[simp] theorem Hart.x_zero_lit : h.x 0#5 = 0 := rfl

@[simp] theorem Hart.setX_zero (v : BitVec c.xlen) : h.setX 0 v = h := rfl

theorem regIndex_inj {r q : RegNum} (hr : r ≠ 0) (hq : q ≠ 0) (e : regIndex r hr = regIndex q hq) : r = q := by
  have e' : r.toNat - 1 = q.toNat - 1 := congrArg Fin.val e
  have hr' : r.toNat ≠ 0 := fun k => hr (BitVec.eq_of_toNat_eq k)
  have hq' : q.toNat ≠ 0 := fun k => hq (BitVec.eq_of_toNat_eq k)
  exact BitVec.eq_of_toNat_eq (by omega)

/-- A register reads as written unless it is x0. -/
theorem Hart.x_setX (rd r : RegNum) (v : BitVec c.xlen) :
    (h.setX rd v).x r = if r = rd ∧ rd ≠ 0 then v else h.x r := by
  by_cases hd : rd = 0
  · rw [if_neg fun k => k.2 hd, Hart.setX, dif_pos hd]
  · by_cases hr : r = 0
    · rw [if_neg fun k => hd (k.1.symm.trans hr), hr]
      rfl
    · rw [Hart.setX, dif_neg hd, Hart.x, Hart.x, dif_neg hr, dif_neg hr]
      by_cases e : r = rd
      · subst e
        rw [if_pos ⟨rfl, hd⟩]
        exact Vector.getElem_set_self _
      · have hne : (regIndex rd hd).val ≠ (regIndex r hr).val := fun k => e (regIndex_inj hd hr (Fin.ext k)).symm
        rw [if_neg fun k => e k.1]
        exact Vector.getElem_set_ne (regIndex rd hd).isLt (regIndex r hr).isLt hne

@[simp] theorem Hart.x_setX_self {rd : RegNum} (hd : rd ≠ 0) (v : BitVec c.xlen) : (h.setX rd v).x rd = v := by
  rw [Hart.x_setX, if_pos ⟨rfl, hd⟩]

theorem Hart.x_setX_ne {rd r : RegNum} (hr : r ≠ rd) (v : BitVec c.xlen) : (h.setX rd v).x r = h.x r := by
  rw [Hart.x_setX, if_neg fun k => hr k.1]

@[simp] theorem Hart.setX_pc (rd : RegNum) (v : BitVec c.xlen) : (h.setX rd v).pc = h.pc := by
  unfold Hart.setX
  split <;> rfl

@[simp] theorem Hart.setX_mem (rd : RegNum) (v : BitVec c.xlen) : (h.setX rd v).mem = h.mem := by
  unfold Hart.setX
  split <;> rfl

@[simp] theorem Hart.setX_memMap (rd : RegNum) (v : BitVec c.xlen) : (h.setX rd v).memMap = h.memMap := by
  unfold Hart.setX
  split <;> rfl

@[simp] theorem Hart.setX_stored (rd : RegNum) (v : BitVec c.xlen) : (h.setX rd v).stored = h.stored := by
  unfold Hart.setX
  split <;> rfl

@[simp] theorem Hart.setX_byteAt (rd : RegNum) (v : BitVec c.xlen) (a : Nat) : (h.setX rd v).byteAt a = h.byteAt a := by
  simp [Hart.byteAt]

@[simp] theorem Hart.setX_nextPc (rd : RegNum) (v : BitVec c.xlen) (n : Nat) : (h.setX rd v).nextPc n = h.nextPc n := by
  simp [Hart.nextPc]

/-! ### The program counter -/

@[simp] theorem Hart.setPc_pc (t : BitVec c.xlen) : (h.setPc t).pc = t := rfl
@[simp] theorem Hart.setPc_x (t : BitVec c.xlen) (r : RegNum) : (h.setPc t).x r = h.x r := rfl
@[simp] theorem Hart.setPc_mem (t : BitVec c.xlen) : (h.setPc t).mem = h.mem := rfl
@[simp] theorem Hart.setPc_memMap (t : BitVec c.xlen) : (h.setPc t).memMap = h.memMap := rfl
@[simp] theorem Hart.setPc_stored (t : BitVec c.xlen) : (h.setPc t).stored = h.stored := rfl
@[simp] theorem Hart.setPc_byteAt (t : BitVec c.xlen) (a : Nat) : (h.setPc t).byteAt a = h.byteAt a := rfl
@[simp] theorem Hart.setPc_setPc (t u : BitVec c.xlen) : (h.setPc t).setPc u = h.setPc u := rfl

@[simp] theorem Hart.advance_pc (n : Nat) : (h.advance n).pc = h.pc + BitVec.ofNat c.xlen n := rfl
@[simp] theorem Hart.advance_x (n : Nat) (r : RegNum) : (h.advance n).x r = h.x r := rfl
@[simp] theorem Hart.advance_mem (n : Nat) : (h.advance n).mem = h.mem := rfl
@[simp] theorem Hart.advance_memMap (n : Nat) : (h.advance n).memMap = h.memMap := rfl
@[simp] theorem Hart.advance_stored (n : Nat) : (h.advance n).stored = h.stored := rfl
@[simp] theorem Hart.advance_byteAt (n a : Nat) : (h.advance n).byteAt a = h.byteAt a := rfl

/-- Registers and pc are apart. -/
theorem Hart.setX_setPc (rd : RegNum) (v t : BitVec c.xlen) : (h.setX rd v).setPc t = (h.setPc t).setX rd v := by
  unfold Hart.setX
  split <;> rfl

/-! ### A store -/

@[simp] theorem Hart.store_pc (a n : Nat) (v : BitVec (8 * n)) : (h.store a n v).pc = h.pc := rfl
@[simp] theorem Hart.store_x (a n : Nat) (v : BitVec (8 * n)) (r : RegNum) : (h.store a n v).x r = h.x r := rfl
@[simp] theorem Hart.store_mem (a n : Nat) (v : BitVec (8 * n)) :
    (h.store a n v).mem = Memory.writeLE h.mem a n v := rfl
@[simp] theorem Hart.store_memMap (a n : Nat) (v : BitVec (8 * n)) : (h.store a n v).memMap = h.memMap := rfl
@[simp] theorem Hart.store_stored (a n : Nat) (v : BitVec (8 * n)) :
    (h.store a n v).stored = insertAddrs h.stored a n := rfl

/-! ### Placing an instruction (log entry 8) -/

@[simp] theorem Hart.placeAtPc_pc (bs : List Byte) : (h.placeAtPc bs).pc = h.pc := rfl
@[simp] theorem Hart.placeAtPc_x (bs : List Byte) (r : RegNum) : (h.placeAtPc bs).x r = h.x r := rfl
@[simp] theorem Hart.placeAtPc_mem (bs : List Byte) :
    (h.placeAtPc bs).mem = Memory.place h.mem h.pc.toNat bs := rfl

/-- Two harts that agree on every field are equal; the registers may be compared by reading them. -/
theorem Hart.ext_x {g h : Hart c} (hx : ∀ r, g.x r = h.x r) (hp : g.pc = h.pc) (hm : g.mem = h.mem)
    (hmap : g.memMap = h.memMap) (hs : g.stored = h.stored) : g = h := by
  have hregs : g.regs = h.regs := by
    apply Vector.ext
    intro i hi
    have hlt : i + 1 < 2 ^ 5 := by omega
    have hne : BitVec.ofNat 5 (i + 1) ≠ 0 := by
      intro k
      have := congrArg BitVec.toNat k
      simp at this
      omega
    have := hx (BitVec.ofNat 5 (i + 1))
    have hidx : (regIndex (BitVec.ofNat 5 (i + 1)) hne).val = i := by
      simp [regIndex]
      omega
    rw [Hart.x, Hart.x, dif_neg hne, dif_neg hne] at this
    simpa [hidx] using this
  cases g
  cases h
  simp_all

end Sys2Proof.Machine
end

