-- ==== Sys2Proof/Laws/Ops.lean ====
section
/-! SUPPORT. For each shared operation, once, everything it can do: callers cite these and never unfold it. -/

namespace Sys2Proof.Machine

variable {c : Isa} {h h' : Hart c}

/-! ### Sequencing -/

@[simp] theorem andThen_next {α β : Type} (a : α) (f : α → Host.Outcome β Fault Refusal) :
    andThen (.next a) f = f a := rfl

@[simp] theorem andThen_fault {α β : Type} (e : Fault) (f : α → Host.Outcome β Fault Refusal) :
    andThen (.fault e) f = .fault e := rfl

@[simp] theorem andThen_refused {α β : Type} (e : Refusal) (f : α → Host.Outcome β Fault Refusal) :
    andThen (.refused e) f = .refused e := rfl

theorem andThen_eq_next {α β : Type} {r : Host.Outcome α Fault Refusal} {f : α → Host.Outcome β Fault Refusal} {b : β} :
    andThen r f = .next b ↔ ∃ a, r = .next a ∧ f a = .next b := by
  cases r <;> simp

theorem andThen_eq_fault {α β : Type} {r : Host.Outcome α Fault Refusal} {f : α → Host.Outcome β Fault Refusal}
    {e : Fault} : andThen r f = .fault e ↔ r = .fault e ∨ ∃ a, r = .next a ∧ f a = .fault e := by
  cases r <;> simp

theorem andThen_eq_refused {α β : Type} {r : Host.Outcome α Fault Refusal} {f : α → Host.Outcome β Fault Refusal}
    {e : Refusal} : andThen r f = .refused e ↔ r = .refused e ∨ ∃ a, r = .next a ∧ f a = .refused e := by
  cases r <;> simp

/-- A rule on the hart of a state: the configuration stays. -/
theorem atHart_mk (h : Hart c) (f : Hart c → HartResult c) :
    State.atHart { isa := c, hart := h } f = andThen (f h) fun h' => .next { isa := c, hart := h' } := rfl

theorem atHart_eq_next {f : Hart c → HartResult c} {t : State} :
    State.atHart { isa := c, hart := h } f = .next t ↔ ∃ h', f h = .next h' ∧ t = { isa := c, hart := h' } := by
  rw [atHart_mk, andThen_eq_next]
  simp [eq_comm]

theorem atHart_eq_fault {f : Hart c → HartResult c} {e : Fault} :
    State.atHart { isa := c, hart := h } f = .fault e ↔ f h = .fault e := by
  rw [atHart_mk, andThen_eq_fault]
  simp

theorem atHart_eq_refused {f : Hart c → HartResult c} {e : Refusal} :
    State.atHart { isa := c, hart := h } f = .refused e ↔ f h = .refused e := by
  rw [atHart_mk, andThen_eq_refused]
  simp

/-! ### Raising an exception (60_exceptions R290) -/

/-- The trap that `raise` hands out from a hart. -/
def trapOf (h : Hart c) (cause : Cause) (tval : BitVec c.xlen) : Trap :=
  { cause := cause, state := { isa := c, hart := h }, pc := h.pc, tval := tval }

theorem raise_eq {α : Type} (h : Hart c) (cause : Cause) (tval : BitVec c.xlen) :
    (raise h cause tval : Host.Outcome α Fault Refusal) = .fault (.trap (trapOf h cause tval)) := rfl

/-- An instruction that the configuration has runs its rule. -/
theorem whenLegal_wf {i : Instr} (hw : i.wf c = true) (body : HartResult c) : whenLegal h i body = body := by
  simp [whenLegal, hw]

/-- An instruction that the configuration does not have is illegal. -/
theorem whenLegal_not_wf {i : Instr} (hw : i.wf c = false) (body : HartResult c) :
    whenLegal h i body = raiseIllegal h i := by
  simp [whenLegal, hw]

theorem whenLegal_eq_next {i : Instr} {body : HartResult c} :
    whenLegal h i body = .next h' ↔ i.wf c = true ∧ body = .next h' := by
  unfold whenLegal
  split <;> simp_all [raiseIllegal, raise]

/-! ### The access primitives (20_memory R45, R46) -/

theorem memRead_eq_next {addr : BitVec c.xlen} {n : Nat} {v : BitVec (8 * n)} :
    memRead h addr n = .next v ↔
      addr.toNat % n = 0 ∧ permitted c h.memMap .read addr.toNat n = true ∧ Memory.readLE h.mem addr.toNat n = some v := by
  unfold memRead
  split
  · simp_all [raise]
  · split
    · split <;> simp_all
    · simp_all [raise]

/-- What stops a load. -/
theorem memRead_eq_fault {addr : BitVec c.xlen} {n : Nat} {e : Fault} (he : memRead h addr n = .fault e) :
    (addr.toNat % n ≠ 0 ∧ e = .trap (trapOf h .loadAddressMisaligned addr)) ∨
    (addr.toNat % n = 0 ∧ permitted c h.memMap .read addr.toNat n = false ∧ e = .trap (trapOf h .loadAccessFault addr)) ∨
    (addr.toNat % n = 0 ∧ permitted c h.memMap .read addr.toNat n = true ∧ Memory.readLE h.mem addr.toNat n = none ∧
      e = .undefinedByte (Memory.firstUndefined h.mem addr.toNat n)) := by
  unfold memRead at he
  split at he
  · next hm => exact .inl ⟨hm, by simpa [raise, trapOf] using he.symm⟩
  · next hm =>
    split at he
    · next hp =>
      split at he
      · simp at he
      · next hv => exact .inr (.inr ⟨by simpa using hm, hp, hv, by simpa using he.symm⟩)
    · next hp => exact .inr (.inl ⟨by simpa using hm, by simpa using hp, by simpa [raise, trapOf] using he.symm⟩)

/-- A permitted read of n bytes of which the k-th is the first without a value. -/
theorem memRead_undefinedByte {addr : BitVec c.xlen} {n k : Nat} (ha : addr.toNat % n = 0)
    (hp : permitted c h.memMap .read addr.toNat n = true) (hk : k < n)
    (hd : ∀ j, j < k → (h.byteAt (addr.toNat + j)).isSome = true) (hu : h.byteAt (addr.toNat + k) = none) :
    memRead h addr n = .fault (.undefinedByte (addr.toNat + k)) := by
  obtain ⟨hn, hf⟩ := Memory.firstUndefined_eq hk hd hu
  rw [memRead, if_neg (not_not.2 ha), if_pos hp, hn, hf]

theorem memRead_ne_refused {addr : BitVec c.xlen} {n : Nat} {e : Refusal} : memRead h addr n ≠ .refused e := by
  unfold memRead
  split
  · simp [raise]
  · split
    · split <;> simp
    · simp [raise]

theorem memWrite_eq_next {addr : BitVec c.xlen} {n : Nat} {v : BitVec (8 * n)} :
    memWrite h addr n v = .next h' ↔
      addr.toNat % n = 0 ∧ permitted c h.memMap .write addr.toNat n = true ∧ h' = h.store addr.toNat n v := by
  unfold memWrite
  split
  · simp_all [raise]
  · split
    · simp_all [@eq_comm _ h']
    · simp_all [raise]

/-- What stops a store. -/
theorem memWrite_eq_fault {addr : BitVec c.xlen} {n : Nat} {v : BitVec (8 * n)} {e : Fault}
    (he : memWrite h addr n v = .fault e) :
    (addr.toNat % n ≠ 0 ∧ e = .trap (trapOf h .storeAddressMisaligned addr)) ∨
    (addr.toNat % n = 0 ∧ permitted c h.memMap .write addr.toNat n = false ∧
      e = .trap (trapOf h .storeAccessFault addr)) := by
  unfold memWrite at he
  split at he
  · next hm => exact .inl ⟨hm, by simpa [raise, trapOf] using he.symm⟩
  · next hm =>
    split at he
    · simp at he
    · next hp => exact .inr ⟨by simpa using hm, by simpa using hp, by simpa [raise, trapOf] using he.symm⟩

theorem memWrite_ne_refused {addr : BitVec c.xlen} {n : Nat} {v : BitVec (8 * n)} {e : Refusal} :
    memWrite h addr n v ≠ .refused e := by
  unfold memWrite
  split
  · simp [raise]
  · split <;> simp [raise]

/-! ### The shapes instructions share -/

theorem writeReg_eq_next {ilen : Nat} {rd : RegNum} {v : BitVec c.xlen} :
    writeReg h ilen rd v = .next h' ↔ h' = (h.setX rd v).advance ilen := by
  simp [writeReg, @eq_comm _ h']

/-- A load that completes. -/
theorem loadInto_eq_next {ilen : Nat} {rd : RegNum} {addr : BitVec c.xlen} {n : Nat}
    {ext : BitVec (8 * n) → BitVec c.xlen} :
    loadInto h ilen rd addr n ext = .next h' ↔
      ∃ v, addr.toNat % n = 0 ∧ permitted c h.memMap .read addr.toNat n = true ∧
        Memory.readLE h.mem addr.toNat n = some v ∧ h' = (h.setX rd (ext v)).advance ilen := by
  unfold loadInto
  rw [andThen_eq_next]
  simp [memRead_eq_next, writeReg_eq_next, and_assoc]

theorem loadInto_eq_fault {ilen : Nat} {rd : RegNum} {addr : BitVec c.xlen} {n : Nat}
    {ext : BitVec (8 * n) → BitVec c.xlen} {e : Fault} :
    loadInto h ilen rd addr n ext = .fault e ↔ memRead h addr n = .fault e := by
  unfold loadInto
  rw [andThen_eq_fault]
  simp [writeReg]

/-- A store that completes. -/
theorem storeFrom_eq_next {ilen : Nat} {addr : BitVec c.xlen} {n : Nat} {v : BitVec c.xlen} :
    storeFrom h ilen addr n v = .next h' ↔
      addr.toNat % n = 0 ∧ permitted c h.memMap .write addr.toNat n = true ∧
        h' = (h.store addr.toNat n (v.setWidth (8 * n))).advance ilen := by
  unfold storeFrom
  rw [andThen_eq_next]
  simp [memWrite_eq_next, and_assoc, @eq_comm _ h']

theorem storeFrom_eq_fault {ilen : Nat} {addr : BitVec c.xlen} {n : Nat} {v : BitVec c.xlen} {e : Fault} :
    storeFrom h ilen addr n v = .fault e ↔ memWrite h addr n (v.setWidth (8 * n)) = .fault e := by
  unfold storeFrom
  rw [andThen_eq_fault]
  simp

/-- With IALIGN = 16 an even target is aligned (41_control_transfer R152). -/
theorem misalignedTarget_extC (hc : c.extC = true) {t : BitVec c.xlen} (ht : t.toNat % 2 = 0) :
    misalignedTarget c t = false := by
  simp [misalignedTarget, Isa.instrAlign, hc, ht]

theorem jumpAndLink_eq_next {ilen : Nat} {rd : RegNum} {t : BitVec c.xlen} :
    jumpAndLink h ilen rd t = .next h' ↔
      misalignedTarget c t = false ∧ h' = (h.setX rd (h.nextPc ilen)).setPc t := by
  unfold jumpAndLink
  split <;> simp_all [raise, @eq_comm _ h']

theorem jumpAndLink_eq_fault {ilen : Nat} {rd : RegNum} {t : BitVec c.xlen} {e : Fault} :
    jumpAndLink h ilen rd t = .fault e ↔
      misalignedTarget c t = true ∧ e = .trap (trapOf h .instructionAddressMisaligned t) := by
  unfold jumpAndLink
  split <;> simp_all [raise, trapOf, @eq_comm _ e]

theorem branchTo_eq_next {ilen : Nat} {taken : Bool} {t : BitVec c.xlen} :
    branchTo h ilen taken t = .next h' ↔
      (taken = false ∧ h' = h.advance ilen) ∨ (taken = true ∧ misalignedTarget c t = false ∧ h' = h.setPc t) := by
  unfold branchTo
  split
  · split <;> simp_all [raise, @eq_comm _ h']
  · simp_all [@eq_comm _ h']

theorem branchTo_eq_fault {ilen : Nat} {taken : Bool} {t : BitVec c.xlen} {e : Fault} :
    branchTo h ilen taken t = .fault e ↔
      taken = true ∧ misalignedTarget c t = true ∧ e = .trap (trapOf h .instructionAddressMisaligned t) := by
  unfold branchTo
  split
  · split <;> simp_all [raise, trapOf, @eq_comm _ e]
  · simp_all

end Sys2Proof.Machine
end

