-- ==== Sys2Proof/Laws/Exec.lean ====
section
/-! SUPPORT. What executing any instruction can do, said once: a next state is one register write with a new pc, or one
store with the pc advanced; a stop is a trap on the unchanged state or a read of an undefined byte. -/

namespace Sys2Proof.Machine

variable {c : Isa}

/-- One register written (x0 for none) and the pc set, to an aligned address if it was aligned. -/
def RegChange (h h' : Hart c) : Prop :=
  ∃ (rd : RegNum) (v t : BitVec c.xlen), h' = (h.setX rd v).setPc t ∧
    (misalignedTarget c h.pc = false → misalignedTarget c t = false)

/-- One permitted store and the pc advanced, to an aligned address if it was aligned. -/
def StoreChange (h h' : Hart c) : Prop :=
  ∃ (a n : Nat) (v : BitVec (8 * n)) (t : BitVec c.xlen), permitted c h.memMap .write a n = true ∧
    h' = (h.store a n v).setPc t ∧ (misalignedTarget c h.pc = false → misalignedTarget c t = false)

/-- Advancing by 4 keeps the alignment, and by 2 where IALIGN = 16. -/
theorem misalignedTarget_nextPc {h : Hart c} {ilen : Nat} (hi : ilen = 4 ∨ (ilen = 2 ∧ c.extC = true))
    (ha : misalignedTarget c h.pc = false) : misalignedTarget c (h.nextPc ilen) = false := by
  have key : ∀ (w : Nat) (p : BitVec w) (k l : Nat), k ∣ 2 ^ w → k ∣ l → p.toNat % k = 0 →
      (p + BitVec.ofNat w l).toNat % k = 0 := by
    intro w p k l hw hl hp
    rw [BitVec.toNat_add, BitVec.toNat_ofNat, Nat.add_mod_mod, Nat.mod_mod_of_dvd _ hw]
    exact Nat.mod_eq_zero_of_dvd (Nat.dvd_add (Nat.dvd_of_mod_eq_zero hp) hl)
  simp only [misalignedTarget, decide_eq_false_iff_not, ne_eq, not_not] at *
  refine key _ _ _ _ ?_ ?_ ha
  · cases c <;> decide
  · rcases hi with rfl | ⟨rfl, he⟩
    · cases c <;> decide
    · simp [Isa.instrAlign, he]

theorem regChange_advance {h : Hart c} {ilen : Nat} (hi : ilen = 4 ∨ (ilen = 2 ∧ c.extC = true)) :
    RegChange h (h.advance ilen) :=
  ⟨0, 0, h.nextPc ilen, by rw [Hart.setX_zero, Hart.advance], misalignedTarget_nextPc hi⟩

theorem regChange_setX_advance {h : Hart c} {ilen : Nat} (hi : ilen = 4 ∨ (ilen = 2 ∧ c.extC = true)) (rd : RegNum)
    (v : BitVec c.xlen) : RegChange h ((h.setX rd v).advance ilen) :=
  ⟨rd, v, h.nextPc ilen, by rw [Hart.advance, Hart.setX_nextPc], misalignedTarget_nextPc hi⟩

/-- What any instruction's rule can yield at a hart: for a next hart one register write or, for a storing instruction, one
store; for a stop a trap on the unchanged hart or a read of an undefined byte that may be read. -/
structure Sound (store : Bool) (h : Hart c) (r : HartResult c) : Prop where
  next : ∀ h', r = .next h' → RegChange h h' ∨ (store = true ∧ StoreChange h h')
  fault : ∀ e, r = .fault e → (∃ cause tval, e = .trap (trapOf h cause tval)) ∨
    ∃ a, e = .undefinedByte a ∧ h.byteAt a = none ∧ permitted c h.memMap .read a 1 = true
  refused : ∀ e, r ≠ .refused e

theorem sound_raise {b : Bool} {h : Hart c} {cause : Cause} {tval : BitVec c.xlen} : Sound b h (raise h cause tval) where
  next := by simp [raise]
  fault e he := .inl ⟨cause, tval, by simpa [raise, trapOf] using he.symm⟩
  refused := by simp [raise]

/-- A sixteen-bit or RV64I-only rule, under `whenLegal`. -/
theorem sound_whenLegal {b : Bool} {h : Hart c} {i : Instr} {r : HartResult c} (hr : i.wf c = true → Sound b h r) :
    Sound b h (whenLegal h i r) := by
  unfold whenLegal
  split
  · next hw => exact hr hw
  · exact sound_raise

theorem sound_writeReg {b : Bool} {h : Hart c} {ilen : Nat} {rd : RegNum} {v : BitVec c.xlen}
    (hi : ilen = 4 ∨ (ilen = 2 ∧ c.extC = true)) : Sound b h (writeReg h ilen rd v) where
  next h' hn := by
    rw [writeReg_eq_next.1 hn]
    exact .inl (regChange_setX_advance hi rd v)
  fault := by simp [writeReg]
  refused := by simp [writeReg]

theorem sound_advance {b : Bool} {h : Hart c} {ilen : Nat} (hi : ilen = 4 ∨ (ilen = 2 ∧ c.extC = true)) :
    Sound b h (.next (h.advance ilen)) where
  next h' hn := by
    injection hn with hn
    exact hn ▸ .inl (regChange_advance hi)
  fault := by simp
  refused := by simp

/-- The first undefined byte of n bytes that do not all have a value. -/
theorem firstUndefined_spec {m : Memory} {a n : Nat} (hv : Memory.readLE m a n = none) :
    ∃ i, i < n ∧ Memory.firstUndefined m a n = a + i ∧ Memory.read m (a + i) = none := by
  induction n generalizing a with
  | zero => simp [Memory.readLE] at hv
  | succ n ih =>
    unfold Memory.firstUndefined
    cases h0 : Memory.read m a with
    | none => exact ⟨0, by omega, by simp, by simpa using h0⟩
    | some b =>
      have hv' : Memory.readLE m (a + 1) n = none := by
        cases h1 : Memory.readLE m (a + 1) n with
        | none => rfl
        | some w => simp [Memory.readLE, h0, h1] at hv
      obtain ⟨i, hi, he, hr⟩ := ih hv'
      exact ⟨i + 1, by omega, by simp [he]; omega, by rw [show a + (i + 1) = a + 1 + i by omega]; exact hr⟩

theorem sound_loadInto {b : Bool} {h : Hart c} {ilen : Nat} {rd : RegNum} {addr : BitVec c.xlen} {n : Nat}
    {ext : BitVec (8 * n) → BitVec c.xlen} (hi : ilen = 4 ∨ (ilen = 2 ∧ c.extC = true)) :
    Sound b h (loadInto h ilen rd addr n ext) where
  next h' hn := by
    obtain ⟨v, -, -, -, rfl⟩ := loadInto_eq_next.1 hn
    exact .inl (regChange_setX_advance hi rd _)
  fault e he := by
    rcases memRead_eq_fault (loadInto_eq_fault.1 he) with ⟨-, rfl⟩ | ⟨-, -, rfl⟩ | ⟨-, hp, hv, rfl⟩
    · exact .inl ⟨_, _, rfl⟩
    · exact .inl ⟨_, _, rfl⟩
    · obtain ⟨i, hlt, he, hr⟩ := firstUndefined_spec hv
      rw [he]
      exact .inr ⟨_, rfl, hr, permitted_byte hp hlt⟩
  refused e he := by
    rcases andThen_eq_refused.1 he with h1 | ⟨v, -, h1⟩
    · exact memRead_ne_refused h1
    · simp [writeReg] at h1

theorem sound_storeFrom {h : Hart c} {ilen : Nat} {addr : BitVec c.xlen} {n : Nat} {v : BitVec c.xlen}
    (hi : ilen = 4 ∨ (ilen = 2 ∧ c.extC = true)) : Sound true h (storeFrom h ilen addr n v) where
  next h' hn := by
    obtain ⟨-, hp, rfl⟩ := storeFrom_eq_next.1 hn
    exact .inr ⟨rfl, _, n, _, h.nextPc ilen, hp, rfl, misalignedTarget_nextPc hi⟩
  fault e he := by
    rcases memWrite_eq_fault (storeFrom_eq_fault.1 he) with ⟨-, rfl⟩ | ⟨-, -, rfl⟩ <;> exact .inl ⟨_, _, rfl⟩
  refused e he := by
    rcases andThen_eq_refused.1 he with h1 | ⟨v, -, h1⟩
    · exact memWrite_ne_refused h1
    · simp at h1

theorem sound_jumpAndLink {b : Bool} {h : Hart c} {ilen : Nat} {rd : RegNum} {t : BitVec c.xlen} :
    Sound b h (jumpAndLink h ilen rd t) where
  next h' hn := by
    obtain ⟨ht, rfl⟩ := jumpAndLink_eq_next.1 hn
    exact .inl ⟨rd, _, t, rfl, fun _ => ht⟩
  fault e he := .inl ⟨_, _, (jumpAndLink_eq_fault.1 he).2⟩
  refused e := by
    unfold jumpAndLink
    split <;> simp [raise]

theorem sound_branchTo {b : Bool} {h : Hart c} {ilen : Nat} {taken : Bool} {t : BitVec c.xlen}
    (hi : ilen = 4 ∨ (ilen = 2 ∧ c.extC = true)) : Sound b h (branchTo h ilen taken t) where
  next h' hn := by
    rcases branchTo_eq_next.1 hn with ⟨-, rfl⟩ | ⟨-, ht, rfl⟩
    · exact .inl (regChange_advance hi)
    · exact .inl ⟨0, 0, t, by rw [Hart.setX_zero], fun _ => ht⟩
  fault e he := .inl ⟨_, _, (branchTo_eq_fault.1 he).2.2⟩
  refused e := by
    unfold branchTo
    split
    · split <;> simp [raise]
    · simp

theorem extC_of_wf {i : Instr} (hf : i.family = .compressed) (hw : i.wf c = true) : c.extC = true := by
  simp only [Instr.wf, hf, Family.enabled, Bool.and_eq_true] at hw
  exact hw.1

/-- Executing an instruction runs one rule at the hart, and the rule is sound. -/
theorem exec_sound (i : Instr) (h : Hart c) :
    ∃ r : HartResult c, exec i { isa := c, hart := h } = andThen r (fun h' => .next { isa := c, hart := h' }) ∧
      Sound (isStore i) h r := by
  cases i
  all_goals
    simp only [exec, execLui, execAuipc, execJal, execJalr, execBeq, execBne, execBlt, execBge, execBltu, execBgeu,
      execLb, execLh, execLw, execLbu, execLhu, execSb, execSh, execSw, execAddi, execSlti, execSltiu,
      execXori, execOri, execAndi, execSlli, execSrli, execSrai, execAdd, execSub, execSll, execSlt, execSltu,
      execXor, execSrl, execSra, execOr, execAnd, execFence, execEcall, execEbreak, execLwu, execLd, execSd,
      execAddiw, execSlliw, execSrliw, execSraiw, execAddw, execSubw, execSllw, execSrlw, execSraw,
      execCIllegal, execCAddi4spn, execCFld, execCLw, execCFlw, execCFsd, execCSw, execCFsw, execCNop,
      execCAddi, execCJal, execCLi, execCAddi16sp, execCLui, execCSrli, execCSrai, execCAndi, execCSub,
      execCXor, execCOr, execCAnd, execCJ, execCBeqz, execCBnez, execCSlli64, execCSlli, execCFldsp,
      execCLwsp, execCFlwsp, execCJr, execCMv, execCEbreak, execCJalr, execCAdd, execCFsdsp, execCSwsp,
      execCFswsp, atHart_mk]
    refine ⟨_, rfl, ?_⟩
    first
      | exact sound_writeReg (.inl rfl)
      | exact sound_whenLegal fun _ => sound_writeReg (.inl rfl)
      | exact sound_whenLegal fun hw => sound_writeReg (.inr ⟨rfl, extC_of_wf rfl hw⟩)
      | exact sound_jumpAndLink
      | exact sound_whenLegal fun _ => sound_jumpAndLink
      | exact sound_branchTo (.inl rfl)
      | exact sound_whenLegal fun hw => sound_branchTo (.inr ⟨rfl, extC_of_wf rfl hw⟩)
      | exact sound_loadInto (.inl rfl)
      | exact sound_whenLegal fun _ => sound_loadInto (.inl rfl)
      | exact sound_whenLegal fun hw => sound_loadInto (.inr ⟨rfl, extC_of_wf rfl hw⟩)
      | exact sound_storeFrom (.inl rfl)
      | exact sound_whenLegal fun _ => sound_storeFrom (.inl rfl)
      | exact sound_whenLegal fun hw => sound_storeFrom (.inr ⟨rfl, extC_of_wf rfl hw⟩)
      | exact sound_advance (.inl rfl)
      | exact sound_raise
      | exact sound_whenLegal fun _ => sound_raise

/-- A next state of an instruction: the configuration is kept, and one register write or, for a store, one store. -/
theorem exec_next_cases {i : Instr} {h : Hart c} {t : State} (hn : exec i { isa := c, hart := h } = .next t) :
    ∃ h', t = { isa := c, hart := h' } ∧ (RegChange h h' ∨ (isStore i = true ∧ StoreChange h h')) := by
  obtain ⟨r, he, hs⟩ := exec_sound i h
  obtain ⟨h', hr, ht⟩ := andThen_eq_next.1 (he.symm.trans hn)
  injection ht with ht
  exact ⟨h', ht.symm, hs.next h' hr⟩

/-- A stop of an instruction: a trap on the unchanged state, or a read of an undefined byte. -/
theorem exec_fault_cases {i : Instr} {h : Hart c} {e : Fault} (hn : exec i { isa := c, hart := h } = .fault e) :
    (∃ cause tval, e = .trap (trapOf h cause tval)) ∨
      ∃ a, e = .undefinedByte a ∧ h.byteAt a = none ∧ permitted c h.memMap .read a 1 = true := by
  obtain ⟨r, he, hs⟩ := exec_sound i h
  rcases andThen_eq_fault.1 (he.symm.trans hn) with h1 | ⟨h', -, h1⟩
  · exact hs.fault e h1
  · simp at h1

/-- No instruction is refused. -/
theorem exec_ne_refused {i : Instr} {h : Hart c} {e : Refusal} : exec i { isa := c, hart := h } ≠ .refused e := by
  intro hn
  obtain ⟨r, he, hs⟩ := exec_sound i h
  rcases andThen_eq_refused.1 (he.symm.trans hn) with h1 | ⟨h', -, h1⟩
  · exact hs.refused e h1
  · simp at h1

end Sys2Proof.Machine
end

