-- ==== Sys2Proof/Laws/PerInstr.lean ====
section
/-! SUPPORT. Per instruction: decoding the word of a well-formed instruction gives the instruction back
(spec/30_encoding.md R84, R95, R96). -/

-- One lemma after the other: in parallel their number exhausts the threads of the check.
set_option Elab.async false

namespace Sys2Proof.Laws.RoundTrip

/-- `decode` undoes `encode` on `i`, in every configuration in which `i` is well-formed. -/
def Statement (i : Instr) : Prop := ∀ c : Isa, i.wf c = true → decode c (encode i) = .ok i

/-- A well-formed instruction whose word matches its own row decodes to itself. -/
theorem of_row {i : Instr} (h : ∀ c : Isa, i.wf c = true → decodeRow (encode i) = some i) : Statement i := by
  intro c hw
  have hr := h c hw
  simp only [Instr.wf, Bool.and_eq_true] at hw
  simp [decode, hr, hw]


theorem lui (rd imm31_12) : Statement (.lui rd imm31_12) := of_row fun c hw => by
  simp [decodeRow, encode, decode32, encU_fields]

theorem auipc (rd imm31_12) : Statement (.auipc rd imm31_12) := of_row fun c hw => by
  simp [decodeRow, encode, decode32, encU_fields]

theorem jal (rd imm20_1) : Statement (.jal rd imm20_1) := of_row fun c hw => by
  simp [decodeRow, encode, decode32, encJ_fields]

theorem jalr (rd rs1 imm) : Statement (.jalr rd rs1 imm) := of_row fun c hw => by
  simp [decodeRow, encode, decode32, encI_fields]

theorem beq (rs1 rs2 imm12_1) : Statement (.beq rs1 rs2 imm12_1) := of_row fun c hw => by
  simp [decodeRow, encode, decode32, encB_fields, decodeBranch]

theorem bne (rs1 rs2 imm12_1) : Statement (.bne rs1 rs2 imm12_1) := of_row fun c hw => by
  simp [decodeRow, encode, decode32, encB_fields, decodeBranch]

theorem blt (rs1 rs2 imm12_1) : Statement (.blt rs1 rs2 imm12_1) := of_row fun c hw => by
  simp [decodeRow, encode, decode32, encB_fields, decodeBranch]

theorem bge (rs1 rs2 imm12_1) : Statement (.bge rs1 rs2 imm12_1) := of_row fun c hw => by
  simp [decodeRow, encode, decode32, encB_fields, decodeBranch]

theorem bltu (rs1 rs2 imm12_1) : Statement (.bltu rs1 rs2 imm12_1) := of_row fun c hw => by
  simp [decodeRow, encode, decode32, encB_fields, decodeBranch]

theorem bgeu (rs1 rs2 imm12_1) : Statement (.bgeu rs1 rs2 imm12_1) := of_row fun c hw => by
  simp [decodeRow, encode, decode32, encB_fields, decodeBranch]

theorem lb (rd rs1 imm) : Statement (.lb rd rs1 imm) := of_row fun c hw => by
  simp [decodeRow, encode, decode32, encI_fields, decodeLoad]

theorem lh (rd rs1 imm) : Statement (.lh rd rs1 imm) := of_row fun c hw => by
  simp [decodeRow, encode, decode32, encI_fields, decodeLoad]

theorem lw (rd rs1 imm) : Statement (.lw rd rs1 imm) := of_row fun c hw => by
  simp [decodeRow, encode, decode32, encI_fields, decodeLoad]

theorem lbu (rd rs1 imm) : Statement (.lbu rd rs1 imm) := of_row fun c hw => by
  simp [decodeRow, encode, decode32, encI_fields, decodeLoad]

theorem lhu (rd rs1 imm) : Statement (.lhu rd rs1 imm) := of_row fun c hw => by
  simp [decodeRow, encode, decode32, encI_fields, decodeLoad]

theorem sb (rs1 rs2 imm) : Statement (.sb rs1 rs2 imm) := of_row fun c hw => by
  simp [decodeRow, encode, decode32, encS_fields, decodeStore]

theorem sh (rs1 rs2 imm) : Statement (.sh rs1 rs2 imm) := of_row fun c hw => by
  simp [decodeRow, encode, decode32, encS_fields, decodeStore]

theorem sw (rs1 rs2 imm) : Statement (.sw rs1 rs2 imm) := of_row fun c hw => by
  simp [decodeRow, encode, decode32, encS_fields, decodeStore]

theorem addi (rd rs1 imm) : Statement (.addi rd rs1 imm) := of_row fun c hw => by
  simp [decodeRow, encode, decode32, encI_fields, decodeOpImm]

theorem slti (rd rs1 imm) : Statement (.slti rd rs1 imm) := of_row fun c hw => by
  simp [decodeRow, encode, decode32, encI_fields, decodeOpImm]

theorem sltiu (rd rs1 imm) : Statement (.sltiu rd rs1 imm) := of_row fun c hw => by
  simp [decodeRow, encode, decode32, encI_fields, decodeOpImm]

theorem xori (rd rs1 imm) : Statement (.xori rd rs1 imm) := of_row fun c hw => by
  simp [decodeRow, encode, decode32, encI_fields, decodeOpImm]

theorem ori (rd rs1 imm) : Statement (.ori rd rs1 imm) := of_row fun c hw => by
  simp [decodeRow, encode, decode32, encI_fields, decodeOpImm]

theorem andi (rd rs1 imm) : Statement (.andi rd rs1 imm) := of_row fun c hw => by
  simp [decodeRow, encode, decode32, encI_fields, decodeOpImm]

theorem slli (rd rs1 shamt) : Statement (.slli rd rs1 shamt) := of_row fun c hw => by
  simp [decodeRow, encode, decode32, encShift_fields, decodeOpImm]

theorem srli (rd rs1 shamt) : Statement (.srli rd rs1 shamt) := of_row fun c hw => by
  simp [decodeRow, encode, decode32, encShift_fields, decodeOpImm]

theorem srai (rd rs1 shamt) : Statement (.srai rd rs1 shamt) := of_row fun c hw => by
  simp [decodeRow, encode, decode32, encShift_fields, decodeOpImm]

theorem add (rd rs1 rs2) : Statement (.add rd rs1 rs2) := of_row fun c hw => by
  simp [decodeRow, encode, decode32, encR_fields, decodeOp]

theorem sub (rd rs1 rs2) : Statement (.sub rd rs1 rs2) := of_row fun c hw => by
  simp [decodeRow, encode, decode32, encR_fields, decodeOp]

theorem sll (rd rs1 rs2) : Statement (.sll rd rs1 rs2) := of_row fun c hw => by
  simp [decodeRow, encode, decode32, encR_fields, decodeOp]

theorem slt (rd rs1 rs2) : Statement (.slt rd rs1 rs2) := of_row fun c hw => by
  simp [decodeRow, encode, decode32, encR_fields, decodeOp]

theorem sltu (rd rs1 rs2) : Statement (.sltu rd rs1 rs2) := of_row fun c hw => by
  simp [decodeRow, encode, decode32, encR_fields, decodeOp]

theorem xor (rd rs1 rs2) : Statement (.xor rd rs1 rs2) := of_row fun c hw => by
  simp [decodeRow, encode, decode32, encR_fields, decodeOp]

theorem srl (rd rs1 rs2) : Statement (.srl rd rs1 rs2) := of_row fun c hw => by
  simp [decodeRow, encode, decode32, encR_fields, decodeOp]

theorem sra (rd rs1 rs2) : Statement (.sra rd rs1 rs2) := of_row fun c hw => by
  simp [decodeRow, encode, decode32, encR_fields, decodeOp]

theorem or (rd rs1 rs2) : Statement (.or rd rs1 rs2) := of_row fun c hw => by
  simp [decodeRow, encode, decode32, encR_fields, decodeOp]

theorem and (rd rs1 rs2) : Statement (.and rd rs1 rs2) := of_row fun c hw => by
  simp [decodeRow, encode, decode32, encR_fields, decodeOp]

theorem fence (rd rs1 fm pred succ) : Statement (.fence rd rs1 fm pred succ) := of_row fun c hw => by
  simp [decodeRow, encode, decode32, encFence_fields]

theorem ecall : Statement .ecall := of_row fun c _ => by decide

theorem ebreak : Statement .ebreak := of_row fun c _ => by decide

theorem lwu (rd rs1 imm) : Statement (.lwu rd rs1 imm) := of_row fun c hw => by
  simp [decodeRow, encode, decode32, encI_fields, decodeLoad]

theorem ld (rd rs1 imm) : Statement (.ld rd rs1 imm) := of_row fun c hw => by
  simp [decodeRow, encode, decode32, encI_fields, decodeLoad]

theorem sd (rs1 rs2 imm) : Statement (.sd rs1 rs2 imm) := of_row fun c hw => by
  simp [decodeRow, encode, decode32, encS_fields, decodeStore]

theorem addiw (rd rs1 imm) : Statement (.addiw rd rs1 imm) := of_row fun c hw => by
  simp [decodeRow, encode, decode32, encI_fields, decodeOpImm32]

theorem slliw (rd rs1 shamt) : Statement (.slliw rd rs1 shamt) := of_row fun c hw => by
  simp [decodeRow, encode, decode32, encR_fields, decodeOpImm32]

theorem srliw (rd rs1 shamt) : Statement (.srliw rd rs1 shamt) := of_row fun c hw => by
  simp [decodeRow, encode, decode32, encR_fields, decodeOpImm32]

theorem sraiw (rd rs1 shamt) : Statement (.sraiw rd rs1 shamt) := of_row fun c hw => by
  simp [decodeRow, encode, decode32, encR_fields, decodeOpImm32]

theorem addw (rd rs1 rs2) : Statement (.addw rd rs1 rs2) := of_row fun c hw => by
  simp [decodeRow, encode, decode32, encR_fields, decodeOp32]

theorem subw (rd rs1 rs2) : Statement (.subw rd rs1 rs2) := of_row fun c hw => by
  simp [decodeRow, encode, decode32, encR_fields, decodeOp32]

theorem sllw (rd rs1 rs2) : Statement (.sllw rd rs1 rs2) := of_row fun c hw => by
  simp [decodeRow, encode, decode32, encR_fields, decodeOp32]

theorem srlw (rd rs1 rs2) : Statement (.srlw rd rs1 rs2) := of_row fun c hw => by
  simp [decodeRow, encode, decode32, encR_fields, decodeOp32]

theorem sraw (rd rs1 rs2) : Statement (.sraw rd rs1 rs2) := of_row fun c hw => by
  simp [decodeRow, encode, decode32, encR_fields, decodeOp32]

theorem cIllegal : Statement .cIllegal := of_row fun c _ => by decide

theorem cAddi4spn (rd' nzuimm9_2) : Statement (.cAddi4spn rd' nzuimm9_2) := of_row fun c hw => by
  simp [Instr.wf, Instr.fieldsOk] at hw
  have hz : encAddi4spn nzuimm9_2 rd' ≠ 0 := fun e => hw.2 (by rw [← (encAddi4spn_fields nzuimm9_2 rd').2.2.2, e]; decide)
  simp [decodeRow, encode, decode16, encAddi4spn_fields, decodeQuadrant0]
  exact hz

theorem cFld (rd' rs1' uimm7_3) : Statement (.cFld rd' rs1' uimm7_3) := of_row fun c hw => by
  simp [decodeRow, encode, decode16, encDoubleOff_fields, decodeQuadrant0]

theorem cLw (rd' rs1' uimm6_2) : Statement (.cLw rd' rs1' uimm6_2) := of_row fun c hw => by
  simp [decodeRow, encode, decode16, encWordOff_fields, decodeQuadrant0]

theorem cFlw (rd' rs1' uimm6_2) : Statement (.cFlw rd' rs1' uimm6_2) := of_row fun c hw => by
  simp [decodeRow, encode, decode16, encWordOff_fields, decodeQuadrant0]

theorem cFsd (rs1' rs2' uimm7_3) : Statement (.cFsd rs1' rs2' uimm7_3) := of_row fun c hw => by
  simp [decodeRow, encode, decode16, encDoubleOff_fields, decodeQuadrant0]

theorem cSw (rs1' rs2' uimm6_2) : Statement (.cSw rs1' rs2' uimm6_2) := of_row fun c hw => by
  simp [decodeRow, encode, decode16, encWordOff_fields, decodeQuadrant0]

theorem cFsw (rs1' rs2' uimm6_2) : Statement (.cFsw rs1' rs2' uimm6_2) := of_row fun c hw => by
  simp [decodeRow, encode, decode16, encWordOff_fields, decodeQuadrant0]

theorem cNop (imm) : Statement (.cNop imm) := of_row fun c hw => by
  simp [decodeRow, encode, decode16, encCI_fields, decodeQuadrant1]

theorem cAddi (rd imm) : Statement (.cAddi rd imm) := of_row fun c hw => by
  simp [Instr.wf, Instr.fieldsOk] at hw
  simp [decodeRow, encode, decode16, encCI_fields, decodeQuadrant1, hw]

theorem cJal (imm11_1) : Statement (.cJal imm11_1) := of_row fun c hw => by
  simp [decodeRow, encode, decode16, encCJ_fields, decodeQuadrant1]

theorem cLi (rd imm) : Statement (.cLi rd imm) := of_row fun c hw => by
  simp [decodeRow, encode, decode16, encCI_fields, decodeQuadrant1]

theorem cAddi16sp (nzimm9_4) : Statement (.cAddi16sp nzimm9_4) := of_row fun c hw => by
  simp [decodeRow, encode, decode16, encAddi16sp_fields, decodeQuadrant1]

theorem cLui (rd nzimm17_12) : Statement (.cLui rd nzimm17_12) := of_row fun c hw => by
  simp [Instr.wf, Instr.fieldsOk] at hw
  simp [decodeRow, encode, decode16, encCI_fields, decodeQuadrant1, hw]

theorem cSrli (rd' shamt) : Statement (.cSrli rd' shamt) := of_row fun c hw => by
  simp [decodeRow, encode, decode16, encCBImm_fields, decodeQuadrant1, decodeQuadrant1Alu]

theorem cSrai (rd' shamt) : Statement (.cSrai rd' shamt) := of_row fun c hw => by
  simp [decodeRow, encode, decode16, encCBImm_fields, decodeQuadrant1, decodeQuadrant1Alu]

theorem cAndi (rd' imm) : Statement (.cAndi rd' imm) := of_row fun c hw => by
  simp [decodeRow, encode, decode16, encCBImm_fields, decodeQuadrant1, decodeQuadrant1Alu]

theorem cSub (rd' rs2') : Statement (.cSub rd' rs2') := of_row fun c hw => by
  simp [decodeRow, encode, decode16, encCA_fields, decodeQuadrant1, decodeQuadrant1Alu]

theorem cXor (rd' rs2') : Statement (.cXor rd' rs2') := of_row fun c hw => by
  simp [decodeRow, encode, decode16, encCA_fields, decodeQuadrant1, decodeQuadrant1Alu]

theorem cOr (rd' rs2') : Statement (.cOr rd' rs2') := of_row fun c hw => by
  simp [decodeRow, encode, decode16, encCA_fields, decodeQuadrant1, decodeQuadrant1Alu]

theorem cAnd (rd' rs2') : Statement (.cAnd rd' rs2') := of_row fun c hw => by
  simp [decodeRow, encode, decode16, encCA_fields, decodeQuadrant1, decodeQuadrant1Alu]

theorem cJ (imm11_1) : Statement (.cJ imm11_1) := of_row fun c hw => by
  simp [decodeRow, encode, decode16, encCJ_fields, decodeQuadrant1]

theorem cBeqz (rs1' imm8_1) : Statement (.cBeqz rs1' imm8_1) := of_row fun c hw => by
  simp [decodeRow, encode, decode16, encCB_fields, decodeQuadrant1]

theorem cBnez (rs1' imm8_1) : Statement (.cBnez rs1' imm8_1) := of_row fun c hw => by
  simp [decodeRow, encode, decode16, encCB_fields, decodeQuadrant1]

theorem cSlli64 (rd) : Statement (.cSlli64 rd) := of_row fun c hw => by
  simp [decodeRow, encode, decode16, encCI_fields, decodeQuadrant2]

theorem cSlli (rd shamt) : Statement (.cSlli rd shamt) := of_row fun c hw => by
  simp [Instr.wf, Instr.fieldsOk] at hw
  simp [decodeRow, encode, decode16, encCI_fields, decodeQuadrant2, hw]

theorem cFldsp (rd uimm8_3) : Statement (.cFldsp rd uimm8_3) := of_row fun c hw => by
  simp [decodeRow, encode, decode16, encFldsp_fields, decodeQuadrant2]

theorem cLwsp (rd uimm7_2) : Statement (.cLwsp rd uimm7_2) := of_row fun c hw => by
  simp [decodeRow, encode, decode16, encLwsp_fields, decodeQuadrant2]

theorem cFlwsp (rd uimm7_2) : Statement (.cFlwsp rd uimm7_2) := of_row fun c hw => by
  simp [decodeRow, encode, decode16, encLwsp_fields, decodeQuadrant2]

theorem cJr (rs1) : Statement (.cJr rs1) := of_row fun c hw => by
  simp [decodeRow, encode, decode16, encCR_fields, decodeQuadrant2, decodeQuadrant2Reg]

theorem cMv (rd rs2) : Statement (.cMv rd rs2) := of_row fun c hw => by
  simp [Instr.wf, Instr.fieldsOk] at hw
  simp [decodeRow, encode, decode16, encCR_fields, decodeQuadrant2, decodeQuadrant2Reg, hw]

theorem cEbreak : Statement .cEbreak := of_row fun c _ => by decide

theorem cJalr (rs1) : Statement (.cJalr rs1) := of_row fun c hw => by
  simp [Instr.wf, Instr.fieldsOk] at hw
  simp [decodeRow, encode, decode16, encCR_fields, decodeQuadrant2, decodeQuadrant2Reg, hw]

theorem cAdd (rd rs2) : Statement (.cAdd rd rs2) := of_row fun c hw => by
  simp [Instr.wf, Instr.fieldsOk] at hw
  simp [decodeRow, encode, decode16, encCR_fields, decodeQuadrant2, decodeQuadrant2Reg, hw]

theorem cFsdsp (rs2 uimm8_3) : Statement (.cFsdsp rs2 uimm8_3) := of_row fun c hw => by
  simp [decodeRow, encode, decode16, encFsdsp_fields, decodeQuadrant2]

theorem cSwsp (rs2 uimm7_2) : Statement (.cSwsp rs2 uimm7_2) := of_row fun c hw => by
  simp [decodeRow, encode, decode16, encSwsp_fields, decodeQuadrant2]

theorem cFswsp (rs2 uimm7_2) : Statement (.cFswsp rs2 uimm7_2) := of_row fun c hw => by
  simp [decodeRow, encode, decode16, encSwsp_fields, decodeQuadrant2]

end Sys2Proof.Laws.RoundTrip
end

