-- ==== Sys2Proof/Laws/Safety.lean ====
section
/-! SUPPORT. The invariant under the two changes an instruction can make, and what fetch can yield
(spec/20_memory.md R47, R58). -/

namespace Sys2Proof.Machine

variable {c : Isa}

/-! ### The invariant -/

theorem inv_regChange {h h' : Hart c} (hi : h.Inv) (hc : RegChange h h') : h'.Inv := by
  obtain ⟨rd, v, t, rfl, ht⟩ := hc
  exact
    { pcAligned := ht hi.pcAligned
      memRising := by simpa using hi.memRising
      memInside := by simpa using hi.memInside
      mapOk := by simpa using hi.mapOk
      storedRising := by simpa using hi.storedRising
      storedWritten := by simpa using hi.storedWritten }

theorem inv_storeChange {h h' : Hart c} (hi : h.Inv) (hc : StoreChange h h') : h'.Inv := by
  obtain ⟨a, n, v, t, hp, rfl, ht⟩ := hc
  refine
    { pcAligned := ht hi.pcAligned
      memRising := Memory.writeLE_wf hi.memRising a n v
      memInside := ?_
      mapOk := hi.mapOk
      storedRising := insertAddrs_rising hi.storedRising a n
      storedWritten := ?_ }
  · intro p hm
    rcases Memory.mem_writeLE hm with h1 | h1
    · have := permitted_inside hp
      omega
    · exact hi.memInside p h1
  · intro k hk
    rcases mem_insertAddrs.1 hk with h1 | h1
    · obtain ⟨i, rfl⟩ : ∃ i, k = a + i := ⟨k - a, by omega⟩
      refine ⟨?_, permitted_byte hp (by omega)⟩
      show (Memory.read (Memory.writeLE h.mem a n v) (a + i)).isSome = true
      rw [Memory.read_writeLE_inside _ _ _ _ _ (by omega)]
      rfl
    · refine ⟨?_, (hi.storedWritten k h1).2⟩
      show (Memory.read (Memory.writeLE h.mem a n v) k).isSome = true
      rw [Memory.isSome_read_writeLE]
      simp only [Bool.or_eq_true]
      exact .inr (hi.storedWritten k h1).1

/-! ### Fetch -/

theorem fetchByte_eq_next {h : Hart c} {a : Nat} {b : Byte} :
    fetchByte h a = .next b ↔ a ∉ h.stored ∧ h.byteAt a = some b := by
  unfold fetchByte
  split
  · simp_all
  · split <;> simp_all

theorem fetchByte_eq_refused {h : Hart c} {a : Nat} {e : Refusal} :
    fetchByte h a = .refused e ↔ a ∈ h.stored ∧ e = .fetchOfStoredByte a := by
  unfold fetchByte
  split
  · simp_all [@eq_comm _ e]
  · split <;> simp_all

theorem fetchByte_eq_fault {h : Hart c} {a : Nat} {e : Fault} :
    fetchByte h a = .fault e ↔ a ∉ h.stored ∧ h.byteAt a = none ∧ e = .undefinedByte a := by
  unfold fetchByte
  split
  · simp_all
  · split <;> simp_all [@eq_comm _ e]

theorem fetchParcel_eq_next {h : Hart c} {a : Nat} {p : Parcel} :
    fetchParcel h a = .next p ↔ permitted c h.memMap .execute a 2 = true ∧
      ∃ b0 b1, fetchByte h a = .next b0 ∧ fetchByte h (a + 1) = .next b1 ∧ p = parcelOf b0 b1 := by
  unfold fetchParcel
  split
  · next hp => simp [andThen_eq_next, hp, @eq_comm _ p]
  · next hp => simp [raise, hp]

/-- A parcel of bytes that may be executed, have not been stored to and hold values. -/
theorem fetchParcel_of {h : Hart c} {a : Nat} {b0 b1 : Byte} (hp : permitted c h.memMap .execute a 2 = true)
    (s0 : a ∉ h.stored) (s1 : a + 1 ∉ h.stored) (h0 : h.byteAt a = some b0) (h1 : h.byteAt (a + 1) = some b1) :
    fetchParcel h a = .next (parcelOf b0 b1) :=
  fetchParcel_eq_next.2 ⟨hp, b0, b1, fetchByte_eq_next.2 ⟨s0, h0⟩, fetchByte_eq_next.2 ⟨s1, h1⟩, rfl⟩

/-- What stops the fetch of a parcel with a fault. -/
theorem fetchParcel_eq_fault {h : Hart c} {a : Nat} {e : Fault} (he : fetchParcel h a = .fault e) :
    (permitted c h.memMap .execute a 2 = false ∧ e = .trap (trapOf h .instructionAccessFault (BitVec.ofNat c.xlen a))) ∨
    (permitted c h.memMap .execute a 2 = true ∧ ∃ k, (k = a ∨ k = a + 1) ∧ h.byteAt k = none ∧ e = .undefinedByte k) := by
  unfold fetchParcel at he
  split at he
  · next hp =>
    refine .inr ⟨hp, ?_⟩
    rcases andThen_eq_fault.1 he with h0 | ⟨b0, -, h0⟩
    · obtain ⟨-, h1, h2⟩ := fetchByte_eq_fault.1 h0
      exact ⟨a, .inl rfl, h1, h2⟩
    · rcases andThen_eq_fault.1 h0 with h0 | ⟨b1, -, h0⟩
      · obtain ⟨-, h1, h2⟩ := fetchByte_eq_fault.1 h0
        exact ⟨a + 1, .inr rfl, h1, h2⟩
      · simp at h0
  · next hp => exact .inl ⟨by simpa using hp, by simpa [raise, trapOf] using he.symm⟩

/-- The fetch of a parcel is refused only for a stored byte that may be executed. -/
theorem fetchParcel_eq_refused {h : Hart c} {a : Nat} {e : Refusal} (he : fetchParcel h a = .refused e) :
    permitted c h.memMap .execute a 2 = true ∧ ∃ k, (k = a ∨ k = a + 1) ∧ k ∈ h.stored ∧ e = .fetchOfStoredByte k := by
  unfold fetchParcel at he
  split at he
  · next hp =>
    refine ⟨hp, ?_⟩
    rcases andThen_eq_refused.1 he with h0 | ⟨b0, -, h0⟩
    · obtain ⟨h1, h2⟩ := fetchByte_eq_refused.1 h0
      exact ⟨a, .inl rfl, h1, h2⟩
    · rcases andThen_eq_refused.1 h0 with h0 | ⟨b1, -, h0⟩
      · obtain ⟨h1, h2⟩ := fetchByte_eq_refused.1 h0
        exact ⟨a + 1, .inr rfl, h1, h2⟩
      · simp at h0
  · simp [raise] at he

/-- A fetched word is made of the parcels at the pc. -/
theorem fetch_eq_next {h : Hart c} {w : InstrWord} :
    fetch h = .next w ↔ misalignedTarget c h.pc = false ∧ ∃ p0, fetchParcel h h.pc.toNat = .next p0 ∧
      ((isLong p0 = false ∧ w = .short p0) ∨
       (isLong p0 = true ∧ ∃ p1, fetchParcel h (h.pc.toNat + 2) = .next p1 ∧ w = .long (p1 ++ p0))) := by
  unfold fetch
  split
  · simp_all [raise]
  · next ha =>
    simp only [Bool.not_eq_true] at ha
    simp only [ha, true_and, andThen_eq_next]
    refine exists_congr fun p0 => and_congr_right fun _ => ?_
    split
    · next hl => simp [hl, andThen_eq_next, @eq_comm _ w]
    · next hl => simp [hl, @eq_comm _ w]

/-- A step runs the fetched word. -/
theorem step_eq (s : State) : step s = andThen (fetch s.hart) (runWord s) := rfl

theorem step_of_fetch {s : State} {w : InstrWord} (hf : fetch s.hart = .next w) : step s = runWord s w := by
  rw [step_eq, hf, andThen_next]

theorem runWord_of_decode {s : State} {w : InstrWord} {i : Instr} (hd : decode s.isa w = .ok i) :
    runWord s w = exec i s := by
  simp [runWord, hd]

end Sys2Proof.Machine
end

