-- ==== Sys2Proof/Tests/Slice0.lean ====
section
/-! SUPPORT. The model's own tests: the checks of WellFormed refuse ill-formed terms; for each instruction one word of
spec/95_test_vectors.md, its operands written out from the vector's assembly text, with the vector's outcome of one step;
and for each obligation with hypotheses a concrete witness that meets them. -/

set_option Elab.async false

namespace Sys2Proof.Tests

open Sys2Proof.Machine Sys2Proof.Claims

/-! ### Well-formedness refuses -/

theorem test_wf_word_on_rv32 : Instr.wf .rv32i (.addw 1 2 3) = false ∧ Instr.wf .rv32ic (.ld 1 2 0) = false := by decide
theorem test_wf_short_without_c : Instr.wf .rv32i (.cNop 0) = false ∧ Instr.wf .rv64i .cEbreak = false := by decide
theorem test_wf_shift_amount :
    Instr.wf .rv32i (.slli 1 2 32) = false ∧ Instr.wf .rv32i (.srli 1 2 32) = false ∧
    Instr.wf .rv32ic (.srai 1 2 63) = false ∧ Instr.wf .rv64i (.slli 1 2 63) = true := by decide
theorem test_wf_c_shift_amount :
    Instr.wf .rv32ic (.cSrli 0 32) = false ∧ Instr.wf .rv32ic (.cSrai 0 32) = false ∧
    Instr.wf .rv32ic (.cSlli 1 32) = false ∧ Instr.wf .rv32ic (.cSlli 1 0) = false := by decide
theorem test_wf_zero_immediate :
    Instr.wf .rv32ic (.cAddi4spn 0 0) = false ∧ Instr.wf .rv32ic (.cAddi16sp 0) = false ∧
    Instr.wf .rv32ic (.cLui 1 0) = false := by decide
theorem test_wf_register_of_another_row :
    Instr.wf .rv32ic (.cAddi 0 1) = false ∧ Instr.wf .rv32ic (.cLui 2 1) = false ∧
    Instr.wf .rv32ic (.cMv 1 0) = false ∧ Instr.wf .rv32ic (.cAdd 1 0) = false ∧
    Instr.wf .rv32ic (.cJalr 0) = false := by decide
theorem test_wf_reserved_register :
    Instr.wf .rv32ic (.cLwsp 0 1) = false ∧ Instr.wf .rv32ic (.cJr 0) = false := by decide

/-! ### The states of the vectors -/

/-- The memory map of 95_test_vectors: one region, base 0, size 0x100000, all permissions. -/
def vectorMap : MemMap := [{ base := 0, size := 0x100000, r := true, w := true, x := true }]

/-- The data bytes of 95_test_vectors' load and store vectors. -/
def vectorData : Memory :=
  [(0x2000, 0x78), (0x2001, 0x56), (0x2002, 0x34), (0x2003, 0x92), (0x2004, 0x80), (0x2005, 0x7F), (0x2006, 0xFF),
   (0x2007, 0x01)]

/-- A hart in a map, with a word at its pc, some registers and the data bytes. -/
def hartAt (m : MemMap) (c : Isa) (pc : Nat) (w : InstrWord) (regs : List (RegNum × Nat)) : Hart c :=
  regs.foldl (fun h q => h.setX q.1 (BitVec.ofNat c.xlen q.2))
    { regs := Vector.replicate 31 0xABC, pc := BitVec.ofNat c.xlen pc, mem := Memory.place vectorData pc w.bytes,
      memMap := m, stored := [] }

/-- The state before a vector. -/
def at0 (c : Isa) (pc : Nat) (w : InstrWord) (regs : List (RegNum × Nat)) : State := at' (hartAt vectorMap c pc w regs)

/-- The next state of an outcome. -/
def next? {α : Type} (r : Host.Outcome α Fault Refusal) : Option α :=
  match r with
  | .next a => some a
  | _ => none

/-- One step completes: the listed registers and bytes change to the listed values, no other does, and the pc is `pc`. -/
def goes (s : State) (regs : List (RegNum × Nat)) (bytes : List Host.Cell) (pc : Nat) : Bool :=
  match step s with
  | .next t =>
    decide (t.isa = s.isa ∧ t.hart.pc.toNat = pc ∧
      t.hart.mem = bytes.foldl (fun m q => Memory.write m q.1 q.2) s.hart.mem) &&
    (List.range 32).all fun k =>
      (t.hart.x (BitVec.ofNat 5 k)).toNat == (regs.lookup (BitVec.ofNat 5 k)).getD (s.hart.x (BitVec.ofNat 5 k)).toNat
  | _ => false

/-- One step traps with the state unchanged: the cause, the recorded value, the instruction's address. -/
def traps (s : State) : Option (Cause × Nat × Nat) :=
  match Result.trap? (step s) with
  | some t => if t.state = s then some (t.cause, t.tval.toNat, t.pc.toNat) else none
  | none => none

/-! ### Every instruction: its word and one step -/

/-- 95_test_vectors A37. -/
theorem test_lui :
    decode .rv64i (.long 0x800002B7) = .ok (.lui 5 0x80000) ∧
    goes (at0 .rv64i 0x1000 (.long 0x800002B7) []) [(5, 0xFFFFFFFF80000000)] [] 0x1004 := by
  decide

/-- 95_test_vectors A43. -/
theorem test_auipc :
    decode .rv64i (.long 0x80000297) = .ok (.auipc 5 0x80000) ∧
    goes (at0 .rv64i 0x1000 (.long 0x80000297) []) [(5, 0xFFFFFFFF80001000)] [] 0x1004 := by
  decide

/-- 95_test_vectors B76. -/
theorem test_jal :
    decode .rv32i (.long 0x800FE0EF) = .ok (.jal 1 0xFF000) ∧
    goes (at0 .rv32i 0x1000 (.long 0x800FE0EF) []) [(1, 0x1004)] [] 0xFFFFF000 := by
  decide

/-- 95_test_vectors B83. -/
theorem test_jalr :
    decode .rv32i (.long 0x004282E7) = .ok (.jalr 5 5 4) ∧
    goes (at0 .rv32i 0x1000 (.long 0x004282E7) [(5, 0x2000)]) [(5, 0x1004)] [] 0x2004 := by
  decide

/-- 95_test_vectors B92. -/
theorem test_beq :
    decode .rv32i (.long 0x00628863) = .ok (.beq 5 6 8) ∧
    goes (at0 .rv32i 0x1000 (.long 0x00628863) [(5, 7), (6, 7)]) [] [] 0x1010 := by
  decide

/-- 95_test_vectors B97. -/
theorem test_bne :
    decode .rv32i (.long 0x00629863) = .ok (.bne 5 6 8) ∧
    goes (at0 .rv32i 0x1000 (.long 0x00629863) [(5, 7), (6, 8)]) [] [] 0x1010 := by
  decide

/-- 95_test_vectors B99. -/
theorem test_blt :
    decode .rv32i (.long 0x0062C863) = .ok (.blt 5 6 8) ∧
    goes (at0 .rv32i 0x1000 (.long 0x0062C863) [(5, 0xFFFFFFFF), (6, 1)]) [] [] 0x1010 := by
  decide

/-- 95_test_vectors B102. -/
theorem test_bge :
    decode .rv32i (.long 0x0062D863) = .ok (.bge 5 6 8) ∧
    goes (at0 .rv32i 0x1000 (.long 0x0062D863) [(5, 0xFFFFFFFF), (6, 1)]) [] [] 0x1004 := by
  decide

/-- 95_test_vectors B103. -/
theorem test_bltu :
    decode .rv32i (.long 0x0062E863) = .ok (.bltu 5 6 8) ∧
    goes (at0 .rv32i 0x1000 (.long 0x0062E863) [(5, 0xFFFFFFFF), (6, 1)]) [] [] 0x1004 := by
  decide

/-- 95_test_vectors B105. -/
theorem test_bgeu :
    decode .rv32i (.long 0x0062F863) = .ok (.bgeu 5 6 8) ∧
    goes (at0 .rv32i 0x1000 (.long 0x0062F863) [(5, 0xFFFFFFFF), (6, 1)]) [] [] 0x1010 := by
  decide

/-- 95_test_vectors C111. -/
theorem test_lb :
    decode .rv32i (.long 0x00430283) = .ok (.lb 5 6 4) ∧
    goes (at0 .rv32i 0x1000 (.long 0x00430283) [(6, 0x2000)]) [(5, 0xFFFFFF80)] [] 0x1004 := by
  decide

/-- 95_test_vectors C114. -/
theorem test_lh :
    decode .rv32i (.long 0x00231283) = .ok (.lh 5 6 2) ∧
    goes (at0 .rv32i 0x1000 (.long 0x00231283) [(6, 0x2000)]) [(5, 0xFFFF9234)] [] 0x1004 := by
  decide

/-- 95_test_vectors C119. -/
theorem test_lw :
    decode .rv64i (.long 0x00032283) = .ok (.lw 5 6 0) ∧
    goes (at0 .rv64i 0x1000 (.long 0x00032283) [(6, 0x2000)]) [(5, 0xFFFFFFFF92345678)] [] 0x1004 := by
  decide

/-- 95_test_vectors C113. -/
theorem test_lbu :
    decode .rv32i (.long 0x00434283) = .ok (.lbu 5 6 4) ∧
    goes (at0 .rv32i 0x1000 (.long 0x00434283) [(6, 0x2000)]) [(5, 0x80)] [] 0x1004 := by
  decide

/-- 95_test_vectors C115. -/
theorem test_lhu :
    decode .rv32i (.long 0x00235283) = .ok (.lhu 5 6 2) ∧
    goes (at0 .rv32i 0x1000 (.long 0x00235283) [(6, 0x2000)]) [(5, 0x9234)] [] 0x1004 := by
  decide

/-- 95_test_vectors C135. -/
theorem test_sb :
    decode .rv32i (.long 0x007301A3) = .ok (.sb 6 7 3) ∧
    goes (at0 .rv32i 0x1000 (.long 0x007301A3) [(7, 0x12345678), (6, 0x2000)]) [] [(0x2003, 0x78)] 0x1004 := by
  decide

/-- 95_test_vectors C136. -/
theorem test_sh :
    decode .rv32i (.long 0x00731123) = .ok (.sh 6 7 2) ∧
    goes (at0 .rv32i 0x1000 (.long 0x00731123) [(7, 0x12345678), (6, 0x2000)]) []
      [(0x2002, 0x78), (0x2003, 0x56)] 0x1004 := by
  decide

/-- 95_test_vectors C138. -/
theorem test_sw :
    decode .rv64i (.long 0x00732023) = .ok (.sw 6 7 0) ∧
    goes (at0 .rv64i 0x1000 (.long 0x00732023) [(7, 0xFFFFFFFF12345678), (6, 0x2000)]) []
      [(0x2000, 0x78), (0x2001, 0x56), (0x2002, 0x34), (0x2003, 0x12)] 0x1004 := by
  decide

/-- 95_test_vectors A4. -/
theorem test_addi :
    decode .rv32i (.long 0x80030293) = .ok (.addi 5 6 0x800) ∧
    goes (at0 .rv32i 0x1000 (.long 0x80030293) [(6, 0)]) [(5, 0xFFFFF800)] [] 0x1004 := by
  decide

/-- 95_test_vectors A9. -/
theorem test_slti :
    decode .rv32i (.long 0xFFF32293) = .ok (.slti 5 6 0xFFF) ∧
    goes (at0 .rv32i 0x1000 (.long 0xFFF32293) [(6, 0xFFFFFFFE)]) [(5, 1)] [] 0x1004 := by
  decide

/-- 95_test_vectors A12. -/
theorem test_sltiu :
    decode .rv32i (.long 0xFFF33293) = .ok (.sltiu 5 6 0xFFF) ∧
    goes (at0 .rv32i 0x1000 (.long 0xFFF33293) [(6, 5)]) [(5, 1)] [] 0x1004 := by
  decide

/-- 95_test_vectors A16. -/
theorem test_xori :
    decode .rv32i (.long 0xFFF34293) = .ok (.xori 5 6 0xFFF) ∧
    goes (at0 .rv32i 0x1000 (.long 0xFFF34293) [(6, 0xFF00)]) [(5, 0xFFFF00FF)] [] 0x1004 := by
  decide

/-- 95_test_vectors A18. -/
theorem test_ori :
    decode .rv32i (.long 0x80036293) = .ok (.ori 5 6 0x800) ∧
    goes (at0 .rv32i 0x1000 (.long 0x80036293) [(6, 1)]) [(5, 0xFFFFF801)] [] 0x1004 := by
  decide

/-- 95_test_vectors A20. -/
theorem test_andi :
    decode .rv32i (.long 0xFF037293) = .ok (.andi 5 6 0xFF0) ∧
    goes (at0 .rv32i 0x1000 (.long 0xFF037293) [(6, 0x12345678)]) [(5, 0x12345670)] [] 0x1004 := by
  decide

/-- 95_test_vectors A26. -/
theorem test_slli :
    decode .rv64i (.long 0x03F31293) = .ok (.slli 5 6 63) ∧
    goes (at0 .rv64i 0x1000 (.long 0x03F31293) [(6, 3)]) [(5, 0x8000000000000000)] [] 0x1004 := by
  decide

/-- 95_test_vectors A29. -/
theorem test_srli :
    decode .rv64i (.long 0x03F35293) = .ok (.srli 5 6 63) ∧
    goes (at0 .rv64i 0x1000 (.long 0x03F35293) [(6, 0x8000000000000000)]) [(5, 1)] [] 0x1004 := by
  decide

/-- 95_test_vectors A33. -/
theorem test_srai :
    decode .rv64i (.long 0x43F35293) = .ok (.srai 5 6 63) ∧
    goes (at0 .rv64i 0x1000 (.long 0x43F35293) [(6, 0x8000000000000000)]) [(5, 0xFFFFFFFFFFFFFFFF)] [] 0x1004 := by
  decide

/-- 95_test_vectors A48. -/
theorem test_add :
    decode .rv64i (.long 0x007302B3) = .ok (.add 5 6 7) ∧
    goes (at0 .rv64i 0x1000 (.long 0x007302B3) [(6, 0xFFFFFFFF), (7, 2)]) [(5, 0x100000001)] [] 0x1004 := by
  decide

/-- 95_test_vectors A49. -/
theorem test_sub :
    decode .rv32i (.long 0x407302B3) = .ok (.sub 5 6 7) ∧
    goes (at0 .rv32i 0x1000 (.long 0x407302B3) [(6, 1), (7, 2)]) [(5, 0xFFFFFFFF)] [] 0x1004 := by
  decide

/-- 95_test_vectors A52. -/
theorem test_sll :
    decode .rv32i (.long 0x007312B3) = .ok (.sll 5 6 7) ∧
    goes (at0 .rv32i 0x1000 (.long 0x007312B3) [(6, 1), (7, 0x25)]) [(5, 0x20)] [] 0x1004 := by
  decide

/-- 95_test_vectors A57. -/
theorem test_slt :
    decode .rv32i (.long 0x007322B3) = .ok (.slt 5 6 7) ∧
    goes (at0 .rv32i 0x1000 (.long 0x007322B3) [(6, 0x80000000), (7, 0x7FFFFFFF)]) [(5, 1)] [] 0x1004 := by
  decide

/-- 95_test_vectors A58. -/
theorem test_sltu :
    decode .rv32i (.long 0x007332B3) = .ok (.sltu 5 6 7) ∧
    goes (at0 .rv32i 0x1000 (.long 0x007332B3) [(6, 0xFFFFFFFF), (7, 1), (5, 9)]) [(5, 0)] [] 0x1004 := by
  decide

/-- 95_test_vectors A61. -/
theorem test_xor :
    decode .rv32i (.long 0x007342B3) = .ok (.xor 5 6 7) ∧
    goes (at0 .rv32i 0x1000 (.long 0x007342B3) [(6, 0xF0F0F0F), (7, 0xFF00FF)]) [(5, 0xFF00FF0)] [] 0x1004 := by
  decide

/-- 95_test_vectors A63. -/
theorem test_srl :
    decode .rv32i (.long 0x007352B3) = .ok (.srl 5 6 7) ∧
    goes (at0 .rv32i 0x1000 (.long 0x007352B3) [(6, 0x80000000), (7, 0xFFFFFFE1)]) [(5, 0x40000000)] [] 0x1004 := by
  decide

/-- 95_test_vectors A64. -/
theorem test_sra :
    decode .rv32i (.long 0x407352B3) = .ok (.sra 5 6 7) ∧
    goes (at0 .rv32i 0x1000 (.long 0x407352B3) [(6, 0x80000000), (7, 0x1F)]) [(5, 0xFFFFFFFF)] [] 0x1004 := by
  decide

/-- 95_test_vectors A66. -/
theorem test_or :
    decode .rv32i (.long 0x007362B3) = .ok (.or 5 6 7) ∧
    goes (at0 .rv32i 0x1000 (.long 0x007362B3) [(6, 0xF0F0F0F), (7, 0xFF00FF)]) [(5, 0xFFF0FFF)] [] 0x1004 := by
  decide

/-- 95_test_vectors A67. -/
theorem test_and :
    decode .rv32i (.long 0x007372B3) = .ok (.and 5 6 7) ∧
    goes (at0 .rv32i 0x1000 (.long 0x007372B3) [(6, 0xF0F0F0F), (7, 0xFF00FF)]) [(5, 0xF000F)] [] 0x1004 := by
  decide

/-- 95_test_vectors D154. -/
theorem test_fence :
    decode .rv32i (.long 0x0FF3028F) = .ok (.fence 5 6 0 0xF 0xF) ∧
    goes (at0 .rv32i 0x1000 (.long 0x0FF3028F) [(5, 1), (6, 2)]) [] [] 0x1004 := by
  decide

/-- 95_test_vectors D156. -/
theorem test_ecall :
    decode .rv32i (.long 0x00000073) = .ok (.ecall) ∧
    traps (at0 .rv32i 0x1000 (.long 0x00000073) []) = some (.environmentCall, 0, 0x1000) := by
  decide

/-- 95_test_vectors D158. -/
theorem test_ebreak :
    decode .rv32i (.long 0x00100073) = .ok (.ebreak) ∧
    traps (at0 .rv32i 0x2468 (.long 0x00100073) []) = some (.breakpoint, 0x2468, 0x2468) := by
  decide

/-- 95_test_vectors C120. -/
theorem test_lwu :
    decode .rv64i (.long 0x00036283) = .ok (.lwu 5 6 0) ∧
    goes (at0 .rv64i 0x1000 (.long 0x00036283) [(6, 0x2000)]) [(5, 0x92345678)] [] 0x1004 := by
  decide

/-- 95_test_vectors C121. -/
theorem test_ld :
    decode .rv64i (.long 0x00033283) = .ok (.ld 5 6 0) ∧
    goes (at0 .rv64i 0x1000 (.long 0x00033283) [(6, 0x2000)]) [(5, 0x1FF7F8092345678)] [] 0x1004 := by
  decide

/-- 95_test_vectors C139. -/
theorem test_sd :
    decode .rv64i (.long 0x00733023) = .ok (.sd 6 7 0) ∧
    goes (at0 .rv64i 0x1000 (.long 0x00733023) [(7, 0x102030405060708), (6, 0x2000)]) []
      [(0x2000, 8), (0x2001, 7), (0x2002, 6), (0x2003, 5), (0x2004, 4), (0x2005, 3), (0x2006, 2),
        (0x2007, 1)] 0x1004 := by
  decide

/-- 95_test_vectors E167. -/
theorem test_addiw :
    decode .rv64i (.long 0x0003029B) = .ok (.addiw 5 6 0) ∧
    goes (at0 .rv64i 0x1000 (.long 0x0003029B) [(6, 0x123456789ABCDEF0)]) [(5, 0xFFFFFFFF9ABCDEF0)] [] 0x1004 := by
  decide

/-- 95_test_vectors E170. -/
theorem test_slliw :
    decode .rv64i (.long 0x01F3129B) = .ok (.slliw 5 6 31) ∧
    goes (at0 .rv64i 0x1000 (.long 0x01F3129B) [(6, 1)]) [(5, 0xFFFFFFFF80000000)] [] 0x1004 := by
  decide

/-- 95_test_vectors E174. -/
theorem test_srliw :
    decode .rv64i (.long 0x0003529B) = .ok (.srliw 5 6 0) ∧
    goes (at0 .rv64i 0x1000 (.long 0x0003529B) [(6, 0x80000000)]) [(5, 0xFFFFFFFF80000000)] [] 0x1004 := by
  decide

/-- 95_test_vectors E176. -/
theorem test_sraiw :
    decode .rv64i (.long 0x41F3529B) = .ok (.sraiw 5 6 31) ∧
    goes (at0 .rv64i 0x1000 (.long 0x41F3529B) [(6, 0x17FFFFFFF), (5, 9)]) [(5, 0)] [] 0x1004 := by
  decide

/-- 95_test_vectors E177. -/
theorem test_addw :
    decode .rv64i (.long 0x007302BB) = .ok (.addw 5 6 7) ∧
    goes (at0 .rv64i 0x1000 (.long 0x007302BB) [(6, 0x7FFFFFFF), (7, 1)]) [(5, 0xFFFFFFFF80000000)] [] 0x1004 := by
  decide

/-- 95_test_vectors E180. -/
theorem test_subw :
    decode .rv64i (.long 0x407302BB) = .ok (.subw 5 6 7) ∧
    goes (at0 .rv64i 0x1000 (.long 0x407302BB) [(6, 0x80000000), (7, 1)]) [(5, 0x7FFFFFFF)] [] 0x1004 := by
  decide

/-- 95_test_vectors E182. -/
theorem test_sllw :
    decode .rv64i (.long 0x007312BB) = .ok (.sllw 5 6 7) ∧
    goes (at0 .rv64i 0x1000 (.long 0x007312BB) [(6, 1), (7, 0x20), (5, 9)]) [(5, 1)] [] 0x1004 := by
  decide

/-- 95_test_vectors E183. -/
theorem test_srlw :
    decode .rv64i (.long 0x007352BB) = .ok (.srlw 5 6 7) ∧
    goes (at0 .rv64i 0x1000 (.long 0x007352BB) [(6, 0xFFFFFFFF80000000), (7, 4)]) [(5, 0x8000000)] [] 0x1004 := by
  decide

/-- 95_test_vectors E184. -/
theorem test_sraw :
    decode .rv64i (.long 0x407352BB) = .ok (.sraw 5 6 7) ∧
    goes (at0 .rv64i 0x1000 (.long 0x407352BB) [(6, 0x80000000), (7, 4)]) [(5, 0xFFFFFFFFF8000000)] [] 0x1004 := by
  decide

/-- 95_test_vectors F191. -/
theorem test_cIllegal :
    decode .rv32ic (.short 0x0000) = .ok (.cIllegal) ∧
    traps (at0 .rv32ic 0x1000 (.short 0x0000) [(2, 0x3000)]) = some (.illegalInstruction, 0, 0x1000) := by
  decide

/-- 95_test_vectors F190. -/
theorem test_cAddi4spn :
    decode .rv32ic (.short 0x1FE8) = .ok (.cAddi4spn 2 0xFF) ∧
    goes (at0 .rv32ic 0x1000 (.short 0x1FE8) [(2, 0x3000)]) [(10, 0x33FC)] [] 0x1002 := by
  decide

/-- 95_test_vectors F267. -/
theorem test_cFld :
    decode .rv32ic (.short 0x2480) = .ok (.cFld 0 1 1) ∧
    traps (at0 .rv32ic 0x1000 (.short 0x2480) [(9, 0x2000), (2, 0x2000)]) =
      some (.illegalInstruction, 0x2480, 0x1000) := by
  decide

/-- 95_test_vectors F194. -/
theorem test_cLw :
    decode .rv32ic (.short 0x5CE0) = .ok (.cLw 0 1 0x1F) ∧
    goes (at0 .rv32ic 0x1000 (.short 0x5CE0) [(9, 0x1F84)]) [(8, 0x92345678)] [] 0x1002 := by
  decide

/-- 95_test_vectors F268. -/
theorem test_cFlw :
    decode .rv32ic (.short 0x60C0) = .ok (.cFlw 0 1 1) ∧
    traps (at0 .rv32ic 0x1000 (.short 0x60C0) [(9, 0x2000), (2, 0x2000)]) =
      some (.illegalInstruction, 0x60C0, 0x1000) := by
  decide

/-- 95_test_vectors F269. -/
theorem test_cFsd :
    decode .rv32ic (.short 0xA480) = .ok (.cFsd 1 0 1) ∧
    traps (at0 .rv32ic 0x1000 (.short 0xA480) [(9, 0x2000), (2, 0x2000)]) =
      some (.illegalInstruction, 0xA480, 0x1000) := by
  decide

/-- 95_test_vectors F196. -/
theorem test_cSw :
    decode .rv32ic (.short 0xC408) = .ok (.cSw 0 2 2) ∧
    goes (at0 .rv32ic 0x1000 (.short 0xC408) [(10, 0xCAFEF00D), (8, 0x2000)]) []
      [(0x2008, 0xD), (0x2009, 0xF0), (0x200A, 0xFE), (0x200B, 0xCA)] 0x1002 := by
  decide

/-- 95_test_vectors F270. -/
theorem test_cFsw :
    decode .rv32ic (.short 0xE0C0) = .ok (.cFsw 1 0 1) ∧
    traps (at0 .rv32ic 0x1000 (.short 0xE0C0) [(9, 0x2000), (2, 0x2000)]) =
      some (.illegalInstruction, 0xE0C0, 0x1000) := by
  decide

/-- 95_test_vectors F199. -/
theorem test_cNop :
    decode .rv32ic (.short 0x0005) = .ok (.cNop 1) ∧
    goes (at0 .rv32ic 0x1000 (.short 0x0005) []) [] [] 0x1002 := by
  decide

/-- 95_test_vectors F201. -/
theorem test_cAddi :
    decode .rv32ic (.short 0x057D) = .ok (.cAddi 10 0x1F) ∧
    goes (at0 .rv32ic 0x1000 (.short 0x057D) [(10, 0xFFFFFFFF)]) [(10, 0x1E)] [] 0x1002 := by
  decide

/-- 95_test_vectors F204. -/
theorem test_cJal :
    decode .rv32ic (.short 0x3001) = .ok (.cJal 0x400) ∧
    goes (at0 .rv32ic 0x2000 (.short 0x3001) []) [(1, 0x2002)] [] 0x1800 := by
  decide

/-- 95_test_vectors F206. -/
theorem test_cLi :
    decode .rv32ic (.short 0x5501) = .ok (.cLi 10 0x20) ∧
    goes (at0 .rv32ic 0x1000 (.short 0x5501) []) [(10, 0xFFFFFFE0)] [] 0x1002 := by
  decide

/-- 95_test_vectors F211. -/
theorem test_cAddi16sp :
    decode .rv32ic (.short 0x7101) = .ok (.cAddi16sp 0x20) ∧
    goes (at0 .rv32ic 0x1000 (.short 0x7101) [(2, 0x3000)]) [(2, 0x2E00)] [] 0x1002 := by
  decide

/-- 95_test_vectors F215. -/
theorem test_cLui :
    decode .rv32ic (.short 0x7501) = .ok (.cLui 10 0x20) ∧
    goes (at0 .rv32ic 0x1000 (.short 0x7501) []) [(10, 0xFFFE0000)] [] 0x1002 := by
  decide

/-- 95_test_vectors F219. -/
theorem test_cSrli :
    decode .rv32ic (.short 0x83FD) = .ok (.cSrli 7 0x1F) ∧
    goes (at0 .rv32ic 0x1000 (.short 0x83FD) [(15, 0x80000001)]) [(15, 1)] [] 0x1002 := by
  decide

/-- 95_test_vectors F222. -/
theorem test_cSrai :
    decode .rv32ic (.short 0x87FD) = .ok (.cSrai 7 0x1F) ∧
    goes (at0 .rv32ic 0x1000 (.short 0x87FD) [(15, 0x80000000)]) [(15, 0xFFFFFFFF)] [] 0x1002 := by
  decide

/-- 95_test_vectors F226. -/
theorem test_cAndi :
    decode .rv32ic (.short 0x9801) = .ok (.cAndi 0 0x20) ∧
    goes (at0 .rv32ic 0x1000 (.short 0x9801) [(8, 0x12345678)]) [(8, 0x12345660)] [] 0x1002 := by
  decide

/-- 95_test_vectors F227. -/
theorem test_cSub :
    decode .rv32ic (.short 0x8F99) = .ok (.cSub 7 6) ∧
    goes (at0 .rv32ic 0x1000 (.short 0x8F99) [(15, 1), (14, 2)]) [(15, 0xFFFFFFFF)] [] 0x1002 := by
  decide

/-- 95_test_vectors F229. -/
theorem test_cXor :
    decode .rv32ic (.short 0x8FB9) = .ok (.cXor 7 6) ∧
    goes (at0 .rv32ic 0x1000 (.short 0x8FB9) [(15, 0xF0F0F0F), (14, 0xFF00FF)]) [(15, 0xFF00FF0)] [] 0x1002 := by
  decide

/-- 95_test_vectors F230. -/
theorem test_cOr :
    decode .rv32ic (.short 0x8FD9) = .ok (.cOr 7 6) ∧
    goes (at0 .rv32ic 0x1000 (.short 0x8FD9) [(15, 0xF0F0F0F), (14, 0xFF00FF)]) [(15, 0xFFF0FFF)] [] 0x1002 := by
  decide

/-- 95_test_vectors F231. -/
theorem test_cAnd :
    decode .rv32ic (.short 0x8FF9) = .ok (.cAnd 7 6) ∧
    goes (at0 .rv32ic 0x1000 (.short 0x8FF9) [(15, 0xF0F0F0F), (14, 0xFF00FF)]) [(15, 0xF000F)] [] 0x1002 := by
  decide

/-- 95_test_vectors F237. -/
theorem test_cJ :
    decode .rv32ic (.short 0xB001) = .ok (.cJ 0x400) ∧
    goes (at0 .rv32ic 0x1000 (.short 0xB001) []) [] [] 0x800 := by
  decide

/-- 95_test_vectors F240. -/
theorem test_cBeqz :
    decode .rv32ic (.short 0xD001) = .ok (.cBeqz 0 0x80) ∧
    goes (at0 .rv32ic 0x1000 (.short 0xD001) [(8, 0)]) [] [] 0xF00 := by
  decide

/-- 95_test_vectors F242. -/
theorem test_cBnez :
    decode .rv32ic (.short 0xEC7D) = .ok (.cBnez 0 0x7F) ∧
    goes (at0 .rv32ic 0x1000 (.short 0xEC7D) [(8, 0x80000000)]) [] [] 0x10FE := by
  decide

/-- 95_test_vectors F246. -/
theorem test_cSlli64 :
    decode .rv32ic (.short 0x0502) = .ok (.cSlli64 10) ∧
    goes (at0 .rv32ic 0x1000 (.short 0x0502) [(10, 5)]) [] [] 0x1002 := by
  decide

/-- 95_test_vectors F245. -/
theorem test_cSlli :
    decode .rv32ic (.short 0x057E) = .ok (.cSlli 10 31) ∧
    goes (at0 .rv32ic 0x1000 (.short 0x057E) [(10, 1)]) [(10, 0x80000000)] [] 0x1002 := by
  decide

/-- 95_test_vectors F271. -/
theorem test_cFldsp :
    decode .rv32ic (.short 0x2522) = .ok (.cFldsp 10 1) ∧
    traps (at0 .rv32ic 0x1000 (.short 0x2522) [(9, 0x2000), (2, 0x2000)]) =
      some (.illegalInstruction, 0x2522, 0x1000) := by
  decide

/-- 95_test_vectors F250. -/
theorem test_cLwsp :
    decode .rv32ic (.short 0x50FE) = .ok (.cLwsp 1 0x3F) ∧
    goes (at0 .rv32ic 0x1000 (.short 0x50FE) [(2, 0x1F04)]) [(1, 0x92345678)] [] 0x1002 := by
  decide

/-- 95_test_vectors F272. -/
theorem test_cFlwsp :
    decode .rv32ic (.short 0x6512) = .ok (.cFlwsp 10 1) ∧
    traps (at0 .rv32ic 0x1000 (.short 0x6512) [(9, 0x2000), (2, 0x2000)]) =
      some (.illegalInstruction, 0x6512, 0x1000) := by
  decide

/-- 95_test_vectors F254. -/
theorem test_cJr :
    decode .rv32ic (.short 0x8782) = .ok (.cJr 15) ∧
    goes (at0 .rv32ic 0x1000 (.short 0x8782) [(15, 0x2001)]) [] [] 0x2000 := by
  decide

/-- 95_test_vectors F256. -/
theorem test_cMv :
    decode .rv32ic (.short 0x853E) = .ok (.cMv 10 15) ∧
    goes (at0 .rv32ic 0x1000 (.short 0x853E) [(15, 0xDEADBEEF)]) [(10, 0xDEADBEEF)] [] 0x1002 := by
  decide

/-- 95_test_vectors F258. -/
theorem test_cEbreak :
    decode .rv32ic (.short 0x9002) = .ok (.cEbreak) ∧
    traps (at0 .rv32ic 0x1000 (.short 0x9002) []) = some (.breakpoint, 0x1000, 0x1000) := by
  decide

/-- 95_test_vectors F260. -/
theorem test_cJalr :
    decode .rv32ic (.short 0x9082) = .ok (.cJalr 1) ∧
    goes (at0 .rv32ic 0x1000 (.short 0x9082) [(1, 0x2000)]) [(1, 0x1002)] [] 0x2000 := by
  decide

/-- 95_test_vectors F261. -/
theorem test_cAdd :
    decode .rv32ic (.short 0x97BA) = .ok (.cAdd 15 14) ∧
    goes (at0 .rv32ic 0x1000 (.short 0x97BA) [(15, 0xFFFFFFFF), (14, 2)]) [(15, 1)] [] 0x1002 := by
  decide

/-- 95_test_vectors F273. -/
theorem test_cFsdsp :
    decode .rv32ic (.short 0xA42A) = .ok (.cFsdsp 10 1) ∧
    traps (at0 .rv32ic 0x1000 (.short 0xA42A) [(9, 0x2000), (2, 0x2000)]) =
      some (.illegalInstruction, 0xA42A, 0x1000) := by
  decide

/-- 95_test_vectors F264. -/
theorem test_cSwsp :
    decode .rv32ic (.short 0xDFAA) = .ok (.cSwsp 10 0x3F) ∧
    goes (at0 .rv32ic 0x1000 (.short 0xDFAA) [(10, 0x11223344), (2, 0x2000)]) []
      [(0x20FC, 0x44), (0x20FD, 0x33), (0x20FE, 0x22), (0x20FF, 0x11)] 0x1002 := by
  decide

/-- 95_test_vectors F274. -/
theorem test_cFswsp :
    decode .rv32ic (.short 0xE22A) = .ok (.cFswsp 10 1) ∧
    traps (at0 .rv32ic 0x1000 (.short 0xE22A) [(9, 0x2000), (2, 0x2000)]) =
      some (.illegalInstruction, 0xE22A, 0x1000) := by
  decide


/-! ### Words the decoder rejects, each with the reason's rule -/

theorem test_no_instruction :
    (∀ w ∈ [0x027302B3, 0x407312B3, 0x000290E7, 0x00002863, 0x00037283, 0x00734023, 0x0000100F, 0x000000F3, 0x340312F3,
        0xFFFFFFFF, 0x0000007F, 0x0000000B, 0x80435293],
      traps (at0 .rv32i 0x1000 (.long (BitVec.ofNat 32 w)) []) = some (.illegalInstruction, w, 0x1000)) ∧
    traps (at0 .rv32i 0x1000 (.long 0x02031293) []) = some (.illegalInstruction, 0x02031293, 0x1000) := by
  decide

/-- 95_test_vectors F275, F217, F220, F255, and F276 without the sixteen-bit instructions. -/
theorem test_no_short_instruction :
    (∀ w ∈ [0x8000, 0x6501, 0x9381, 0x8002],
      traps (at0 .rv32ic 0x1000 (.short (BitVec.ofNat 16 w)) []) = some (.illegalInstruction, w, 0x1000)) ∧
    traps (at0 .rv32i 0x1000 (.short 0x0505) [(10, 1)]) = some (.illegalInstruction, 0x0505, 0x1000) := by
  decide

/-! ### Fetch, alignment, permission, placing -/

/-- 95_test_vectors G280, G281. -/
theorem test_fetch_at_region_end :
    traps (at0 .rv32ic 0xFFFFE (.long 0x00100293) []) = some (.instructionAccessFault, 0x100000, 0xFFFFE) ∧
    goes (at0 .rv32ic 0xFFFFE (.short 0x0001) []) [] [] 0x100000 := by
  decide

/-- 95_test_vectors B77, C133, C147. -/
theorem test_exceptions :
    traps (at0 .rv32i 0x1000 (.long 0x002000EF) []) = some (.instructionAddressMisaligned, 0x1002, 0x1000) ∧
    traps (at0 .rv32i 0x1000 (.long 0x00132283) [(6, 0x100000)]) = some (.loadAddressMisaligned, 0x100001, 0x1000) ∧
    traps (at0 .rv32i 0x1000 (.long 0xFE732E23) [(6, 0x100004)]) = some (.storeAccessFault, 0x100000, 0x1000) := by
  decide

/-- From reset the placed instruction is the one that runs: `addi x5, x6, -1` (40_integer_computational R121). -/
theorem test_withFetchWord :
    decodeTableWord 32 0xFFF30293 = some (.addi 5 6 0xFFF) ∧
    goes (State.reset.withFetchWord 32 0xFFF30293) [(5, 0xFFFFFFFF)] [] 4 := by
  decide

/-- 10_state R23 and 30_encoding R103: `ret` is `jalr x0, 0(x1)`, `sp` is x2. -/
theorem test_spellings : abiRegister "sp" = some 2 ∧ Pseudo.ret.expand = [.jalr 0 1 0] := by decide

/-- 70_reset_and_hazards R331: a load takes five cycles (95_test_vectors section 1, `lw x5, 8(x6)`). -/
theorem test_multicycle_load :
    ((Multicycle.ticks 5 (Multicycle.start
      { hartAt vectorMap .rv32i 0x1000 (.long 0x00832283) [(6, 0x1FF8)] with stored := [] } 0 0 0 0)).map fun m =>
        (m.phase, (m.hart.x 5).toNat, m.hart.pc.toNat, m.aluOut.toNat)) =
      some (.fetch, 0x92345678, 0x1004, 0x2000) := by
  decide

/-! ### Witnesses: concrete states and operands that meet the hypotheses of the obligations -/

/-- Code that may only be executed, data that may only be read and written; every byte is defined. -/
def codeAndData : MemMap :=
  [{ base := 0x1000, size := 4, r := false, w := false, x := true },
   { base := 0x2000, size := 8, r := true, w := true, x := false }]

/-- A hart over `codeAndData` with an instruction at 0x1000. -/
def sample (c : Isa) (w : InstrWord) (regs : List (RegNum × Nat)) : Hart c := hartAt codeAndData c 0x1000 w regs

/-- The checks of the invariant as a Bool. -/
def invOk {c : Isa} (h : Hart c) : Bool :=
  !misalignedTarget c h.pc && Memory.wf h.mem && h.mem.all (fun p => decide (p.1 < 2 ^ c.xlen)) &&
    MemMap.wf c h.memMap && decide (h.stored.Pairwise (· < ·)) &&
    h.stored.all fun a => (h.byteAt a).isSome && permitted c h.memMap .write a 1

theorem inv_of_invOk {c : Isa} {h : Hart c} (hi : invOk h = true) : h.Inv := by
  simp only [invOk, Bool.and_eq_true, Bool.not_eq_true', List.all_eq_true, decide_eq_true_eq] at hi
  obtain ⟨⟨⟨⟨⟨h1, h2⟩, h3⟩, h4⟩, h5⟩, h6⟩ := hi
  exact ⟨h1, h2, h3, h4, h5, h6⟩

theorem next_of {α : Type} {r : Host.Outcome α Fault Refusal} (hr : (next? r).isSome = true) : ∃ a, r = .next a := by
  cases r <;> simp_all [next?]

theorem eq_next {α : Type} {r : Host.Outcome α Fault Refusal} {a : α} (hr : next? r = some a) : r = .next a := by
  cases r <;> simp_all [next?]

theorem trap_of {r : Result} (hr : (Result.trap? r).isSome = true) : ∃ t, r = .fault (.trap t) := by
  match r with
  | .fault (.trap t) => exact ⟨t, rfl⟩
  | .next _ => simp [Result.trap?] at hr
  | .fault (.undefinedByte _) => simp [Result.trap?] at hr
  | .refused _ => simp [Result.trap?] at hr

theorem eq_trap {r : Result} {t : Trap} (hr : Result.trap? r = some t) : r = .fault (.trap t) := by
  obtain ⟨u, rfl⟩ := trap_of (r := r) (by simp [hr])
  simpa [Result.trap?] using hr

/-- `sw x7, 0(x6)` over data a store has already written once. -/
def storing : Hart .rv32i := { sample .rv32i (.long 0x00732023) [(6, 0x2000), (7, 5)] with stored := [0x2000] }

/-- `lw x5, 0(x6)`, at the last word of the data. -/
def loading : Hart .rv32i := sample .rv32i (.long 0x00032283) [(6, 0x2004)]

theorem witness_LaunchState : (31 : RegNum) ≠ 0 := by decide

theorem witness_LaunchMeetsInvariant :
    (0x1002 : BitVec 32).toNat % Isa.instrAlign .rv32ic = 0 ∧ MemMap.wf .rv32ic codeAndData = true ∧
    Memory.wf vectorData = true ∧ ∀ q ∈ vectorData, q.1 < 2 ^ Isa.xlen .rv32ic := by decide

theorem storing_steps : ∃ t, step (at' storing) = .next t := next_of (by decide)

theorem witness_StepKeepsInvariant : ∃ s t : State, s.Inv ∧ step s = .next t :=
  let ⟨t, ht⟩ := storing_steps
  ⟨at' storing, t, inv_of_invOk (h := storing) (by decide), ht⟩

theorem witness_StepKeepsMemMap : ∃ t, step (at' storing) = .next t := storing_steps

theorem witness_OnlyLoadsAndStoresAccessMemory :
    (exec (.lw 0 6 0) (at' loading) = .next (at' { loading with pc := 0x1004 }) ∧ isStore (.lw 0 6 0) = false) ∧
    (exec (.addi 0 6 0) (at' loading) = .next (at' { loading with pc := 0x1004 }) ∧ isStore (.addi 0 6 0) = false ∧
      isLoad (.addi 0 6 0) = false) :=
  ⟨⟨eq_next (by decide), rfl⟩, eq_next (by decide), rfl, rfl⟩

theorem witness_TrapsArePrecise : ∃ t, step (at' (sample .rv32i (.long 0x00000073) [])) = .fault (.trap t) :=
  trap_of (by decide)

/-- A step that completes, one whose trap the environment resumes from, one whose trap ends the run. -/
theorem witness_EnvironmentMayResume :
    (∃ t, step (at' storing) = .next t) ∧
    ∃ t, step (at' (sample .rv32i (.long 0x00000073) [])) = .fault (.trap t) ∧
      (fun u : Trap => some u.state) t = some t.state ∧ noHandler t = none :=
  let ⟨t, ht⟩ := witness_TrapsArePrecise
  ⟨storing_steps, t, ht, rfl, rfl⟩

theorem witness_NoMisalignedTargetWithCompressed :
    ∃ (s : State) (t : Trap), s.isa.extC = true ∧ s.Inv ∧ step s = .fault (.trap t) :=
  let h := sample .rv32ic (.short 0x9002) []
  let ⟨t, ht⟩ := trap_of (r := step (at' h)) (by decide)
  ⟨at' h, t, rfl, inv_of_invOk (h := h) (by decide), ht⟩

theorem witness_FetchNeverMisaligned :
    ∃ (h : Hart .rv32i) (t : Trap), h.Inv ∧ fetch h = .fault (.trap t) :=
  ⟨{ loading with pc := 0x1004 }, _, inv_of_invOk (by decide), rfl⟩

/-- The last byte of a fetched word; a stored byte at the pc; the last byte of a store; a stored byte before a step. -/
theorem witness_SelfModifiedCodeRefused :
    (fetch loading = .next (.long 0x00032283) ∧ 3 < (InstrWord.long 0x00032283).bytes.length) ∧
    (let h : Hart .rv32i := { hartAt vectorMap .rv32i 0x1000 (.long 0x00000013) [] with stored := [0x1000] }
     h.pc.toNat % Isa.instrAlign .rv32i = 0 ∧ permitted .rv32i h.memMap .execute h.pc.toNat 2 = true ∧
      h.pc.toNat ∈ h.stored) ∧
    (∃ h', memWrite storing 0x2004 4 0x11223344 = .next h') ∧
    (∃ t, step (at' storing) = .next t) ∧ 0x2000 ∈ storing.stored :=
  ⟨⟨eq_next (by decide), by decide⟩, by decide, next_of (by decide), storing_steps, by decide⟩

theorem codeAndData_writeXorExecute : MemMap.writeXorExecute codeAndData := by
  unfold MemMap.writeXorExecute; decide

theorem witness_WriteXorExecuteNeverRefused : (at' storing).Inv ∧ MemMap.writeXorExecute storing.memMap :=
  ⟨inv_of_invOk (h := storing) (by decide), codeAndData_writeXorExecute⟩

theorem storing_loaded : storing.Loaded := by
  have hall : ∀ a ∈ [0x1000, 0x1001, 0x1002, 0x1003, 0x2000, 0x2001, 0x2002, 0x2003, 0x2004, 0x2005, 0x2006, 0x2007],
      (storing.byteAt a).isSome = true := by decide
  intro a ha
  have hm : storing.memMap = codeAndData := rfl
  apply hall
  simp only [hm, permitted, codeAndData, List.any_cons, List.any_nil, regionAllows, regionCovers, Bool.and_eq_true,
    Bool.or_eq_true, decide_eq_true_eq, Bool.false_eq_true, false_and, or_false, false_or, true_and] at ha
  have : a - 0x1000 < 4 ∧ 0x1000 ≤ a ∨ a - 0x2000 < 8 ∧ 0x2000 ≤ a := by omega
  simp only [List.mem_cons, List.not_mem_nil, or_false]
  omega

theorem witness_LoadedMachineNeverStuck :
    ∃ s t : State, s.Inv ∧ MemMap.writeXorExecute s.hart.memMap ∧ s.hart.Loaded ∧ step s = .next t :=
  let ⟨t, ht⟩ := storing_steps
  ⟨at' storing, t, inv_of_invOk (h := storing) (by decide), codeAndData_writeXorExecute, storing_loaded, ht⟩

theorem witness_StepRunsDecodedInstruction :
    AtPc loading (.long 0x00032283) ∧ decode .rv32i (.long 0x00032283) = .ok (.lw 5 6 0) := by
  unfold AtPc; decide

theorem witness_IllegalBitsTrap :
    fetch (sample .rv32i (.long 0xFFFFFFFF) []) = .next (.long 0xFFFFFFFF) ∧
    decode .rv32i (.long 0xFFFFFFFF) = .error (.unassigned (.long 0xFFFFFFFF)) :=
  ⟨eq_next (by decide), by decide⟩

theorem witness_ShortParcelIllegalWithoutCompressed :
    Isa.extC .rv64i = false ∧ isLong 0x0001 = false ∧ AtPc (sample .rv64i (.short 0x0001) []) (.short 0x0001) := by
  unfold AtPc; decide

/-- The pc outside the map; a second parcel outside it; the last parcel of the address space. -/
theorem witness_FetchAccessFaults :
    (let h : Hart .rv32i := { loading with pc := 0x1004 }
     h.pc.toNat % Isa.instrAlign .rv32i = 0 ∧ permitted .rv32i h.memMap .execute h.pc.toNat 2 = false) ∧
    (let h : Hart .rv32ic := hartAt codeAndData .rv32ic 0x1002 (.short 0x0293) []
     h.pc.toNat % Isa.instrAlign .rv32ic = 0 ∧ fetchParcel h h.pc.toNat = .next 0x0293 ∧ isLong 0x0293 = true ∧
      permitted .rv32ic h.memMap .execute (h.pc.toNat + 2) 2 = false) ∧
    (0xFFFFFFFE : BitVec 32).toNat % Isa.instrAlign .rv32ic = 0 ∧
    (0xFFFFFFFE : BitVec 32).toNat = 2 ^ Isa.xlen .rv32ic - 2 :=
  ⟨by decide, ⟨by decide, eq_next (by decide), by decide, by decide⟩, by decide, by decide⟩

/-- Both sides of the equivalence occur for each kind: the region with the permission and one without it, an access that ends
with its region and one that runs past it. -/
theorem witness_PermittedAccesses :
    0 < 4 ∧ permitted .rv32i codeAndData .read 0x2004 4 = true ∧ permitted .rv32i codeAndData .read 0x2006 4 = false ∧
    permitted .rv32i codeAndData .read 0x1000 4 = false ∧ permitted .rv32i codeAndData .write 0x2004 4 = true ∧
    permitted .rv32i codeAndData .write 0x1000 4 = false ∧ permitted .rv32i codeAndData .execute 0x1000 4 = true ∧
    permitted .rv32i codeAndData .execute 0x2004 4 = false ∧
    permitted .rv32i [{ base := 0, size := 4, r := true, w := false, x := false }] .read 0 4 = true ∧
    permitted .rv32i [{ base := 0, size := 4, r := true, w := false, x := false }] .write 0 4 = false := by
  decide

theorem witness_DecodeUndoesEncode :
    Instr.wf .rv64i (.slli 31 31 63) = true ∧ Instr.wf .rv32ic (.cLui 31 0x3F) = true := by decide

theorem witness_EncodeUndoesDecode :
    decode .rv64i (.long 0x03F31293) = .ok (.slli 5 6 63) ∧ decode .rv32ic (.short 0x7501) = .ok (.cLui 10 0x20) := by
  decide

theorem witness_DecodedWordMatchesTableRow :
    decode .rv32i (.long 0x01F31293) = .ok (.slli 5 6 31) ∧ decode .rv32ic (.short 0x9002) = .ok .cEbreak := by
  decide

theorem witness_Rv64OnlyIllegalOnXlen32 : Isa.xlen .rv32ic = 32 ∧ Instr.family (.sd 1 2 0) = .rv64 := by decide

/-- The last shift amount and the first reserved one, on both widths; upper bits that are no instruction. -/
theorem witness_ShiftImmediateResults :
    (31 : BitVec 6).toNat < Isa.xlen .rv32i ∧ (63 : BitVec 6).toNat < Isa.xlen .rv64i ∧
    Isa.xlen .rv32ic ≤ (32 : BitVec 6).toNat ∧ (1 : BitVec 6) ≠ 0 ∧ (1 : BitVec 6) ≠ 0b010000 := by decide

theorem witness_HintsOnlyAdvance :
    (Instr.wf .rv32i (.lui 0 1) = true ∧ isHint32 (.lui 0 1) = true) ∧
    Instr.wf .rv32ic (.cSrli 7 0) = true ∧ isHint16 (.cSrli 7 0) = true := by decide

theorem witness_WordImmediateResults : (1 : BitVec 7) ≠ 0 ∧ (1 : BitVec 7) ≠ 0b0100000 := by decide

/-- Two harts whose x6 differs in its upper half only. -/
theorem witness_WordResultsSignedAndLowOnly :
    let h := sample .rv64i (.long 0) [(6, 0x17FFFFFFF)]
    let g := sample .rv64i (.long 0) [(6, 0x7FFFFFFF)]
    wOperands (.addw 5 6 6) = some (5, 6, 6) ∧ (h.x 6).extractLsb' 0 32 = (g.x 6).extractLsb' 0 32 ∧ h.x 6 ≠ g.x 6 := by
  decide

/-- Targets of `jal` from 0x1000 that are aligned and that are not. -/
theorem witness_JalJumps :
    (loading.pc + ((4 : BitVec 20) ++ 0#1).signExtend 32).toNat % Isa.instrAlign .rv32i = 0 ∧
    (loading.pc + ((3 : BitVec 20) ++ 0#1).signExtend 32).toNat % Isa.instrAlign .rv32i ≠ 0 := by decide

/-- Targets of `jalr` from x6 = 0x2004 that are aligned and that are not; a funct3 that is no instruction. -/
theorem witness_JalrJumps :
    ((loading.x 6 + (1 : BitVec 12).signExtend 32) &&& ~~~1).toNat % Isa.instrAlign .rv32i = 0 ∧
    ((loading.x 6 + (2 : BitVec 12).signExtend 32) &&& ~~~1).toNat % Isa.instrAlign .rv32i ≠ 0 ∧ (1 : BitVec 3) ≠ 0 := by
  decide

/-- A branch that is not taken, one taken to an aligned target, one taken to a misaligned target. -/
theorem witness_ConditionalBranches :
    ¬ loading.x 6 = loading.x 0 ∧ loading.x 6 = loading.x 6 ∧
    (loading.pc + ((8 : BitVec 12) ++ 0#1).signExtend 32).toNat % Isa.instrAlign .rv32i = 0 ∧
    (loading.pc + ((3 : BitVec 12) ++ 0#1).signExtend 32).toNat % Isa.instrAlign .rv32i ≠ 0 := by decide

/-- The three cases of a load: misaligned; aligned and not permitted; permitted with its bytes defined. -/
theorem witness_loads (n : Nat) (hn : n = 2 ∨ n = 4) :
    (0x2001 % n ≠ 0) ∧ (0x1000 % n = 0 ∧ permitted .rv32i codeAndData .read 0x1000 n = false) ∧
    0x2000 % n = 0 ∧ permitted .rv32i codeAndData .read 0x2000 n = true ∧
    ∃ v : BitVec (8 * n), Holds loading 0x2000 n v := by
  rcases hn with rfl | rfl
  · exact ⟨by decide, by decide, by decide, by decide, 0x5678, by unfold Holds; decide⟩
  · exact ⟨by decide, by decide, by decide, by decide, 0x92345678, by unfold Holds; decide⟩

/-- A byte load is never misaligned; the other cases occur. -/
theorem witness_byte_loads :
    permitted .rv32i codeAndData .read 0x1000 1 = false ∧ permitted .rv32i codeAndData .read 0x2007 1 = true ∧
    Holds loading 0x2007 1 0x01 := by
  unfold Holds; decide

theorem witness_SignedLoads :
    (loading.x 6 + (0xFFC : BitVec 12).signExtend 32).toNat = 0x2000 ∧ Holds loading 0x2000 4 0x92345678 := by
  unfold Holds; decide

theorem witness_UnsignedLoads :
    (loading.x 6 + (0xFFC : BitVec 12).signExtend 32).toNat = 0x2000 ∧ Holds loading 0x2000 2 0x5678 := by
  unfold Holds; decide

theorem witness_Rv64Loads :
    let h := sample .rv64i (.long 0x00033283) [(6, 0x2000)]
    (h.x 6 + (0 : BitVec 12).signExtend 64).toNat % 8 = 0 ∧ permitted .rv64i h.memMap .read 0x2000 8 = true ∧
    Holds h 0x2000 8 0x01FF7F8092345678 ∧ permitted .rv64i h.memMap .read 0x1000 8 = false ∧ 0x2004 % 8 ≠ 0 := by
  unfold Holds; decide

/-- The three cases of a store, at the first address and at both ends of the data. -/
theorem witness_StoresWriteLowBytes :
    (∀ n ∈ [2, 4, 8], 0x2001 % n ≠ 0) ∧
    (∀ n ∈ [1, 2, 4, 8], 0x1000 % n = 0 ∧ permitted .rv64i codeAndData .write 0x1000 n = false) ∧
    ∀ n ∈ [1, 2, 4, 8], 0x2000 % n = 0 ∧ (0x2008 - n) % n = 0 ∧ permitted .rv64i codeAndData .write 0x2000 n = true ∧
      permitted .rv64i codeAndData .write (0x2008 - n) n = true := by decide

theorem witness_LoadToX0StillChecks :
    (Instr.lw 0 6 0, Instr.lw 5 6 0) ∈ [(Instr.lb 0 6 0, Instr.lb 5 6 0), (.lh 0 6 0, .lh 5 6 0), (.lw 0 6 0, .lw 5 6 0),
      (.lbu 0 6 0, .lbu 5 6 0), (.lhu 0 6 0, .lhu 5 6 0)] ∧
    (∃ h' : Hart .rv32i, exec (.lw 5 6 0) (at' loading) = .next (at' h')) ∧
    ∃ e, exec (.lw 5 6 0) (at' (sample .rv32i (.long 0x00032283) [(6, 0x2001)])) = .fault e :=
  ⟨by decide, ⟨{ loading.setX 5 0x01FF7F80 with pc := 0x1004 }, eq_next (by decide)⟩,
    let ⟨t, ht⟩ := trap_of (r := exec (.lw 5 6 0) (at' (sample .rv32i (.long 0x00032283) [(6, 0x2001)]))) (by decide)
    ⟨_, ht⟩⟩

/-- The word at 0x2008 is readable in `vectorMap` and undefined: for each width the first byte stops the load, and once the
others are defined the last one does. -/
theorem witness_UndefinedByteStopsLoad :
    let h : Hart .rv64i := hartAt vectorMap .rv64i 0x1000 (.long 0) [(6, 0x2008)]
    let g : Nat → Hart .rv64i := fun n => { h with mem := Memory.place h.mem 0x2008 (List.replicate (n - 1) 1) }
    (h.x 6 + (0 : BitVec 12).signExtend 64).toNat = 0x2008 ∧
    ∀ n ∈ [1, 2, 4, 8], 0x2008 % n = 0 ∧ permitted .rv64i vectorMap .read 0x2008 n = true ∧ h.byteAt 0x2008 = none ∧
      (∀ j, j < n - 1 → ((g n).byteAt (0x2008 + j)).isSome = true) ∧ (g n).byteAt (0x2008 + (n - 1)) = none := by
  decide

/-- The addresses of c.lw and c.lwsp reach an undefined, readable word; c.lwsp's destination is not x0. -/
theorem witness_UndefinedByteStopsLoad_compressed :
    let h : Hart .rv32ic := hartAt vectorMap .rv32ic 0x1000 (.short 0) [(2, 0x2004), (9, 0x2004)]
    (h.x (0b01#2 ++ (1 : RegNum3)) + ((1 : BitVec 5) ++ 0#2).zeroExtend 32).toNat = 0x2008 ∧
    (h.x 2 + ((1 : BitVec 6) ++ 0#2).zeroExtend 32).toNat = 0x2008 ∧ (31 : RegNum) ≠ 0 ∧ 0x2008 % 4 = 0 ∧
    permitted .rv32ic h.memMap .read 0x2008 4 = true ∧ h.byteAt 0x2008 = none := by
  decide

/-- After a store of a word: the whole word, its upper half, its last byte. -/
theorem witness_ByteOrderIsLittleEndian :
    (∃ h', memWrite storing 0x2000 4 0x11223344 = .next h' ∧ h'.memMap = codeAndData) ∧
    ∀ q ∈ [(0, 4), (2, 2), (3, 1)], 0 < q.2 ∧ q.1 + q.2 ≤ 4 ∧ (0x2000 + q.1) % q.2 = 0 ∧
      permitted .rv32i codeAndData .read (0x2000 + q.1) q.2 = true :=
  ⟨⟨_, rfl, rfl⟩, by decide⟩

theorem witness_FenceOnlyAdvances : (1 : BitVec 3) ≠ 0 := by decide

theorem witness_RequestedTraps :
    (∃ t : Trap, exec .ecall (at' loading) = .fault (.trap t) ∧ t.cause = .environmentCall) ∧
    ∃ t : Trap, exec .ebreak (at' loading) = .fault (.trap t) ∧ t.cause = .breakpoint :=
  ⟨⟨trapAt loading .environmentCall 0, eq_trap (by decide), rfl⟩,
    trapAt loading .breakpoint loading.pc, eq_trap (by decide), rfl⟩

theorem witness_CompressedStackPointerResults : (0xFF : BitVec 8) ≠ 0 ∧ (0x20 : BitVec 6) ≠ 0 := by decide

theorem witness_CompressedImmediateResults : (31 : RegNum) ≠ 0 ∧ (0 : RegNum) ≠ 2 ∧ (0x20 : BitVec 6) ≠ 0 := by decide

theorem witness_CompressedShiftResults : (31 : BitVec 5) ≠ 0 := by decide

theorem witness_CompressedRegisterResults : (31 : RegNum) ≠ 0 := by decide

/-- c.lw with x9 = 0x2000 and c.lwsp with x2 = 0x2000: the largest offset that stays in the data, and cases that trap. -/
theorem witness_CompressedLoads :
    let h := sample .rv32ic (.short 0x41C8) [(2, 0x2000), (9, 0x2000)]
    (h.x (0b01#2 ++ (1 : RegNum3)) + ((1 : BitVec 5) ++ 0#2).zeroExtend 32).toNat = 0x2004 ∧
    (h.x 2 + ((1 : BitVec 6) ++ 0#2).zeroExtend 32).toNat = 0x2004 ∧ 0x2004 % 4 = 0 ∧ (1 : RegNum) ≠ 0 ∧
    permitted .rv32ic h.memMap .read 0x2004 4 = true ∧ Holds h 0x2004 4 0x01FF7F80 ∧
    permitted .rv32ic h.memMap .read 0x2008 4 = false ∧ 0x2006 % 4 ≠ 0 := by
  unfold Holds; decide

theorem witness_CompressedStores :
    let h := sample .rv32ic (.short 0xC408) [(2, 0x2000), (9, 0x2000)]
    (h.x (0b01#2 ++ (1 : RegNum3)) + ((1 : BitVec 5) ++ 0#2).zeroExtend 32).toNat = 0x2004 ∧
    (h.x 2 + ((1 : BitVec 6) ++ 0#2).zeroExtend 32).toNat = 0x2004 ∧ 0x2004 % 4 = 0 ∧
    permitted .rv32ic h.memMap .write 0x2004 4 = true ∧ permitted .rv32ic h.memMap .write 0x2008 4 = false ∧
    0x2006 % 4 ≠ 0 := by decide

theorem witness_CompressedJumps :
    (sample .rv32ic (.short 0x2021) []).pc.toNat % 2 = 0 ∧ (0xFFFFFFFE : BitVec 32).toNat % 2 = 0 ∧ (31 : RegNum) ≠ 0 := by
  decide

theorem witness_CompressedBranches : (sample .rv32ic (.short 0xC401) []).pc.toNat % 2 = 0 := by decide

theorem witness_FloatingPointRowsIllegal :
    isFloatRow (.cFld 7 7 31) = true ∧ isFloatRow (.cFswsp 31 63) = true := by decide

/-- One parcel of each reserved kind, in the order of the statement, is at the pc of some hart. -/
theorem witness_ReservedParcelsIllegal :
    ∀ p ∈ [0x0000, 0x001C, 0x8000, 0x6101, 0x6501, 0x9C01, 0x4002, 0x8002, 0x1FFE, 0x9381, 0x97FD],
      AtPc (sample .rv32ic (.short (BitVec.ofNat 16 p)) []) (.short (BitVec.ofNat 16 p)) := by
  unfold AtPc; decide

theorem witness_ReservedParcelsIllegal_kinds :
    (let p : Parcel := 0x001C; p.extractLsb' 0 2 = 0b00 ∧ p.extractLsb' 13 3 = 0b000 ∧ p.extractLsb' 5 8 = 0) ∧
    (let p : Parcel := 0x8000; p.extractLsb' 0 2 = 0b00 ∧ p.extractLsb' 13 3 = 0b100) ∧
    (let p : Parcel := 0x6101
     p.extractLsb' 0 2 = 0b01 ∧ p.extractLsb' 13 3 = 0b011 ∧ p.extractLsb' 12 1 = 0 ∧ p.extractLsb' 2 5 = 0) ∧
    (let p : Parcel := 0x9C01; p.extractLsb' 0 2 = 0b01 ∧ p.extractLsb' 10 6 = 0b100111) ∧
    (let p : Parcel := 0x4002; p.extractLsb' 0 2 = 0b10 ∧ p.extractLsb' 13 3 = 0b010 ∧ p.extractLsb' 7 5 = 0) ∧
    (let p : Parcel := 0x1FFE; p.extractLsb' 0 2 = 0b10 ∧ p.extractLsb' 12 4 = 0b0001) ∧
    (let p : Parcel := 0x97FD; p.extractLsb' 0 2 = 0b01 ∧ p.extractLsb' 12 4 = 0b1001 ∧ p.extractLsb' 11 1 = 0) := by
  decide

/-- A base instruction that completes, with a link, and one that faults. -/
theorem witness_CompressedIsItsExpansion :
    let h := sample .rv32ic (.short 0x2021) [(9, 0x2001)]
    (Instr.wf .rv32ic (.cJal 4) = true ∧ expansion (.cJal 4) = some (.jal 1 4) ∧
      exec (.jal 1 4) (at' h) = .next (at' { h.setX 1 0x1004 with pc := 0x1008 })) ∧
    Instr.wf .rv32ic (.cLw 0 1 0) = true ∧ expansion (.cLw 0 1 0) = some (.lw 8 9 0) ∧
      ∃ e, exec (.lw 8 9 0) (at' h) = .fault e :=
  ⟨⟨by decide, by decide, eq_next (by decide)⟩, by decide, by decide,
    let ⟨_, ht⟩ := trap_of (r := exec (.lw 8 9 0) (at' (sample .rv32ic (.short 0x2021) [(9, 0x2001)]))) (by decide)
    ⟨_, ht⟩⟩

/-- The low twelve bits zero, and not; their sign bit set. -/
theorem witness_LoadImmediateSpelling :
    (31 : RegNum) ≠ 0 ∧ lo12 0x12345000 = 0 ∧ lo12 0x12345FFF ≠ 0 := by decide

theorem witness_MulticycleRefinesStep :
    fetch storing = .next (.long 0x00732023) ∧ decode .rv32i (.long 0x00732023) = .ok (.sw 6 7 0) ∧
    Multicycle.control (.sw 6 7 0) = some ⟨.sw, 0, 6, 7, 0, .add⟩ ∧
    (∃ h' : Hart .rv32i, step (at' storing) = .next (at' h')) ∧ 0 < 1 ∧ 1 < Multicycle.Class.cycles .sw :=
  ⟨eq_next (by decide), by decide, by decide,
    ⟨{ storing with
        pc := 0x1004
        mem := Memory.place storing.mem 0x2000 [5, 0, 0, 0]
        stored := [0x2000, 0x2001, 0x2002, 0x2003] }, eq_next (by decide)⟩, by decide, by decide⟩

end Sys2Proof.Tests
end

section
/-! SUPPORT. Proofs for spec/00_scope.md: what a decoded word says of its length, the fetch of a word that stands at the pc,
and the step that runs it (spec/00_scope.md R10, spec/20_memory.md R47, spec/30_encoding.md R70). -/

namespace Sys2Proof.Machine

open Sys2Proof.Claims

variable {c : Isa} {h : Hart c}

/-! ### The two low bits of a decoded word (30_encoding R70) -/

/-- An accepted word is a row of the table that is well-formed in the configuration. -/
theorem decode_eq_ok {w : InstrWord} {i : Instr} : decode c w = .ok i ↔ decodeRow w = some i ∧ i.wf c = true := by
  unfold decode Instr.wf
  cases decodeRow w with
  | none => simp
  | some j =>
    simp only [Option.some.injEq, Bool.and_eq_true]
    constructor
    · intro hd
      split at hd
      · split at hd <;> simp_all
      · cases hd
    · rintro ⟨rfl, hf, ho⟩
      simp [hf, ho]

theorem isLong_iff {p : Parcel} : isLong p = true ↔ p.toNat % 4 = 3 := by
  rw [isLong, beq_iff_eq, ← BitVec.toNat_inj]
  simp [BitVec.extractLsb]

/-- The opcode of every 32-bit row ends in 11. -/
theorem isLong_of_decode32 {w : BitVec 32} {i : Instr} (hd : decode32 w = some i) : isLong (w.extractLsb 15 0) = true := by
  have hop : (opcodeOf w).toNat % 4 = 3 := by
    unfold decode32 at hd
    split at hd <;> simp_all
  simp only [opcodeOf, BitVec.extractLsb, toNat_slice] at hop
  rw [isLong_iff, BitVec.extractLsb, toNat_slice]
  omega

/-- No 16-bit row has op = 11. -/
theorem isLong_of_decode16 {p : Parcel} {i : Instr} (hd : decode16 p = some i) : isLong p = false := by
  have hop : (cOpOf p).toNat ≠ 3 := by
    intro e
    simp [decode16, e] at hd
  simp only [cOpOf, BitVec.extractLsb, toNat_slice] at hop
  rw [← Bool.not_eq_true, isLong_iff]
  omega

/-! ### Fetching the word at the pc (20_memory R47) -/

theorem fetchParcel_of_parcelBytes {a : Nat} {p : Parcel} (hp : permitted c h.memMap .execute a 2 = true)
    (h0 : h.byteAt a = some (p.extractLsb 7 0) ∧ a ∉ h.stored)
    (h1 : h.byteAt (a + 1) = some (p.extractLsb 15 8) ∧ a + 1 ∉ h.stored) : fetchParcel h a = .next p := by
  rw [fetchParcel_of hp h0.2 h1.2 h0.1 h1.1, parcelOf_parcelBytes]

theorem misalignedTarget_eq_false {t : BitVec c.xlen} : misalignedTarget c t = false ↔ t.toNat % c.instrAlign = 0 := by
  simp [misalignedTarget]

theorem fetch_of_atPc_short {p : Parcel} (hat : AtPc h (.short p)) (hl : isLong p = false) : fetch h = .next (.short p) := by
  obtain ⟨halign, hbytes, hexec, -⟩ := hat
  have hp : fetchParcel h h.pc.toNat = .next p :=
    fetchParcel_of_parcelBytes hexec (hbytes 0 Nat.zero_lt_two) (hbytes 1 Nat.one_lt_two)
  exact fetch_eq_next.2 ⟨misalignedTarget_eq_false.2 halign, p, hp, .inl ⟨hl, rfl⟩⟩

theorem fetch_of_atPc_long {w : BitVec 32} (hat : AtPc h (.long w)) (hl : isLong (w.extractLsb 15 0) = true) :
    fetch h = .next (.long w) := by
  obtain ⟨halign, hbytes, hexec, hexec'⟩ := hat
  have hlen : (InstrWord.long w).bytes.length = 4 := rfl
  have hp0 : fetchParcel h h.pc.toNat = .next (w.extractLsb 15 0) :=
    fetchParcel_of_parcelBytes hexec (hbytes 0 (by omega)) (hbytes 1 (by omega))
  have hp1 : fetchParcel h (h.pc.toNat + 2) = .next (w.extractLsb 31 16) :=
    fetchParcel_of_parcelBytes (hexec' hlen) (hbytes 2 (by omega)) (hbytes 3 (by omega))
  have hw : w = w.extractLsb 31 16 ++ w.extractLsb 15 0 :=
    (slice_all w).symm.trans (slice_join w 16 0 16 16 rfl).symm
  exact fetch_eq_next.2
    ⟨misalignedTarget_eq_false.2 halign, _, hp0, .inr ⟨hl, _, hp1, congrArg InstrWord.long hw⟩⟩

/-- A word that is an instruction is fetched from the pc: its low bits agree with its length. -/
theorem fetch_of_atPc_of_decode {w : InstrWord} {i : Instr} (hat : AtPc h w) (hd : decode c w = .ok i) :
    fetch h = .next w := by
  have hrow := (decode_eq_ok.1 hd).1
  cases w with
  | short p => exact fetch_of_atPc_short hat (isLong_of_decode16 hrow)
  | long w => exact fetch_of_atPc_long hat (isLong_of_decode32 hrow)

/-- Settles O13: the word at the pc is fetched, and a step runs the instruction that the fetched word decodes to. -/
theorem stepRunsDecodedInstruction : Obligations.StepRunsDecodedInstruction := by
  intro c h w i hat hd
  calc step (at' h) = runWord (at' h) w := step_of_fetch (fetch_of_atPc_of_decode hat hd)
    _ = exec i (at' h) := runWord_of_decode hd

end Sys2Proof.Machine
end

section
/-! SUPPORT. Proofs for spec/10_state.md: every launch meets the invariant (R35), every step keeps it (R27, R31), and a load
stops at the first of its bytes that holds no value (R36). -/

namespace Sys2Proof.Machine

open Sys2Proof.Claims

variable {c : Isa} {h : Hart c}

/-! ### The invariant at a launch -/

/-- At a launch no store has run, so nothing is asked of the addresses stored to. -/
theorem inv_launch {m : MemMap} {p : BitVec c.xlen} {mem : Memory} {regs : Vector (BitVec c.xlen) 31}
    (hp : p.toNat % c.instrAlign = 0) (hmap : MemMap.wf c m = true) (hmem : Memory.wf mem = true)
    (hin : ∀ q ∈ mem, q.1 < 2 ^ c.xlen) : (State.launch c m p mem regs).Inv :=
  { pcAligned := misalignedTarget_eq_false.2 hp
    memRising := hmem
    memInside := hin
    mapOk := hmap
    storedRising := List.Pairwise.nil
    storedWritten := List.forall_mem_nil _ }

theorem resetMemMap_wf (c : Isa) : MemMap.wf c (Config.resetMemMap c) = true := by
  simp [MemMap.wf, Config.resetMemMap]

theorem inv_reset : State.reset.Inv :=
  inv_launch (Nat.zero_mod _) (resetMemMap_wf _) rfl (List.forall_mem_nil _)

/-- Settles O2: a launch with aligned RESET_PC, well-formed map and memory meets the invariant, and reset is such a launch. -/
theorem launchMeetsInvariant : Obligations.LaunchMeetsInvariant :=
  ⟨inv_reset, fun _ _ _ _ _ hp hmap hmem hin => inv_launch hp hmap hmem hin⟩

/-! ### The invariant along a step -/

/-- A fetched word that runs to a next state is an instruction, executed. -/
theorem runWord_eq_next {s t : State} {w : InstrWord} :
    runWord s w = .next t ↔ ∃ i, decode s.isa w = .ok i ∧ exec i s = .next t := by
  unfold runWord
  cases decode s.isa w with
  | ok i => simp
  | error e => simp [raise]

/-- A step that completes has fetched a word, decoded it and executed the instruction. -/
theorem step_eq_next {s t : State} :
    step s = .next t ↔ ∃ w i, fetch s.hart = .next w ∧ decode s.isa w = .ok i ∧ exec i s = .next t := by
  simp only [step_eq, andThen_eq_next, runWord_eq_next, exists_and_left]

/-- No instruction breaks the invariant: it makes one register change or one store. -/
theorem exec_keeps_inv {s t : State} {i : Instr} (hs : s.Inv) (hn : exec i s = .next t) : t.Inv := by
  obtain ⟨h', rfl, hreg | ⟨-, hstore⟩⟩ := exec_next_cases hn
  · exact inv_regChange hs hreg
  · exact inv_storeChange hs hstore

/-- Settles O3: fetch and decode change nothing, and the executed instruction keeps the invariant. -/
theorem stepKeepsInvariant : Obligations.StepKeepsInvariant := by
  intro s t hs hn
  obtain ⟨w, i, -, -, hexec⟩ := step_eq_next.1 hn
  exact exec_keeps_inv hs hexec

/-! ### Loads of undefined bytes (10_state R36, log entry 5) -/

/-- An instruction that is a load of n bytes at `a` stops at the first of them without a value. -/
theorem stopsAtUndefinedByte_of_loadInto {i : Instr} {a : BitVec c.xlen} {n ilen : Nat} {rd : RegNum}
    {ext : BitVec (8 * n) → BitVec c.xlen}
    (hi : exec i (at' h) = andThen (loadInto h ilen rd a n ext) fun h' => .next (at' h')) :
    StopsAtUndefinedByte h i a n := by
  intro ha hp k hk hd hu
  have hstop : loadInto h ilen rd a n ext = .fault (.undefinedByte (a.toNat + k)) :=
    loadInto_eq_fault.2 (memRead_undefinedByte ha hp hk hd hu)
  rw [hi, hstop, andThen_fault]

/-- The same for a load that only some configurations have, in one that has it. -/
theorem stopsAtUndefinedByte_of_whenLegal {i : Instr} {a : BitVec c.xlen} {n ilen : Nat} {rd : RegNum}
    {ext : BitVec (8 * n) → BitVec c.xlen} (hw : i.wf c = true)
    (hi : exec i (at' h) = andThen (whenLegal h i (loadInto h ilen rd a n ext)) fun h' => .next (at' h')) :
    StopsAtUndefinedByte h i a n :=
  stopsAtUndefinedByte_of_loadInto (hi.trans (by rw [whenLegal_wf hw]))

theorem cLwsp_wf {rd : RegNum} {u : BitVec 6} (hrd : rd ≠ 0) : Instr.wf .rv32ic (.cLwsp rd u) = true :=
  decide_eq_true hrd

/-- Settles O40: each of the nine loads is `loadInto` at its address and width. -/
theorem undefinedByteStopsLoad : Obligations.UndefinedByteStopsLoad := by
  refine ⟨fun c h rd rs1 imm => ?base, fun h rd rs1 imm => ?rv64, fun h rd rd' rs1' u v => ?compressed⟩
  case base =>
    exact ⟨stopsAtUndefinedByte_of_loadInto rfl, stopsAtUndefinedByte_of_loadInto rfl,
      stopsAtUndefinedByte_of_loadInto rfl, stopsAtUndefinedByte_of_loadInto rfl, stopsAtUndefinedByte_of_loadInto rfl⟩
  case rv64 =>
    exact ⟨stopsAtUndefinedByte_of_whenLegal rfl rfl, stopsAtUndefinedByte_of_whenLegal rfl rfl⟩
  case compressed =>
    exact ⟨stopsAtUndefinedByte_of_whenLegal rfl rfl,
      fun hrd => stopsAtUndefinedByte_of_whenLegal (cLwsp_wf hrd) rfl⟩

end Sys2Proof.Machine
end

section
/-! SUPPORT. Proofs for spec/20_memory.md: when an access is permitted (R42, R53), the order of bytes (R43, R44), which
instructions reach memory (R41), loads to x0 (R52), and the refusal of self-modified code (R58). -/

namespace Sys2Proof.Machine

open Sys2Proof.Claims

variable {c : Isa} {h h' : Hart c}

/-! ### Permitted accesses (20_memory R42, R53) -/

theorem regionAllows_eq_true {r : Region} {k : Access} :
    regionAllows r k = true ↔
      (k = .read → r.r = true) ∧ (k = .write → r.w = true) ∧ (k = .execute → r.x = true) := by
  cases k <;> simp [regionAllows]

/-- A region covers an access of at least one byte exactly where it holds each of its bytes. -/
theorem regionCovers_eq_true {r : Region} {a n : Nat} (hn : 0 < n) :
    regionCovers r a n = true ↔ ∀ b, a ≤ b → b ≤ a + n - 1 → r.base ≤ b ∧ b < r.base + r.size := by
  rw [regionCovers, decide_eq_true_eq]
  constructor
  · intro hcov b hab hba
    omega
  · intro hall
    have hfirst := hall a (by omega) (by omega)
    have hlast := hall (a + n - 1) (by omega) (by omega)
    omega

theorem permitted_eq_true {m : MemMap} {k : Access} {a n : Nat} :
    permitted c m k a n = true ↔
      a + n ≤ 2 ^ c.xlen ∧ ∃ r ∈ m, regionAllows r k = true ∧ regionCovers r a n = true := by
  simp [permitted]

/-- Settles O17: one region allows the kind of access and holds its bytes, and the last byte is below the top. -/
theorem permittedAccesses : Obligations.PermittedAccesses := by
  intro c m k a n hn
  have htop : a + n ≤ 2 ^ c.xlen ↔ a + n - 1 ≤ 2 ^ c.xlen - 1 := by
    have := Nat.two_pow_pos c.xlen
    omega
  simp only [permitted_eq_true, regionAllows_eq_true, regionCovers_eq_true hn, htop, and_assoc]

/-! ### Byte order (20_memory R43, R44) -/

/-- A load of m of the n bytes of a stored value. -/
theorem Memory.readLE_writeLE_slice (mem : Memory) (a n : Nat) (v : BitVec (8 * n)) {k m : Nat} (hk : k + m ≤ n) :
    Memory.readLE (Memory.writeLE mem a n v) (a + k) m = some (v.extractLsb' (8 * k) (8 * m)) := by
  apply Memory.readLE_eq_some
  intro i hi
  rw [Nat.add_assoc, Memory.read_writeLE_inside _ _ _ _ _ (by omega), slice_slice _ _ _ _ _ (by omega), Nat.mul_add]

theorem toNat_add_ofNat_of_lt {a : BitVec c.xlen} {k : Nat} (hk : a.toNat + k < 2 ^ c.xlen) :
    (a + BitVec.ofNat c.xlen k).toNat = a.toNat + k := by
  rw [BitVec.toNat_add, BitVec.toNat_ofNat, Nat.add_mod_mod, Nat.mod_eq_of_lt hk]

/-- Settles O41: the permitted store does not wrap, so the load reads at the stored bytes and finds each of them. -/
theorem byteOrderIsLittleEndian : Obligations.ByteOrderIsLittleEndian := by
  intro c h h' a n k m v hw hm hk halign hperm
  obtain ⟨-, hpw, rfl⟩ := memWrite_eq_next.1 hw
  have haddr : (a + BitVec.ofNat c.xlen k).toNat = a.toNat + k := by
    have := permitted_inside hpw
    exact toNat_add_ofNat_of_lt (by omega)
  rw [memRead_eq_next, haddr]
  exact ⟨halign, hperm, Memory.readLE_writeLE_slice _ _ _ _ hk⟩

/-! ### Loads to x0 (20_memory R52) -/

/-- Two loads of the same bytes, one of them to x0: they stop alike, and what completes to x0 only advances the pc. -/
theorem loadInto_x0_checks {i₀ i : Instr} {ilen : Nat} {rd : RegNum} {a : BitVec c.xlen} {n : Nat}
    {ext : BitVec (8 * n) → BitVec c.xlen}
    (h₀ : exec i₀ (at' h) = andThen (loadInto h ilen 0 a n ext) fun h' => .next (at' h'))
    (hi : exec i (at' h) = andThen (loadInto h ilen rd a n ext) fun h' => .next (at' h')) :
    (∀ e, exec i₀ (at' h) = .fault e ↔ exec i (at' h) = .fault e) ∧
    ∀ h' : Hart c, exec i (at' h) = .next (at' h') → exec i₀ (at' h) = .next (at' (h.advance ilen)) := by
  rw [h₀, hi]
  constructor
  · intro e
    simp [andThen_eq_fault, loadInto_eq_fault]
  · intro h' hn
    obtain ⟨g, hg, -⟩ := andThen_eq_next.1 hn
    obtain ⟨v, halign, hperm, hv, -⟩ := loadInto_eq_next.1 hg
    have hx0 : loadInto h ilen 0 a n ext = .next (h.advance ilen) :=
      loadInto_eq_next.2 ⟨v, halign, hperm, hv, by rw [Hart.setX_zero]⟩
    rw [hx0, andThen_next]

theorem isa_eq_rv64i (hc : c.xlen = 64) : c = .rv64i := by
  cases c with
  | rv64i => rfl
  | rv32ic | rv32i => exact absurd hc (by decide)

/-- Settles O39: each pair of loads differs in the destination only. -/
theorem loadToX0StillChecks : Obligations.LoadToX0StillChecks := by
  intro c h rd rs1 imm p hp
  simp only [List.mem_cons, List.not_mem_nil, or_false] at hp
  rcases hp with hp | ⟨hc, hp⟩
  · rcases hp with rfl | rfl | rfl | rfl | rfl <;> exact loadInto_x0_checks rfl rfl
  · obtain rfl := isa_eq_rv64i hc
    rcases hp with rfl | rfl <;> exact loadInto_x0_checks rfl rfl

/-! ### Which instructions reach memory (20_memory R41) -/

/-- Writing a register and the pc leaves memory alone. -/
theorem sameMemory_regChange (hc : RegChange h h') : SameMemory h h' := by
  obtain ⟨rd, v, t, rfl, -⟩ := hc
  exact ⟨fun a => by simp, by simp, by simp⟩

/-- An instruction that completes and is no store changes one register and the pc. -/
theorem exec_regChange_of_not_isStore {i : Instr} (hi : isStore i = false) (hn : exec i (at' h) = .next (at' h')) :
    RegChange h h' := by
  obtain ⟨g, hg, hreg | ⟨hstore, -⟩⟩ := exec_next_cases hn
  · injection hg with _ hg
    exact hg ▸ hreg
  · simp [hi] at hstore

/-- The hart with other memory. -/
def Hart.withMem (h : Hart c) (m : Memory) : Hart c := { h with mem := m }

theorem Hart.setX_withMem (m : Memory) (rd : RegNum) (v : BitVec c.xlen) :
    (h.withMem m).setX rd v = (h.setX rd v).withMem m := by
  unfold Hart.setX
  split <;> rfl

/-- A rule that, where it completes, does the same whatever memory holds. -/
def MemBlind (f : Hart c → HartResult c) : Prop :=
  ∀ (h h' : Hart c) (m : Memory), f h = .next h' → f (h.withMem m) = .next (h'.withMem m)

theorem memBlind_writeReg {ilen : Nat} {rd : RegNum} {v : Hart c → BitVec c.xlen} (hv : ∀ h m, v (h.withMem m) = v h) :
    MemBlind fun h => writeReg h ilen rd (v h) := by
  intro h h' m hn
  rw [writeReg_eq_next.1 hn, writeReg_eq_next, hv, Hart.setX_withMem]
  rfl

theorem memBlind_jumpAndLink {ilen : Nat} {rd : RegNum} {t : Hart c → BitVec c.xlen} (ht : ∀ h m, t (h.withMem m) = t h) :
    MemBlind fun h => jumpAndLink h ilen rd (t h) := by
  intro h h' m hn
  obtain ⟨halign, rfl⟩ := jumpAndLink_eq_next.1 hn
  refine jumpAndLink_eq_next.2 ⟨by rwa [ht], ?_⟩
  rw [ht, Hart.setX_withMem]
  rfl

theorem memBlind_branchTo {ilen : Nat} {taken : Hart c → Bool} {t : Hart c → BitVec c.xlen}
    (hb : ∀ h m, taken (h.withMem m) = taken h) (ht : ∀ h m, t (h.withMem m) = t h) :
    MemBlind fun h => branchTo h ilen (taken h) (t h) := by
  intro h h' m hn
  rw [branchTo_eq_next, hb, ht]
  rcases branchTo_eq_next.1 hn with ⟨hnot, rfl⟩ | ⟨htaken, halign, rfl⟩
  · exact .inl ⟨hnot, rfl⟩
  · exact .inr ⟨htaken, halign, rfl⟩

theorem memBlind_advance {ilen : Nat} : MemBlind fun h : Hart c => .next (h.advance ilen) := by
  intro h h' m hn
  injection hn with hn
  exact hn ▸ rfl

theorem memBlind_raise {cause : Cause} {tval : Hart c → BitVec c.xlen} :
    MemBlind fun h => raise h cause (tval h) := by
  intro h h' m hn
  simp [raise] at hn

theorem memBlind_whenLegal {i : Instr} {f : Hart c → HartResult c} (hf : MemBlind f) :
    MemBlind fun h => whenLegal h i (f h) := by
  intro h h' m hn
  obtain ⟨hw, hn⟩ := whenLegal_eq_next.1 hn
  exact whenLegal_eq_next.2 ⟨hw, hf h h' m hn⟩

/-- The rule of every instruction that neither loads nor stores is blind to memory: it reads registers and the pc. -/
theorem exec_memBlind (i : Instr) (hs : isStore i = false) (hl : isLoad i = false) :
    ∃ f : Hart c → HartResult c,
      (∀ h, exec i (at' h) = andThen (f h) fun h' => .next (at' h')) ∧ MemBlind f := by
  cases i with
  | lb | lh | lw | lbu | lhu | lwu | ld | cLw | cLwsp => exact Bool.noConfusion hl
  | sb | sh | sw | sd | cSw | cSwsp => exact Bool.noConfusion hs
  | lui | auipc | addi | slti | sltiu | xori | ori | andi | add | sub | sll | slt | sltu | xor | srl | sra | or | and =>
    exact ⟨_, fun _ => rfl, memBlind_writeReg fun _ _ => rfl⟩
  | slli | srli | srai | addiw | slliw | srliw | sraiw | addw | subw | sllw | srlw | sraw | cAddi4spn | cNop | cAddi | cLi
    | cAddi16sp | cLui | cSrli | cSrai | cAndi | cSub | cXor | cOr | cAnd | cSlli64 | cSlli | cMv | cAdd =>
    exact ⟨_, fun _ => rfl, memBlind_whenLegal (memBlind_writeReg fun _ _ => rfl)⟩
  | jal | jalr => exact ⟨_, fun _ => rfl, memBlind_jumpAndLink fun _ _ => rfl⟩
  | cJal | cJ | cJr | cJalr => exact ⟨_, fun _ => rfl, memBlind_whenLegal (memBlind_jumpAndLink fun _ _ => rfl)⟩
  | beq | bne | blt | bge | bltu | bgeu =>
    exact ⟨_, fun _ => rfl, memBlind_branchTo (fun _ _ => rfl) fun _ _ => rfl⟩
  | cBeqz | cBnez =>
    exact ⟨_, fun _ => rfl, memBlind_whenLegal (memBlind_branchTo (fun _ _ => rfl) fun _ _ => rfl)⟩
  | fence => exact ⟨_, fun _ => rfl, memBlind_advance⟩
  | ecall | ebreak | cIllegal | cFld | cFlw | cFsd | cFsw | cFldsp | cFlwsp | cFsdsp | cFswsp =>
    exact ⟨_, fun _ => rfl, memBlind_raise⟩
  | cEbreak => exact ⟨_, fun _ => rfl, memBlind_whenLegal memBlind_raise⟩

/-- Settles O5: what is no store is a register change; what is no load either has a rule that is blind to memory. -/
theorem onlyLoadsAndStoresAccessMemory : Obligations.OnlyLoadsAndStoresAccessMemory := by
  intro c h h' i hn
  refine ⟨fun hs => sameMemory_regChange (exec_regChange_of_not_isStore hs hn), fun hs hl m => ?_⟩
  obtain ⟨f, hexec, hblind⟩ := exec_memBlind (c := c) i hs hl
  have hf : f h = .next h' := by
    obtain ⟨g, hg, hgh⟩ := andThen_eq_next.1 ((hexec h).symm.trans hn)
    simpa [hg] using hgh
  show exec i (at' (h.withMem m)) = .next (at' (h'.withMem m))
  rw [hexec, hblind h h' m hf, andThen_next]

/-! ### Self-modified code (20_memory R58, log entries 6 and 11) -/

/-- Neither byte of a fetched parcel has been stored to. -/
theorem fetchParcel_not_stored {a k : Nat} {p : Parcel} (hp : fetchParcel h a = .next p) (hk : k < 2) :
    a + k ∉ h.stored := by
  obtain ⟨-, b0, b1, h0, h1, -⟩ := fetchParcel_eq_next.1 hp
  match k, hk with
  | 0, _ => exact (fetchByte_eq_next.1 h0).1
  | 1, _ => exact (fetchByte_eq_next.1 h1).1

/-- No byte of a fetched word has been stored to. -/
theorem fetch_not_stored {w : InstrWord} {k : Nat} (hf : fetch h = .next w) (hk : k < w.bytes.length) :
    h.pc.toNat + k ∉ h.stored := by
  obtain ⟨-, p0, hp0, ⟨-, rfl⟩ | ⟨-, p1, hp1, rfl⟩⟩ := fetch_eq_next.1 hf
  · exact fetchParcel_not_stored hp0 hk
  · have hk4 : k < 4 := hk
    by_cases hlow : k < 2
    · exact fetchParcel_not_stored hp0 hlow
    · have := fetchParcel_not_stored hp1 (k := k - 2) (by omega)
      rwa [show h.pc.toNat + 2 + (k - 2) = h.pc.toNat + k by omega] at this

/-- A stored first byte stops the fetch of a parcel before its second byte is looked at. -/
theorem fetchParcel_refused_of_stored {a : Nat} (hp : permitted c h.memMap .execute a 2 = true) (ha : a ∈ h.stored) :
    fetchParcel h a = .refused (.fetchOfStoredByte a) := by
  rw [fetchParcel, if_pos hp, fetchByte_eq_refused.2 ⟨ha, rfl⟩, andThen_refused]

/-- A stored byte at the pc stops the fetch of a word before the second parcel is looked at. -/
theorem fetch_refused_of_stored (hpc : h.pc.toNat % c.instrAlign = 0)
    (hp : permitted c h.memMap .execute h.pc.toNat 2 = true) (ha : h.pc.toNat ∈ h.stored) :
    fetch h = .refused (.fetchOfStoredByte h.pc.toNat) := by
  have halign : ¬ misalignedTarget c h.pc = true := by simp [misalignedTarget_eq_false.2 hpc]
  rw [fetch, if_neg halign, fetchParcel_refused_of_stored hp ha, andThen_refused]

/-- Every byte that a store writes counts as stored. -/
theorem memWrite_stores {a : BitVec c.xlen} {n k : Nat} {v : BitVec (8 * n)} (hw : memWrite h a n v = .next h')
    (hk : k < n) : a.toNat + k ∈ h'.stored := by
  obtain ⟨-, -, rfl⟩ := memWrite_eq_next.1 hw
  rw [Hart.store_stored, mem_insertAddrs]
  exact .inl (by omega)

/-- An instruction forgets no stored address. -/
theorem exec_keeps_stored {s t : State} {i : Instr} {a : Nat} (hn : exec i s = .next t) (ha : a ∈ s.hart.stored) :
    a ∈ t.hart.stored := by
  obtain ⟨h', rfl, ⟨rd, v, u, rfl, -⟩ | ⟨-, b, n, v, u, -, rfl, -⟩⟩ := exec_next_cases hn
  · rwa [Hart.setPc_stored, Hart.setX_stored]
  · rw [Hart.setPc_stored, Hart.store_stored, mem_insertAddrs]
    exact .inr ha

/-- Settles O10: fetch asks of each byte whether it is stored, a store adds its bytes and no step removes one. -/
theorem selfModifiedCodeRefused : Obligations.SelfModifiedCodeRefused := by
  refine ⟨fun c h w k => fetch_not_stored, fun c h hpc hp ha => ?_, fun c h h' a n k v => memWrite_stores,
    fun s t a hn ha => ?_⟩
  · rw [step_eq, fetch_refused_of_stored hpc hp ha, andThen_refused]
  · obtain ⟨w, i, -, -, hexec⟩ := step_eq_next.1 hn
    exact exec_keeps_stored hexec ha

/-! ### No refusal where code is not writable (20_memory R58) -/

theorem runWord_ne_refused {s : State} {w : InstrWord} {r : Refusal} : runWord s w ≠ .refused r := by
  unfold runWord
  split
  · exact exec_ne_refused
  · simp [raise]

/-- The fetch of a word is refused where the fetch of one of its parcels is. -/
theorem fetchParcel_refused_of_fetch {e : Refusal} (he : fetch h = .refused e) :
    ∃ a, fetchParcel h a = .refused e := by
  unfold fetch at he
  split at he
  · simp [raise] at he
  · rcases andThen_eq_refused.1 he with h0 | ⟨p0, -, h0⟩
    · exact ⟨_, h0⟩
    · split at h0
      · rcases andThen_eq_refused.1 h0 with h1 | ⟨p1, -, h1⟩
        · exact ⟨_, h1⟩
        · simp at h1
      · simp at h0

/-- A step is refused only in fetch, at a stored byte that may be executed. -/
theorem exists_stored_executable_of_step_refused {s : State} {r : Refusal} (hr : step s = .refused r) :
    ∃ k ∈ s.hart.stored, permitted s.isa s.hart.memMap .execute k 1 = true := by
  have hfetch : fetch s.hart = .refused r := by
    rcases andThen_eq_refused.1 hr with hf | ⟨w, -, hw⟩
    · exact hf
    · exact absurd hw runWord_ne_refused
  obtain ⟨a, ha⟩ := fetchParcel_refused_of_fetch hfetch
  obtain ⟨hp, k, rfl | rfl, hk, -⟩ := fetchParcel_eq_refused ha
  · exact ⟨k, hk, permitted_byte hp Nat.zero_lt_two⟩
  · exact ⟨a + 1, hk, permitted_byte hp Nat.one_lt_two⟩

theorem regionsApart_comm (p q : Region) : regionsApart p q = regionsApart q p := by
  simp only [regionsApart, decide_eq_decide]
  tauto

/-- Regions that share a byte are not apart. -/
theorem regionsApart_eq_false {p q : Region} {a : Nat} (hp : regionCovers p a 1 = true)
    (hq : regionCovers q a 1 = true) : regionsApart p q = false := by
  simp only [regionCovers, regionsApart, decide_eq_true_eq, decide_eq_false_iff_not] at *
  omega

/-- In a map of disjoint regions one region holds a given byte. -/
theorem MemMap.region_unique {m : MemMap} (hm : MemMap.wf c m = true) {p q : Region} {a : Nat} (hpm : p ∈ m)
    (hqm : q ∈ m) (hp : regionCovers p a 1 = true) (hq : regionCovers q a 1 = true) : p = q := by
  simp only [MemMap.wf, Bool.and_eq_true, decide_eq_true_eq] at hm
  have hsymm : Std.Symm fun p q : Region => regionsApart p q = true :=
    ⟨fun p q hpq => by rwa [regionsApart_comm]⟩
  by_contra hne
  have hapart : regionsApart p q = true := hm.1.forall hpm hqm hne
  simp [regionsApart_eq_false hp hq] at hapart

/-- A map of disjoint regions, none both writable and executable, has no byte that is both. -/
theorem MemMap.not_executable_of_writable {m : MemMap} (hm : MemMap.wf c m = true) (hx : MemMap.writeXorExecute m)
    {a : Nat} (hw : permitted c m .write a 1 = true) : permitted c m .execute a 1 = false := by
  rw [← Bool.not_eq_true]
  intro he
  obtain ⟨-, p, hpm, hpw, hpa⟩ := permitted_eq_true.1 hw
  obtain ⟨-, q, hqm, hqx, hqa⟩ := permitted_eq_true.1 he
  obtain rfl := MemMap.region_unique hm hpm hqm hpa hqa
  exact hx p hpm ⟨hpw, hqx⟩

/-- Settles O11: a refusal needs a stored byte that may be executed, and by the invariant a stored byte is writable. -/
theorem writeXorExecuteNeverRefused : Obligations.WriteXorExecuteNeverRefused := by
  intro s r hs hx hr
  obtain ⟨k, hk, hexec⟩ := exists_stored_executable_of_step_refused hr
  have hwrite := (hs.storedWritten k hk).2
  simp [MemMap.not_executable_of_writable hs.mapOk hx hwrite] at hexec

end Sys2Proof.Machine
end

section
/-! SUPPORT. Proofs for spec/30_encoding.md: decode and encode undo each other (R70 to R97), and a decoded word has the
bits of its row of the opcode table under the row's mask. -/

namespace Sys2Proof

open Machine (decode_eq_ok isLong_of_decode16 isLong_of_decode32)

/-! ### Slices and fields -/

/-- A slice of a slice whose value is known. -/
theorem slice_of_slice {n s l : Nat} {x : BitVec n} {v : BitVec l} (hv : x.extractLsb' s l = v) (s' l' : Nat)
    (hb : s' + l' ≤ l) : x.extractLsb' (s + s') l' = v.extractLsb' s' l' := by
  rw [← slice_slice _ _ _ _ _ hb, hv]

/-- The six-bit immediate of a parcel lies in inst[12] and inst[6:2] (R87, R96). -/
theorem cImm6Of_eq (p : Parcel) : cImm6Of p = cBit12Of p ++ cRs2Of p := rfl

/-- A field that a match has compared with a literal is the literal. -/
theorem ofNat_of_toNat_eq {n k : Nat} {x : BitVec n} (h : x.toNat = k) : BitVec.ofNat n k = x := by
  rw [← h, BitVec.ofNat_toNat, BitVec.setWidth_eq]

/-- The value left to the last arm of a match on a two-bit field. -/
theorem toNat_eq_three {x : BitVec 2} (h0 : x.toNat ≠ 0) (h1 : x.toNat ≠ 1) (h2 : x.toNat ≠ 2) : x.toNat = 3 := by
  have := x.isLt
  omega

/-- The value left to the last arm of a match on a three-bit field. -/
theorem toNat_eq_seven {x : BitVec 3} (h0 : x.toNat ≠ 0) (h1 : x.toNat ≠ 1) (h2 : x.toNat ≠ 2) (h3 : x.toNat ≠ 3)
    (h4 : x.toNat ≠ 4) (h5 : x.toNat ≠ 5) (h6 : x.toNat ≠ 6) : x.toNat = 7 := by
  have := x.isLt
  omega

/-! ### Decode undoes encode -/

/-- A 32-bit word is its two parcels, the low one first in memory (20_memory R47). -/
theorem parcels_eq (w : BitVec 32) : w.extractLsb 31 16 ++ w.extractLsb 15 0 = w :=
  (slice_join w 16 0 16 16 rfl).trans (slice_all w)

/-- A word that matches a row stands at the front of its bytes: its low bits say its own length (R70). -/
theorem splitWord_bytes {w : InstrWord} {i : Instr} (hrow : decodeRow w = some i) (rest : List Byte) :
    splitWord (w.bytes ++ rest) = some (w, rest) := by
  cases w with
  | short p => simp [InstrWord.bytes, parcelBytes, splitWord, parcelOf_parcelBytes, isLong_of_decode16 hrow]
  | long v =>
    simp only [InstrWord.bytes, parcelBytes, List.cons_append, List.nil_append, splitWord, parcelOf_parcelBytes,
      isLong_of_decode32 hrow, if_true]
    exact congrArg (fun u => some (InstrWord.long u, rest)) (parcels_eq v)

/-- The bytes of a word that decodes, whatever follows them, decode to the same instruction. -/
theorem decodeBytes_of_decode {c : Isa} {w : InstrWord} {i : Instr} (hd : decode c w = .ok i) (rest : List Byte) :
    decodeBytes c (w.bytes ++ rest) = .ok (i, rest) := by
  simp [decodeBytes, splitWord_bytes (decode_eq_ok.1 hd).1, hd]

open Laws.RoundTrip in
/-- `decode` undoes `encode` on every instruction: the lemmas of Laws/PerInstr.lean, one per constructor, in order. -/
theorem decode_encode {c : Isa} {i : Instr} (hw : i.wf c = true) : decode c (encode i) = .ok i :=
  Instr.casesOn (motive := Statement) i lui auipc jal jalr beq bne blt bge bltu bgeu lb lh lw lbu lhu sb sh sw addi slti
    sltiu xori ori andi slli srli srai add sub sll slt sltu xor srl sra or and fence ecall ebreak lwu ld sd addiw slliw
    srliw sraiw addw subw sllw srlw sraw cIllegal cAddi4spn cFld cLw cFlw cFsd cSw cFsw cNop cAddi cJal cLi cAddi16sp
    cLui cSrli cSrai cAndi cSub cXor cOr cAnd cJ cBeqz cBnez cSlli64 cSlli cFldsp cLwsp cFlwsp cJr cMv cEbreak cJalr
    cAdd cFsdsp cSwsp cFswsp c hw

/-- Settles O18: the encoded word decodes to the instruction, and its bytes begin with exactly that word. -/
theorem decodeUndoesEncode : Obligations.DecodeUndoesEncode :=
  fun _ _ rest hw => decodeBytes_of_decode (decode_encode hw) rest

/-! ### Encode undoes decode

Each format is made of the fields read from a word (the converse of the `_fields` lemmas of Laws/Decode.lean): the
encoder's pieces are slices of the word that join to the whole word. -/

section
variable {w : BitVec 32} {op : BitVec 7} {f3 : BitVec 3}

theorem encR_of_fields {f7 : BitVec 7} (ho : (opcodeOf w).toNat = op.toNat) (h3 : (funct3Of w).toNat = f3.toNat)
    (h7 : (funct7Of w).toNat = f7.toNat) : encR f7 (rs2Of w) (rs1Of w) f3 (rdOf w) op = w := by
  obtain rfl := BitVec.eq_of_toNat_eq ho
  obtain rfl := BitVec.eq_of_toNat_eq h3
  obtain rfl := BitVec.eq_of_toNat_eq h7
  simp (disch := decide) only [encR, opcodeOf, rdOf, funct3Of, rs1Of, rs2Of, funct7Of, BitVec.extractLsb, slice_join,
    -Nat.reduceAdd]
  exact slice_all w

theorem encI_of_fields (ho : (opcodeOf w).toNat = op.toNat) (h3 : (funct3Of w).toNat = f3.toNat) :
    encI (immIOf w) (rs1Of w) f3 (rdOf w) op = w := by
  obtain rfl := BitVec.eq_of_toNat_eq ho
  obtain rfl := BitVec.eq_of_toNat_eq h3
  simp (disch := decide) only [encI, opcodeOf, rdOf, funct3Of, rs1Of, immIOf, BitVec.extractLsb, slice_join,
    -Nat.reduceAdd]
  exact slice_all w

theorem encShift_of_fields {f6 : BitVec 6} (ho : (opcodeOf w).toNat = op.toNat) (h3 : (funct3Of w).toNat = f3.toNat)
    (h6 : funct6Of w = f6) : encShift f6 (shamt6Of w) (rs1Of w) f3 (rdOf w) op = w := by
  obtain rfl := BitVec.eq_of_toNat_eq ho
  obtain rfl := BitVec.eq_of_toNat_eq h3
  subst h6
  simp (disch := decide) only [encShift, opcodeOf, rdOf, funct3Of, rs1Of, shamt6Of, funct6Of, BitVec.extractLsb,
    slice_join, -Nat.reduceAdd]
  exact slice_all w

theorem encS_of_fields (ho : (opcodeOf w).toNat = op.toNat) (h3 : (funct3Of w).toNat = f3.toNat) :
    encS (immSOf w) (rs2Of w) (rs1Of w) f3 op = w := by
  obtain rfl := BitVec.eq_of_toNat_eq ho
  obtain rfl := BitVec.eq_of_toNat_eq h3
  simp (disch := decide) only [encS, opcodeOf, funct3Of, rs1Of, rs2Of, immSOf, BitVec.extractLsb, slice_low, slice_high,
    slice_slice, slice_join, -Nat.reduceAdd]
  exact slice_all w

theorem encB_of_fields (ho : (opcodeOf w).toNat = op.toNat) (h3 : (funct3Of w).toNat = f3.toNat) :
    encB (immBOf w) (rs2Of w) (rs1Of w) f3 op = w := by
  obtain rfl := BitVec.eq_of_toNat_eq ho
  obtain rfl := BitVec.eq_of_toNat_eq h3
  simp (disch := decide) only [encB, opcodeOf, funct3Of, rs1Of, rs2Of, immBOf, BitVec.extractLsb, slice_low, slice_high,
    slice_slice, slice_join, -Nat.reduceAdd]
  exact slice_all w

theorem encU_of_fields (ho : (opcodeOf w).toNat = op.toNat) : encU (immUOf w) (rdOf w) op = w := by
  obtain rfl := BitVec.eq_of_toNat_eq ho
  simp (disch := decide) only [encU, opcodeOf, rdOf, immUOf, BitVec.extractLsb, slice_join, -Nat.reduceAdd]
  exact slice_all w

theorem encJ_of_fields (ho : (opcodeOf w).toNat = op.toNat) : encJ (immJOf w) (rdOf w) op = w := by
  obtain rfl := BitVec.eq_of_toNat_eq ho
  simp (disch := decide) only [encJ, opcodeOf, rdOf, immJOf, BitVec.extractLsb, slice_low, slice_high, slice_slice,
    slice_join, -Nat.reduceAdd]
  exact slice_all w

theorem encFence_of_fields (ho : (opcodeOf w).toNat = 0b0001111) (h3 : funct3Of w = 0b000#3) :
    encFence (fmOf w) (predOf w) (succOf w) (rs1Of w) (rdOf w) = w := by
  rw [encFence, ofNat_of_toNat_eq ho, ← h3]
  simp (disch := decide) only [opcodeOf, rdOf, funct3Of, rs1Of, fmOf, predOf, succOf, BitVec.extractLsb, slice_join,
    -Nat.reduceAdd]
  exact slice_all w

end

section
variable {w : Parcel} {op : BitVec 2} {f3 : BitVec 3}

theorem encCR_of_fields {f4 : BitVec 4} {rd r2 : RegNum} (ho : (cOpOf w).toNat = 0b10)
    (h4 : cFunct3Of w ++ cBit12Of w = f4) (hd : cRdOf w = rd) (h2 : cRs2Of w = r2) : encCR f4 rd r2 = w := by
  subst h4 hd h2
  rw [encCR, ofNat_of_toNat_eq ho]
  simp (disch := decide) only [cOpOf, cRdOf, cRs2Of, cFunct3Of, cBit12Of, BitVec.extractLsb, slice_join, -Nat.reduceAdd]
  exact slice_all w

theorem encCI_of_fields {imm : BitVec 6} {rd : RegNum} (ho : (cOpOf w).toNat = op.toNat)
    (h3 : (cFunct3Of w).toNat = f3.toNat) (hi : cImm6Of w = imm) (hd : cRdOf w = rd) : encCI f3 imm rd op = w := by
  obtain rfl := BitVec.eq_of_toNat_eq ho
  obtain rfl := BitVec.eq_of_toNat_eq h3
  subst hi hd
  simp (disch := decide) only [encCI, cOpOf, cRdOf, cFunct3Of, cImm6Of, BitVec.extractLsb, slice_low, slice_high,
    slice_slice, slice_join, -Nat.reduceAdd]
  exact slice_all w

theorem encAddi4spn_of_fields (ho : (cOpOf w).toNat = 0b00) (h3 : (cFunct3Of w).toNat = 0b000) :
    encAddi4spn (cAddi4spnImmOf w) (cRd'Of w) = w := by
  rw [encAddi4spn, ofNat_of_toNat_eq ho, ofNat_of_toNat_eq h3]
  simp (disch := decide) only [cOpOf, cFunct3Of, cRd'Of, cAddi4spnImmOf, BitVec.extractLsb, slice_low, slice_high,
    slice_slice, slice_join, -Nat.reduceAdd]
  exact slice_all w

theorem encWordOff_of_fields (ho : (cOpOf w).toNat = 0b00) (h3 : (cFunct3Of w).toNat = f3.toNat) :
    encWordOff f3 (cWordOffOf w) (cRs1'Of w) (cRd'Of w) = w := by
  rw [encWordOff, ofNat_of_toNat_eq ho, ← BitVec.eq_of_toNat_eq h3]
  simp (disch := decide) only [cOpOf, cFunct3Of, cRs1'Of, cRd'Of, cWordOffOf, BitVec.extractLsb, slice_low, slice_high,
    slice_slice, slice_join, -Nat.reduceAdd]
  exact slice_all w

theorem encDoubleOff_of_fields (ho : (cOpOf w).toNat = 0b00) (h3 : (cFunct3Of w).toNat = f3.toNat) :
    encDoubleOff f3 (cDoubleOffOf w) (cRs1'Of w) (cRd'Of w) = w := by
  rw [encDoubleOff, ofNat_of_toNat_eq ho, ← BitVec.eq_of_toNat_eq h3]
  simp (disch := decide) only [cOpOf, cFunct3Of, cRs1'Of, cRd'Of, cDoubleOffOf, BitVec.extractLsb, slice_low,
    slice_high, slice_slice, slice_join, -Nat.reduceAdd]
  exact slice_all w

theorem encCJ_of_fields (ho : (cOpOf w).toNat = 0b01) (h3 : (cFunct3Of w).toNat = f3.toNat) :
    encCJ f3 (cJumpOffOf w) = w := by
  rw [encCJ, ofNat_of_toNat_eq ho, ← BitVec.eq_of_toNat_eq h3]
  simp (disch := decide) only [cOpOf, cFunct3Of, cJumpOffOf, BitVec.extractLsb, slice_low, slice_high, slice_slice,
    slice_join, -Nat.reduceAdd]
  exact slice_all w

theorem encAddi16sp_of_fields (ho : (cOpOf w).toNat = 0b01) (h3 : (cFunct3Of w).toNat = 0b011)
    (hd : cRdOf w = 0b00010#5) : encAddi16sp (cAddi16spImmOf w) = w := by
  rw [encAddi16sp, ofNat_of_toNat_eq ho, ofNat_of_toNat_eq h3, ← hd]
  simp (disch := decide) only [cOpOf, cFunct3Of, cRdOf, cAddi16spImmOf, BitVec.extractLsb, slice_low, slice_high,
    slice_slice, slice_join, -Nat.reduceAdd]
  exact slice_all w

theorem encCBImm_of_fields {f2 : BitVec 2} (ho : (cOpOf w).toNat = 0b01) (h3 : (cFunct3Of w).toNat = 0b100)
    (h2 : (cFunct2Of w).toNat = f2.toNat) : encCBImm f2 (cImm6Of w) (cRs1'Of w) = w := by
  rw [encCBImm, ofNat_of_toNat_eq ho, ofNat_of_toNat_eq h3, ← BitVec.eq_of_toNat_eq h2]
  simp (disch := decide) only [cOpOf, cFunct3Of, cFunct2Of, cRs1'Of, cImm6Of, BitVec.extractLsb, slice_low, slice_high,
    slice_slice, slice_join, -Nat.reduceAdd]
  exact slice_all w

theorem encCA_of_fields {f2 : BitVec 2} (ho : (cOpOf w).toNat = 0b01)
    (h6 : cFunct3Of w ++ cBit12Of w ++ cFunct2Of w = 0b100011#6) (h2 : (cFunct2RegOf w).toNat = f2.toNat) :
    encCA f2 (cRs1'Of w) (cRd'Of w) = w := by
  rw [encCA, ofNat_of_toNat_eq ho, ← h6, ← BitVec.eq_of_toNat_eq h2]
  simp (disch := decide) only [cOpOf, cFunct3Of, cBit12Of, cFunct2Of, cFunct2RegOf, cRs1'Of, cRd'Of, BitVec.extractLsb,
    slice_join, -Nat.reduceAdd]
  exact slice_all w

theorem encCB_of_fields (ho : (cOpOf w).toNat = 0b01) (h3 : (cFunct3Of w).toNat = f3.toNat) :
    encCB f3 (cBranchOffOf w) (cRs1'Of w) = w := by
  rw [encCB, ofNat_of_toNat_eq ho, ← BitVec.eq_of_toNat_eq h3]
  simp (disch := decide) only [cOpOf, cFunct3Of, cRs1'Of, cBranchOffOf, BitVec.extractLsb, slice_low, slice_high,
    slice_slice, slice_join, -Nat.reduceAdd]
  exact slice_all w

theorem encLwsp_of_fields (ho : (cOpOf w).toNat = 0b10) (h3 : (cFunct3Of w).toNat = f3.toNat) :
    encLwsp f3 (cLwspOffOf w) (cRdOf w) = w := by
  rw [encLwsp, ofNat_of_toNat_eq ho, ← BitVec.eq_of_toNat_eq h3]
  simp (disch := decide) only [cOpOf, cFunct3Of, cRdOf, cLwspOffOf, BitVec.extractLsb, slice_low, slice_high,
    slice_slice, slice_join, -Nat.reduceAdd]
  exact slice_all w

theorem encFldsp_of_fields (ho : (cOpOf w).toNat = 0b10) (h3 : (cFunct3Of w).toNat = 0b001) :
    encFldsp (cFldspOffOf w) (cRdOf w) = w := by
  rw [encFldsp, ofNat_of_toNat_eq ho, ofNat_of_toNat_eq h3]
  simp (disch := decide) only [cOpOf, cFunct3Of, cRdOf, cFldspOffOf, BitVec.extractLsb, slice_low, slice_high,
    slice_slice, slice_join, -Nat.reduceAdd]
  exact slice_all w

theorem encSwsp_of_fields (ho : (cOpOf w).toNat = 0b10) (h3 : (cFunct3Of w).toNat = f3.toNat) :
    encSwsp f3 (cSwspOffOf w) (cRs2Of w) = w := by
  rw [encSwsp, ofNat_of_toNat_eq ho, ← BitVec.eq_of_toNat_eq h3]
  simp (disch := decide) only [cOpOf, cFunct3Of, cRs2Of, cSwspOffOf, BitVec.extractLsb, slice_low, slice_high,
    slice_slice, slice_join, -Nat.reduceAdd]
  exact slice_all w

theorem encFsdsp_of_fields (ho : (cOpOf w).toNat = 0b10) (h3 : (cFunct3Of w).toNat = 0b101) :
    encFsdsp (cFsdspOffOf w) (cRs2Of w) = w := by
  rw [encFsdsp, ofNat_of_toNat_eq ho, ofNat_of_toNat_eq h3]
  simp (disch := decide) only [cOpOf, cFunct3Of, cRs2Of, cFsdspOffOf, BitVec.extractLsb, slice_low, slice_high,
    slice_slice, slice_join, -Nat.reduceAdd]
  exact slice_all w

end

/-! The row that a word matches encodes to the word: one lemma per table of the decoder, one case per row. -/

section
variable {w : BitVec 32} {i : Instr}

theorem encode_of_decodeLoad (ho : (opcodeOf w).toNat = 0b0000011) (hd : decodeLoad w = some i) :
    encode i = .long w := by
  unfold decodeLoad at hd
  split at hd <;> cases hd
  all_goals exact congrArg InstrWord.long (encI_of_fields ho ‹_›)

theorem encode_of_decodeStore (ho : (opcodeOf w).toNat = 0b0100011) (hd : decodeStore w = some i) :
    encode i = .long w := by
  unfold decodeStore at hd
  split at hd <;> cases hd
  all_goals exact congrArg InstrWord.long (encS_of_fields ho ‹_›)

theorem encode_of_decodeBranch (ho : (opcodeOf w).toNat = 0b1100011) (hd : decodeBranch w = some i) :
    encode i = .long w := by
  unfold decodeBranch at hd
  split at hd <;> cases hd
  all_goals exact congrArg InstrWord.long (encB_of_fields ho ‹_›)

theorem encode_of_decodeOpImm (ho : (opcodeOf w).toNat = 0b0010011) (hd : decodeOpImm w = some i) :
    encode i = .long w := by
  unfold decodeOpImm at hd
  split at hd
  case h_2 h3 =>
    split at hd <;> cases hd
    exact congrArg InstrWord.long (encShift_of_fields ho h3 ‹_›)
  case h_6 h3 =>
    split at hd
    · cases hd
      exact congrArg InstrWord.long (encShift_of_fields ho h3 ‹_›)
    · split at hd <;> cases hd
      exact congrArg InstrWord.long (encShift_of_fields ho h3 ‹_›)
  all_goals cases hd
  all_goals exact congrArg InstrWord.long (encI_of_fields ho ‹_›)

theorem encode_of_decodeOp (ho : (opcodeOf w).toNat = 0b0110011) (hd : decodeOp w = some i) : encode i = .long w := by
  unfold decodeOp at hd
  split at hd <;> cases hd
  all_goals exact congrArg InstrWord.long (encR_of_fields ho ‹_› ‹_›)

theorem encode_of_decodeOpImm32 (ho : (opcodeOf w).toNat = 0b0011011) (hd : decodeOpImm32 w = some i) :
    encode i = .long w := by
  unfold decodeOpImm32 at hd
  split at hd
  case h_1 h3 =>
    cases hd
    exact congrArg InstrWord.long (encI_of_fields ho h3)
  case h_2 h3 =>
    split at hd <;> cases hd
    exact congrArg InstrWord.long (encR_of_fields ho h3 (congrArg BitVec.toNat ‹_›))
  case h_3 h3 =>
    split at hd
    · cases hd
      exact congrArg InstrWord.long (encR_of_fields ho h3 (congrArg BitVec.toNat ‹_›))
    · split at hd <;> cases hd
      exact congrArg InstrWord.long (encR_of_fields ho h3 (congrArg BitVec.toNat ‹_›))
  case h_4 => cases hd

theorem encode_of_decodeOp32 (ho : (opcodeOf w).toNat = 0b0111011) (hd : decodeOp32 w = some i) :
    encode i = .long w := by
  unfold decodeOp32 at hd
  split at hd <;> cases hd
  all_goals exact congrArg InstrWord.long (encR_of_fields ho ‹_› ‹_›)

theorem encode_of_decodeSystem (hd : decodeSystem w = some i) : encode i = .long w := by
  unfold decodeSystem at hd
  split at hd
  case isTrue hw =>
    cases hd
    exact congrArg InstrWord.long hw.symm
  case isFalse =>
    split at hd <;> cases hd
    exact congrArg InstrWord.long (Eq.symm ‹_›)

theorem encode_of_decode32 (hd : decode32 w = some i) : encode i = .long w := by
  unfold decode32 at hd
  split at hd
  case h_1 ho | h_2 ho =>
    all_goals cases hd
    all_goals exact congrArg InstrWord.long (encU_of_fields ‹_›)
  case h_3 ho =>
    cases hd
    exact congrArg InstrWord.long (encJ_of_fields ho)
  case h_4 ho =>
    split at hd <;> cases hd
    exact congrArg InstrWord.long (encI_of_fields ho (congrArg BitVec.toNat ‹_›))
  case h_5 ho => exact encode_of_decodeBranch ho hd
  case h_6 ho => exact encode_of_decodeLoad ho hd
  case h_7 ho => exact encode_of_decodeStore ho hd
  case h_8 ho => exact encode_of_decodeOpImm ho hd
  case h_9 ho => exact encode_of_decodeOp ho hd
  case h_10 ho =>
    split at hd <;> cases hd
    exact congrArg InstrWord.long (encFence_of_fields ho ‹_›)
  case h_11 => exact encode_of_decodeSystem hd
  case h_12 ho => exact encode_of_decodeOpImm32 ho hd
  case h_13 ho => exact encode_of_decodeOp32 ho hd
  case h_14 => cases hd

end

section
variable {w : Parcel} {i : Instr}

theorem encode_of_decodeQuadrant0 (ho : (cOpOf w).toNat = 0b00) (hd : decodeQuadrant0 w = some i) :
    encode i = .short w := by
  unfold decodeQuadrant0 at hd
  split at hd
  case h_1 h3 =>
    split at hd <;> cases hd
    · exact congrArg InstrWord.short (Eq.symm ‹w = 0›)
    · exact congrArg InstrWord.short (encAddi4spn_of_fields ho h3)
  case h_2 h3 | h_5 h3 =>
    all_goals cases hd
    all_goals exact congrArg InstrWord.short (encDoubleOff_of_fields ho ‹_›)
  all_goals cases hd
  all_goals exact congrArg InstrWord.short (encWordOff_of_fields ho ‹_›)

theorem encode_of_decodeQuadrant1Alu (ho : (cOpOf w).toNat = 0b01) (h3 : (cFunct3Of w).toNat = 0b100)
    (hd : decodeQuadrant1Alu w = some i) : encode i = .short w := by
  unfold decodeQuadrant1Alu at hd
  split at hd
  case h_4 h0 h1 h2 =>
    split at hd
    case isTrue hb =>
      have h6 : cFunct3Of w ++ cBit12Of w ++ cFunct2Of w = 0b100011#6 := by
        rw [← ofNat_of_toNat_eq h3, hb, ← ofNat_of_toNat_eq (toNat_eq_three h0 h1 h2)]
        rfl
      split at hd <;> cases hd
      case h_4 h0 h1 h2 => exact congrArg InstrWord.short (encCA_of_fields ho h6 (toNat_eq_three h0 h1 h2))
      all_goals exact congrArg InstrWord.short (encCA_of_fields ho h6 ‹_›)
    case isFalse => cases hd
  all_goals cases hd
  all_goals exact congrArg InstrWord.short (encCBImm_of_fields ho h3 ‹_›)

theorem encode_of_decodeQuadrant1 (ho : (cOpOf w).toNat = 0b01) (hd : decodeQuadrant1 w = some i) :
    encode i = .short w := by
  unfold decodeQuadrant1 at hd
  split at hd
  case h_1 h3 =>
    split at hd <;> cases hd
    · exact congrArg InstrWord.short (encCI_of_fields ho h3 rfl ‹_›)
    · exact congrArg InstrWord.short (encCI_of_fields ho h3 rfl rfl)
  case h_3 h3 =>
    cases hd
    exact congrArg InstrWord.short (encCI_of_fields ho h3 rfl rfl)
  case h_4 h3 =>
    split at hd <;> cases hd
    · exact congrArg InstrWord.short (encAddi16sp_of_fields ho h3 ‹_›)
    · exact congrArg InstrWord.short (encCI_of_fields ho h3 rfl rfl)
  case h_5 h3 => exact encode_of_decodeQuadrant1Alu ho h3 hd
  case h_2 h3 | h_6 h3 =>
    all_goals cases hd
    all_goals exact congrArg InstrWord.short (encCJ_of_fields ho ‹_›)
  case h_7 h3 =>
    cases hd
    exact congrArg InstrWord.short (encCB_of_fields ho h3)
  case h_8 h0 h1 h2 h3 h4 h5 h6 =>
    cases hd
    exact congrArg InstrWord.short (encCB_of_fields ho (toNat_eq_seven h0 h1 h2 h3 h4 h5 h6))

theorem encode_of_decodeQuadrant2Reg (ho : (cOpOf w).toNat = 0b10) (h3 : (cFunct3Of w).toNat = 0b100)
    (hd : decodeQuadrant2Reg w = some i) : encode i = .short w := by
  unfold decodeQuadrant2Reg at hd
  split at hd
  case isTrue hb =>
    have h4 : cFunct3Of w ++ cBit12Of w = 0b1000#4 := by
      rw [← ofNat_of_toNat_eq h3, hb]
      rfl
    split at hd <;> cases hd
    · exact congrArg InstrWord.short (encCR_of_fields ho h4 rfl ‹_›)
    · exact congrArg InstrWord.short (encCR_of_fields ho h4 rfl rfl)
  case isFalse hb =>
    have h4 : cFunct3Of w ++ cBit12Of w = 0b1001#4 := by
      rw [← ofNat_of_toNat_eq h3, (BitVec.eq_zero_or_eq_one (cBit12Of w)).resolve_left hb]
      rfl
    split at hd
    case isTrue h2 =>
      split at hd <;> cases hd
      · exact congrArg InstrWord.short (encCR_of_fields (f4 := 0b1001) (rd := 0) (r2 := 0) ho h4 ‹_› h2)
      · exact congrArg InstrWord.short (encCR_of_fields ho h4 rfl h2)
    case isFalse =>
      cases hd
      exact congrArg InstrWord.short (encCR_of_fields ho h4 rfl rfl)

theorem encode_of_decodeQuadrant2 (ho : (cOpOf w).toNat = 0b10) (hd : decodeQuadrant2 w = some i) :
    encode i = .short w := by
  unfold decodeQuadrant2 at hd
  split at hd
  case h_1 h3 =>
    split at hd <;> cases hd
    · exact congrArg InstrWord.short (encCI_of_fields ho h3 ‹_› rfl)
    · exact congrArg InstrWord.short (encCI_of_fields ho h3 rfl rfl)
  case h_2 h3 =>
    cases hd
    exact congrArg InstrWord.short (encFldsp_of_fields ho h3)
  case h_3 h3 | h_4 h3 =>
    all_goals cases hd
    all_goals exact congrArg InstrWord.short (encLwsp_of_fields ho ‹_›)
  case h_5 h3 => exact encode_of_decodeQuadrant2Reg ho h3 hd
  case h_6 h3 =>
    cases hd
    exact congrArg InstrWord.short (encFsdsp_of_fields ho h3)
  case h_7 h3 =>
    cases hd
    exact congrArg InstrWord.short (encSwsp_of_fields ho h3)
  case h_8 h0 h1 h2 h3 h4 h5 h6 =>
    cases hd
    exact congrArg InstrWord.short (encSwsp_of_fields ho (toNat_eq_seven h0 h1 h2 h3 h4 h5 h6))

theorem encode_of_decode16 (hd : decode16 w = some i) : encode i = .short w := by
  unfold decode16 at hd
  split at hd
  case h_1 ho => exact encode_of_decodeQuadrant0 ho hd
  case h_2 ho => exact encode_of_decodeQuadrant1 ho hd
  case h_3 ho => exact encode_of_decodeQuadrant2 ho hd
  case h_4 => cases hd

end

/-- Each word has one meaning (R85, R97). -/
theorem encode_of_decodeRow {w : InstrWord} {i : Instr} (hd : decodeRow w = some i) : encode i = w := by
  cases w with
  | short p => exact encode_of_decode16 hd
  | long v => exact encode_of_decode32 hd

/-- Settles O19: the row that a word matches encodes to the word, and `decode` accepts well-formed rows only. -/
theorem encodeUndoesDecode : Obligations.EncodeUndoesDecode := by
  intro c w i hd
  obtain ⟨hrow, hw⟩ := decode_eq_ok.1 hd
  exact ⟨encode_of_decodeRow hrow, hw⟩

/-! ### A word under the mask of its row

The masks of the opcode table keep the fields that the decoder tests: each mask is cut at the fields' borders, with ones
over the kept ones. -/

theorem admits_long {w m k : BitVec 32} (hm : w &&& m = k) (p : Nat) :
    TableRow.admits ⟨32, m.toNat, p⟩ (.long w) = decide (k.toNat = p) := by
  simp [TableRow.admits, InstrWord.bytes, InstrWord.bits, parcelBytes, ← hm]

theorem admits_short {w m k : Parcel} (hm : w &&& m = k) (p : Nat) :
    TableRow.admits ⟨16, m.toNat, p⟩ (.short w) = decide (k.toNat = p) := by
  simp [TableRow.admits, InstrWord.bytes, InstrWord.bits, parcelBytes, ← hm]

theorem admits_opcode (w : BitVec 32) (p : Nat) :
    TableRow.admits ⟨32, 0x0000007F, p⟩ (.long w) = decide ((0#25 ++ opcodeOf w).toNat = p) := by
  have hw : w.extractLsb 31 7 ++ opcodeOf w = w := by
    simp (disch := decide) only [opcodeOf, BitVec.extractLsb, slice_join, -Nat.reduceAdd]
    exact slice_all w
  have hm := congrArg (· &&& (0#25 ++ BitVec.allOnes 7)) hw
  simp only [BitVec.and_append, BitVec.and_zero, BitVec.and_allOnes] at hm
  exact admits_long hm.symm p

theorem admits_funct3 (w : BitVec 32) (p : Nat) :
    TableRow.admits ⟨32, 0x0000707F, p⟩ (.long w) = decide ((0#17 ++ funct3Of w ++ 0#5 ++ opcodeOf w).toNat = p) := by
  have hw : w.extractLsb 31 15 ++ funct3Of w ++ rdOf w ++ opcodeOf w = w := by
    simp (disch := decide) only [funct3Of, rdOf, opcodeOf, BitVec.extractLsb, slice_join, -Nat.reduceAdd]
    exact slice_all w
  have hm := congrArg (· &&& (0#17 ++ BitVec.allOnes 3 ++ 0#5 ++ BitVec.allOnes 7)) hw
  simp only [BitVec.and_append, BitVec.and_zero, BitVec.and_allOnes] at hm
  exact admits_long hm.symm p

theorem admits_funct7 (w : BitVec 32) (p : Nat) :
    TableRow.admits ⟨32, 0xFE00707F, p⟩ (.long w) =
      decide ((funct7Of w ++ 0#10 ++ funct3Of w ++ 0#5 ++ opcodeOf w).toNat = p) := by
  have hw : funct7Of w ++ w.extractLsb 24 15 ++ funct3Of w ++ rdOf w ++ opcodeOf w = w := by
    simp (disch := decide) only [funct7Of, funct3Of, rdOf, opcodeOf, BitVec.extractLsb, slice_join, -Nat.reduceAdd]
    exact slice_all w
  have hm := congrArg (· &&& (BitVec.allOnes 7 ++ 0#10 ++ BitVec.allOnes 3 ++ 0#5 ++ BitVec.allOnes 7)) hw
  simp only [BitVec.and_append, BitVec.and_zero, BitVec.and_allOnes] at hm
  exact admits_long hm.symm p

theorem admits_funct6 (w : BitVec 32) (p : Nat) :
    TableRow.admits ⟨32, 0xFC00707F, p⟩ (.long w) =
      decide ((funct6Of w ++ 0#1 ++ 0#10 ++ funct3Of w ++ 0#5 ++ opcodeOf w).toNat = p) := by
  have hw : funct6Of w ++ w.extractLsb 25 25 ++ w.extractLsb 24 15 ++ funct3Of w ++ rdOf w ++ opcodeOf w = w := by
    simp (disch := decide) only [funct6Of, funct3Of, rdOf, opcodeOf, BitVec.extractLsb, slice_join, -Nat.reduceAdd]
    exact slice_all w
  have hm := congrArg (· &&& (BitVec.allOnes 6 ++ 0#1 ++ 0#10 ++ BitVec.allOnes 3 ++ 0#5 ++ BitVec.allOnes 7)) hw
  simp only [BitVec.and_append, BitVec.and_zero, BitVec.and_allOnes] at hm
  exact admits_long hm.symm p

theorem admits_cFunct3 (w : Parcel) (p : Nat) :
    TableRow.admits ⟨16, 0xE003, p⟩ (.short w) = decide ((cFunct3Of w ++ 0#11 ++ cOpOf w).toNat = p) := by
  have hw : cFunct3Of w ++ w.extractLsb 12 2 ++ cOpOf w = w := by
    simp (disch := decide) only [cFunct3Of, cOpOf, BitVec.extractLsb, slice_join, -Nat.reduceAdd]
    exact slice_all w
  have hm := congrArg (· &&& (BitVec.allOnes 3 ++ 0#11 ++ BitVec.allOnes 2)) hw
  simp only [BitVec.and_append, BitVec.and_zero, BitVec.and_allOnes] at hm
  exact admits_short hm.symm p

theorem admits_cFunct3_rd (w : Parcel) (p : Nat) :
    TableRow.admits ⟨16, 0xEF83, p⟩ (.short w) =
      decide ((cFunct3Of w ++ 0#1 ++ cRdOf w ++ 0#5 ++ cOpOf w).toNat = p) := by
  have hw : cFunct3Of w ++ cBit12Of w ++ cRdOf w ++ cRs2Of w ++ cOpOf w = w := by
    simp (disch := decide) only [cFunct3Of, cBit12Of, cRdOf, cRs2Of, cOpOf, BitVec.extractLsb, slice_join,
      -Nat.reduceAdd]
    exact slice_all w
  have hm := congrArg (· &&& (BitVec.allOnes 3 ++ 0#1 ++ BitVec.allOnes 5 ++ 0#5 ++ BitVec.allOnes 2)) hw
  simp only [BitVec.and_append, BitVec.and_zero, BitVec.and_allOnes] at hm
  exact admits_short hm.symm p

theorem admits_cFunct2 (w : Parcel) (p : Nat) :
    TableRow.admits ⟨16, 0xEC03, p⟩ (.short w) =
      decide ((cFunct3Of w ++ 0#1 ++ cFunct2Of w ++ 0#8 ++ cOpOf w).toNat = p) := by
  have hw : cFunct3Of w ++ cBit12Of w ++ cFunct2Of w ++ w.extractLsb 9 2 ++ cOpOf w = w := by
    simp (disch := decide) only [cFunct3Of, cBit12Of, cFunct2Of, cOpOf, BitVec.extractLsb, slice_join, -Nat.reduceAdd]
    exact slice_all w
  have hm := congrArg (· &&& (BitVec.allOnes 3 ++ 0#1 ++ BitVec.allOnes 2 ++ 0#8 ++ BitVec.allOnes 2)) hw
  simp only [BitVec.and_append, BitVec.and_zero, BitVec.and_allOnes] at hm
  exact admits_short hm.symm p

theorem admits_cFunct2Reg (w : Parcel) (p : Nat) :
    TableRow.admits ⟨16, 0xFC63, p⟩ (.short w) =
      decide ((cFunct3Of w ++ cBit12Of w ++ cFunct2Of w ++ 0#3 ++ cFunct2RegOf w ++ 0#3 ++ cOpOf w).toNat = p) := by
  have hw : cFunct3Of w ++ cBit12Of w ++ cFunct2Of w ++ cRs1'Of w ++ cFunct2RegOf w ++ cRd'Of w ++ cOpOf w = w := by
    simp (disch := decide) only [cFunct3Of, cBit12Of, cFunct2Of, cRs1'Of, cFunct2RegOf, cRd'Of, cOpOf,
      BitVec.extractLsb, slice_join, -Nat.reduceAdd]
    exact slice_all w
  have hm := congrArg (· &&& (BitVec.allOnes 3 ++ BitVec.allOnes 1 ++ BitVec.allOnes 2 ++ 0#3 ++ BitVec.allOnes 2 ++
    0#3 ++ BitVec.allOnes 2)) hw
  simp only [BitVec.and_append, BitVec.and_zero, BitVec.and_allOnes] at hm
  exact admits_short hm.symm p

theorem admits_cBit12 (w : Parcel) (p : Nat) :
    TableRow.admits ⟨16, 0xF003, p⟩ (.short w) = decide ((cFunct3Of w ++ cBit12Of w ++ 0#10 ++ cOpOf w).toNat = p) := by
  have hw : cFunct3Of w ++ cBit12Of w ++ w.extractLsb 11 2 ++ cOpOf w = w := by
    simp (disch := decide) only [cFunct3Of, cBit12Of, cOpOf, BitVec.extractLsb, slice_join, -Nat.reduceAdd]
    exact slice_all w
  have hm := congrArg (· &&& (BitVec.allOnes 3 ++ BitVec.allOnes 1 ++ 0#10 ++ BitVec.allOnes 2)) hw
  simp only [BitVec.and_append, BitVec.and_zero, BitVec.and_allOnes] at hm
  exact admits_short hm.symm p

theorem admits_cBit12_rs2 (w : Parcel) (p : Nat) :
    TableRow.admits ⟨16, 0xF07F, p⟩ (.short w) =
      decide ((cFunct3Of w ++ cBit12Of w ++ 0#5 ++ cRs2Of w ++ cOpOf w).toNat = p) := by
  have hw : cFunct3Of w ++ cBit12Of w ++ cRdOf w ++ cRs2Of w ++ cOpOf w = w := by
    simp (disch := decide) only [cFunct3Of, cBit12Of, cRdOf, cRs2Of, cOpOf,
      BitVec.extractLsb, slice_join, -Nat.reduceAdd]
    exact slice_all w
  have hm := congrArg (· &&& (BitVec.allOnes 3 ++ BitVec.allOnes 1 ++ 0#5 ++ BitVec.allOnes 5 ++ BitVec.allOnes 2)) hw
  simp only [BitVec.and_append, BitVec.and_zero, BitVec.and_allOnes] at hm
  exact admits_short hm.symm p

/-- The immediate of a CI parcel lies in inst[12] and inst[6:2] (R87). -/
theorem encCI_imm_parts (f3 imm rd op) :
    cBit12Of (encCI f3 imm rd op) = imm.extractLsb 5 5 ∧ cRs2Of (encCI f3 imm rd op) = imm.extractLsb 4 0 := by
  constructor <;>
    simp (disch := decide) only [encCI, cBit12Of, cRs2Of, BitVec.extractLsb, slice_low, slice_high, -Nat.reduceAdd] <;>
    exact slice_all _

/-- inst[31:25] of a shift holds the top bit of its six-bit amount (R79). -/
theorem funct7Of_encShift (f6 sh r1 f3 rd op) : funct7Of (encShift f6 sh r1 f3 rd op) = f6 ++ sh.extractLsb 5 5 := by
  have hj : funct7Of (encShift f6 sh r1 f3 rd op) = funct6Of (encShift f6 sh r1 f3 rd op) ++
      (encShift f6 sh r1 f3 rd op).extractLsb 25 25 := (slice_join _ 26 25 6 1 rfl).symm
  have hb : (encShift f6 sh r1 f3 rd op).extractLsb 25 25 = (shamt6Of (encShift f6 sh r1 f3 rd op)).extractLsb 5 5 :=
    (slice_slice _ 20 6 5 1 (by decide)).symm
  rw [hj, hb]
  simp only [encShift_fields]

theorem shamt_bit5_eq_zero {sh : BitVec 6} (hs : sh.toNat < 32) : sh.extractLsb 5 5 = 0#1 := by
  apply BitVec.eq_of_toNat_eq
  rw [BitVec.extractLsb, toNat_slice, Nat.div_eq_of_lt (show sh.toNat < 2 ^ 5 from hs)]
  rfl

/-- The row of a shift is the configuration's: on XLEN = 32 its mask keeps the amount's top bit too, 0 there (R79). -/
theorem admits_shift {c : Isa} {sh : BitVec 6} (hs : sh.toNat < c.xlen) (f6 r1 f3 rd op) :
    TableRow.admits ⟨32, if c.xlen = 64 then 0xFC00707F else 0xFE00707F, (f6 ++ 0#1 ++ 0#10 ++ f3 ++ 0#5 ++ op).toNat⟩
      (.long (encShift f6 sh r1 f3 rd op)) = true := by
  cases c with
  | rv64i => simp [admits_funct6, encShift_fields]
  | rv32i | rv32ic => simp [admits_funct7, encShift_fields, funct7Of_encShift, shamt_bit5_eq_zero hs]

/-- A well-formed instruction's word has the bits of its row: the fields of its format under the row's mask. -/
theorem tableRow_admits_encode {c : Isa} {i : Instr} (hw : i.wf c = true) :
    (i.tableRow c).admits (encode i) = true := by
  cases i with
  | lui | auipc => simp [Instr.tableRow, encode, admits_opcode, encU_fields]
  | jal => simp [Instr.tableRow, encode, admits_opcode, encJ_fields]
  | jalr | lb | lh | lw | lbu | lhu | lwu | ld | addi | slti | sltiu | xori | ori | andi | addiw =>
    simp [Instr.tableRow, encode, admits_funct3, encI_fields]
  | beq | bne | blt | bge | bltu | bgeu => simp [Instr.tableRow, encode, admits_funct3, encB_fields]
  | sb | sh | sw | sd => simp [Instr.tableRow, encode, admits_funct3, encS_fields]
  | fence => simp [Instr.tableRow, encode, admits_funct3, encFence_fields]
  | add | sub | sll | slt | sltu | xor | srl | sra | or | and | addw | subw | sllw | srlw | sraw | slliw | srliw
    | sraiw =>
    simp [Instr.tableRow, encode, admits_funct7, encR_fields]
  | slli | srli | srai =>
    simp only [Instr.wf, Instr.fieldsOk, Bool.and_eq_true, decide_eq_true_eq] at hw
    exact admits_shift hw.2 _ _ _ _ _
  | ecall | ebreak | cIllegal | cEbreak =>
    simp [Instr.tableRow, encode, TableRow.admits, InstrWord.bytes, InstrWord.bits, parcelBytes]
  | cAddi4spn => simp [Instr.tableRow, encode, admits_cFunct3, encAddi4spn_fields]
  | cLw | cFlw | cSw | cFsw => simp [Instr.tableRow, encode, admits_cFunct3, encWordOff_fields]
  | cFld | cFsd => simp [Instr.tableRow, encode, admits_cFunct3, encDoubleOff_fields]
  | cAddi | cLi | cLui | cSlli => simp [Instr.tableRow, encode, admits_cFunct3, encCI_fields]
  | cJal | cJ => simp [Instr.tableRow, encode, admits_cFunct3, encCJ_fields]
  | cBeqz | cBnez => simp [Instr.tableRow, encode, admits_cFunct3, encCB_fields]
  | cLwsp | cFlwsp => simp [Instr.tableRow, encode, admits_cFunct3, encLwsp_fields]
  | cFldsp => simp [Instr.tableRow, encode, admits_cFunct3, encFldsp_fields]
  | cSwsp | cFswsp => simp [Instr.tableRow, encode, admits_cFunct3, encSwsp_fields]
  | cFsdsp => simp [Instr.tableRow, encode, admits_cFunct3, encFsdsp_fields]
  | cNop => simp [Instr.tableRow, encode, admits_cFunct3_rd, encCI_fields]
  | cAddi16sp => simp [Instr.tableRow, encode, admits_cFunct3_rd, encAddi16sp_fields]
  | cSrli | cSrai | cAndi => simp [Instr.tableRow, encode, admits_cFunct2, encCBImm_fields]
  | cSub | cXor | cOr | cAnd => simp [Instr.tableRow, encode, admits_cFunct2Reg, encCA_fields]
  | cMv | cAdd => simp [Instr.tableRow, encode, admits_cBit12, encCR_fields]
  | cJr | cJalr => simp [Instr.tableRow, encode, admits_cBit12_rs2, encCR_fields]
  | cSlli64 => simp [Instr.tableRow, encode, admits_cBit12_rs2, encCI_fields, encCI_imm_parts]

/-- Settles O20: a decoded word is its instruction's encoding, and the row's mask keeps the fields the encoder sets. -/
theorem decodedWordMatchesTableRow : Obligations.DecodedWordMatchesTableRow := by
  intro c w i hd
  obtain ⟨rfl, hw⟩ := encodeUndoesDecode c w i hd
  exact tableRow_admits_encode hw

end Sys2Proof
end

section
/-! SUPPORT. Proofs for spec/30_encoding.md: words of the spec, reserved parcels (R98), HINTs and NOP (R99, R100), and
the spelling of `li` (R103). -/

namespace Sys2Proof.Machine

open Sys2Proof.Claims

variable {c : Isa} {h : Hart c}

/-! ### Words of the spec -/

/-- Settles O22: the decoder run on the sixteen words. -/
theorem specWordsDecode : Obligations.SpecWordsDecode := by
  unfold Obligations.SpecWordsDecode Word32 Word16
  decide

/-- Settles O54: the decoder run on 0x0000, and the rule of its row, which only raises. -/
theorem illegalRowTraps : Obligations.IllegalRowTraps := fun _ => ⟨rfl, rfl⟩

/-! ### Reserved parcels (30_encoding R98) -/

/-- A fetched word that is no instruction is illegal. -/
theorem stepIllegal_of_decode {w : InstrWord} (hf : fetch h = .next w) (hd : ∀ i, decode c w ≠ .ok i) :
    StepIllegal h w := by
  have hr : runWord (at' h) w = raise h .illegalInstruction (BitVec.ofNat c.xlen w.bits) := by
    unfold runWord
    split
    · next i hi => exact absurd hi (hd i)
    · rfl
  exact (step_of_fetch hf).trans hr

/-- The all-zero parcel is a row of the table, whose rule raises the exception. -/
theorem stepIllegal_zero {h : Hart .rv32ic} (hat : AtPc h (.short 0)) : StepIllegal h (.short 0) :=
  (step_of_fetch (fetch_of_atPc_short hat rfl)).trans rfl

/-- A parcel that matches no row, or a row with a reserved field value (R98). -/
def ReservedParcel (p : Parcel) : Prop := ∀ i, decode16 p = some i → i.fieldsOk .rv32ic = false

section
variable {p : Parcel}

theorem stepIllegal_of_reserved {h : Hart .rv32ic} (hat : AtPc h (.short p)) (hl : cOpOf p ≠ 0b11)
    (hr : ReservedParcel p) : StepIllegal h (.short p) := by
  have hs : isLong p = false := beq_false_of_ne hl
  refine stepIllegal_of_decode (fetch_of_atPc_short hat hs) fun i hd => ?_
  obtain ⟨hrow, hw⟩ := decode_eq_ok.1 hd
  simp [Instr.wf, hr i hrow] at hw

theorem reservedParcel_of_none (hp : decode16 p = none) : ReservedParcel p := by
  intro i hi
  rw [hp] at hi
  cases hi

theorem reservedParcel_of_row {j : Instr} (hp : decode16 p = some j) (hj : j.fieldsOk .rv32ic = false) :
    ReservedParcel p := by
  intro i hi
  rw [hp] at hi
  cases hi
  exact hj

/-- c.addi4spn with nzuimm = 0. -/
theorem reservedParcel_addi4spn (hp : p ≠ 0#16) (ho : cOpOf p = 0b00) (h3 : cFunct3Of p = 0b000)
    (hu : p.extractLsb' 5 8 = 0) : ReservedParcel p := by
  have hz : cAddi4spnImmOf p = 0 := by
    have hs : cAddi4spnImmOf p = (p.extractLsb' 5 8).extractLsb' 2 4 ++ (p.extractLsb' 5 8).extractLsb' 6 2 ++
        (p.extractLsb' 5 8).extractLsb' 0 1 ++ (p.extractLsb' 5 8).extractLsb' 1 1 := by
      simp (disch := decide) only [cAddi4spnImmOf, BitVec.extractLsb, slice_slice]
    rw [hs, hu]
    rfl
  have hrow : decode16 p = some (.cAddi4spn (cRd'Of p) (cAddi4spnImmOf p)) := by
    simp [decode16, ho, decodeQuadrant0, h3, hp]
  exact reservedParcel_of_row hrow (by rw [hz]; rfl)

/-- Quadrant 00 with inst[15:13] = 100. -/
theorem reservedParcel_quadrant0 (ho : cOpOf p = 0b00) (h3 : cFunct3Of p = 0b100) : ReservedParcel p :=
  reservedParcel_of_none (by simp [decode16, ho, decodeQuadrant0, h3])

/-- c.lui and c.addi16sp with nzimm = 0. -/
theorem reservedParcel_lui (ho : cOpOf p = 0b01) (h3 : cFunct3Of p = 0b011) (hb : cBit12Of p = 0) (hu : cRs2Of p = 0) :
    ReservedParcel p := by
  by_cases hd : cRdOf p = 2#5
  · have hz : cAddi16spImmOf p = 0 := by
      have hs : cAddi16spImmOf p = cBit12Of p ++ (cRs2Of p).extractLsb' 1 2 ++ (cRs2Of p).extractLsb' 3 1 ++
          (cRs2Of p).extractLsb' 0 1 ++ (cRs2Of p).extractLsb' 4 1 := by
        simp (disch := decide) only [cAddi16spImmOf, cBit12Of, cRs2Of, BitVec.extractLsb, slice_slice]
      rw [hs, hb, hu]
      rfl
    have hrow : decode16 p = some (.cAddi16sp (cAddi16spImmOf p)) := by simp [decode16, ho, decodeQuadrant1, h3, hd]
    exact reservedParcel_of_row hrow (by rw [hz]; rfl)
  · have hrow : decode16 p = some (.cLui (cRdOf p) (cImm6Of p)) := by simp [decode16, ho, decodeQuadrant1, h3, hd]
    exact reservedParcel_of_row hrow (by simp [Instr.fieldsOk, cImm6Of_eq, hb, hu])

/-- Quadrant 01 with inst[15:10] = 100111. -/
theorem reservedParcel_alu (ho : cOpOf p = 0b01) (h6 : p.extractLsb' 10 6 = 0b100111) : ReservedParcel p := by
  have h3 : cFunct3Of p = 0b100 := slice_of_slice h6 3 3 (by decide)
  have h2 : cFunct2Of p = 0b11 := slice_of_slice h6 0 2 (by decide)
  have hb : cBit12Of p = 1 := slice_of_slice h6 2 1 (by decide)
  exact reservedParcel_of_none (by simp [decode16, ho, decodeQuadrant1, h3, decodeQuadrant1Alu, h2, hb])

/-- c.lwsp with rd = x0. -/
theorem reservedParcel_lwsp (ho : cOpOf p = 0b10) (h3 : cFunct3Of p = 0b010) (hd : cRdOf p = 0) : ReservedParcel p := by
  have hrow : decode16 p = some (.cLwsp (cRdOf p) (cLwspOffOf p)) := by simp [decode16, ho, decodeQuadrant2, h3]
  exact reservedParcel_of_row hrow (by rw [hd]; rfl)

/-- c.jr with rs1 = x0. -/
theorem reservedParcel_jr : ReservedParcel 0x8002 := reservedParcel_of_row (j := .cJr 0) rfl rfl

/-- A six-bit amount with inst[12] = 1 is 32 or more. -/
theorem thirtyTwo_le_cImm6Of (hb : cBit12Of p = 1) : 32 ≤ (cImm6Of p).toNat := by
  rw [cImm6Of_eq, hb, toNat_cat]
  exact Nat.le_add_right 32 _

/-- c.slli with a shift amount of 32 or more. -/
theorem reservedParcel_slli (ho : cOpOf p = 0b10) (h4 : p.extractLsb' 12 4 = 0b0001) : ReservedParcel p := by
  have h3 : cFunct3Of p = 0b000 := slice_of_slice h4 1 3 (by decide)
  have hs : 32 ≤ (cImm6Of p).toNat := thirtyTwo_le_cImm6Of (slice_of_slice h4 0 1 (by decide))
  have hz : cImm6Of p ≠ 0#6 := fun e => by simp [e] at hs
  have hrow : decode16 p = some (.cSlli (cRdOf p) (cImm6Of p)) := by simp [decode16, ho, decodeQuadrant2, h3, hz]
  exact reservedParcel_of_row hrow (by simp [Instr.fieldsOk, hs])

/-- c.srli and c.srai with a shift amount of 32 or more. -/
theorem reservedParcel_srli_srai (ho : cOpOf p = 0b01) (h4 : p.extractLsb' 12 4 = 0b1001)
    (h11 : p.extractLsb' 11 1 = 0) : ReservedParcel p := by
  have h3 : cFunct3Of p = 0b100 := slice_of_slice h4 1 3 (by decide)
  have hs : 32 ≤ (cImm6Of p).toNat := thirtyTwo_le_cImm6Of (slice_of_slice h4 0 1 (by decide))
  have hj : cFunct2Of p = p.extractLsb' 11 1 ++ p.extractLsb' 10 1 := (slice_join p 11 10 1 1 rfl).symm
  rcases BitVec.eq_zero_or_eq_one (p.extractLsb' 10 1) with h10 | h10
  · have hrow : decode16 p = some (.cSrli (cRs1'Of p) (cImm6Of p)) := by
      simp [decode16, ho, decodeQuadrant1, h3, decodeQuadrant1Alu, hj, h11, h10]
    exact reservedParcel_of_row hrow (by simp [Instr.fieldsOk, hs])
  · have hrow : decode16 p = some (.cSrai (cRs1'Of p) (cImm6Of p)) := by
      simp [decode16, ho, decodeQuadrant1, h3, decodeQuadrant1Alu, hj, h11, h10]
    exact reservedParcel_of_row hrow (by simp [Instr.fieldsOk, hs])

end

/-- Settles O53: the all-zero parcel is c.illegal; every other pattern matches no row, or one with a reserved field. -/
theorem reservedParcelsIllegal : Obligations.ReservedParcelsIllegal := by
  intro h p hat hp
  by_cases h0 : p = 0
  · subst h0
    exact stepIllegal_zero hat
  have illegal (op : BitVec 2) (ho : cOpOf p = op) (hop : op ≠ 0b11) : ReservedParcel p → StepIllegal h (.short p) :=
    stepIllegal_of_reserved hat (ho ▸ hop)
  rcases hp with hz | ⟨ho, h3, hu⟩ | ⟨ho, h3⟩ | ⟨ho, h3, hb, hu⟩ | ⟨ho, h6⟩ | ⟨ho, h3, hd⟩ | rfl | ⟨ho, h4⟩ |
    ⟨ho, h4, h11⟩
  · exact absurd hz h0
  · exact illegal _ ho (by decide) (reservedParcel_addi4spn h0 ho h3 hu)
  · exact illegal _ ho (by decide) (reservedParcel_quadrant0 ho h3)
  · exact illegal _ ho (by decide) (reservedParcel_lui ho h3 hb hu)
  · exact illegal _ ho (by decide) (reservedParcel_alu ho h6)
  · exact illegal _ ho (by decide) (reservedParcel_lwsp ho h3 hd)
  · exact illegal _ rfl (by decide) reservedParcel_jr
  · exact illegal _ ho (by decide) (reservedParcel_slli ho h4)
  · exact illegal _ ho (by decide) (reservedParcel_srli_srai ho h4 h11)

/-! ### HINTs (30_encoding R99, R100) -/

/-- A register that gets its own value, or x0 any value, is no change. -/
theorem Hart.setX_eq_self {rd : RegNum} {v : BitVec c.xlen} (hv : rd = 0 ∨ v = h.x rd) : h.setX rd v = h := by
  refine Hart.ext_x (fun r => ?_) (by simp) (by simp) (by simp) (by simp)
  rw [Hart.x_setX]
  split
  · next hr => rw [hr.1, hv.resolve_left hr.2]
  · rfl

theorem writeReg_idle {ilen : Nat} {rd : RegNum} {v : BitVec c.xlen} (hv : rd = 0 ∨ v = h.x rd) :
    writeReg h ilen rd v = .next (h.advance ilen) := by
  rw [writeReg, Hart.setX_eq_self hv]

/-- An instruction whose rule yields a next hart goes on to the state of that hart. -/
theorem next_of_rule {r : HartResult c} {h' : Hart c} (hr : r = .next h') :
    andThen r (fun g => .next (at' g)) = (.next (at' h') : Result) := by
  rw [hr, andThen_next]

theorem whenLegal_writeReg_idle {i : Instr} {ilen : Nat} {rd : RegNum} {v : BitVec c.xlen} (hw : i.wf c = true)
    (hv : rd = 0 ∨ v = h.x rd) : whenLegal h i (writeReg h ilen rd v) = .next (h.advance ilen) := by
  rw [whenLegal_wf hw, writeReg_idle hv]

/-- An integer computational instruction with rd = x0 writes nothing (R99). -/
theorem exec_isHint32 {i : Instr} (hw : i.wf c = true) (hi : isHint32 i = true) :
    exec i (at' h) = .next (at' (h.advance i.length)) := by
  cases i with
  | lui | auipc | addi | slti | sltiu | xori | ori | andi | add | sub | sll | slt | sltu | xor | srl | sra | or | and =>
    exact next_of_rule (writeReg_idle (.inl (eq_of_beq hi)))
  | slli | srli | srai | addiw | slliw | srliw | sraiw | addw | subw | sllw | srlw | sraw =>
    exact next_of_rule (whenLegal_writeReg_idle hw (.inl (eq_of_beq hi)))
  | _ => exact Bool.noConfusion hi

/-- A sixteen-bit HINT writes x0, or leaves a register its value: zero is added, or it is shifted by zero (R100). -/
theorem exec_isHint16 {i : Instr} (hw : i.wf c = true) (hi : isHint16 i = true) :
    exec i (at' h) = .next (at' (h.advance i.length)) := by
  cases i with
  | cNop => exact next_of_rule (whenLegal_writeReg_idle hw (.inl rfl))
  | cLi | cLui | cMv | cAdd | cSlli => exact next_of_rule (whenLegal_writeReg_idle hw (.inl (eq_of_beq hi)))
  | cAddi rd imm =>
    have h0 : cImm6 c 0 = 0#c.xlen := by cases c <;> rfl
    have hz : h.x rd + cImm6 c imm = h.x rd := by rw [eq_of_beq hi, h0, BitVec.add_zero]
    exact next_of_rule (whenLegal_writeReg_idle hw (.inr hz))
  | cSlli64 rd => exact next_of_rule (whenLegal_writeReg_idle hw (.inr (BitVec.shiftLeft_zero _)))
  | cSrli rd' shamt =>
    have hz : h.x (primed rd') >>> shamt.toNat = h.x (primed rd') := by simp [eq_of_beq hi]
    exact next_of_rule (whenLegal_writeReg_idle hw (.inr hz))
  | cSrai rd' shamt =>
    have hz : (h.x (primed rd')).sshiftRight shamt.toNat = h.x (primed rd') := by simp [eq_of_beq hi]
    exact next_of_rule (whenLegal_writeReg_idle hw (.inr hz))
  | _ => exact Bool.noConfusion hi

/-- Settles O28: a HINT's rule writes x0, or writes a register its own value, so only the pc changes. -/
theorem hintsOnlyAdvance : Obligations.HintsOnlyAdvance := by
  intro c h i
  refine ⟨by cases c <;> rfl, fun hw hi => ?_⟩
  rcases hi with h32 | h16
  · exact exec_isHint32 hw h32
  · exact exec_isHint16 hw h16

/-! ### `li` (30_encoding R103) -/

/-- hi20 is rounded up where lo12 is negative, so that the two parts sum to the value. -/
theorem hi20_cat_add_lo12 (imm : BitVec 32) : (hi20 imm ++ 0#12) + (lo12 imm).signExtend 32 = imm := by
  have hlt := imm.isLt
  have hhi : (hi20 imm).toNat = (imm.toNat + 0x800) % 2 ^ 32 / 2 ^ 12 % 2 ^ 20 := by
    rw [hi20, BitVec.extractLsb, toNat_slice, BitVec.toNat_add]
    rfl
  have hlo : (lo12 imm).toNat = imm.toNat % 2 ^ 12 := by
    rw [lo12, BitVec.extractLsb, toNat_slice, pow_zero, Nat.div_one]
  apply BitVec.eq_of_toNat_eq
  rw [BitVec.toNat_add, toNat_cat, BitVec.toNat_signExtend, BitVec.msb_eq_decide, BitVec.toNat_setWidth, hhi, hlo,
    BitVec.toNat_ofNat]
  simp only [decide_eq_true_eq]
  split <;> omega

theorem immU_hi20_add_imm12_lo12 (imm : BitVec 32) : immU .rv32i (hi20 imm) + imm12 .rv32i (lo12 imm) = imm := by
  rw [immU, BitVec.signExtend_eq]
  exact hi20_cat_add_lo12 imm

theorem exec_lui (rd : RegNum) (u : BitVec 20) (h : Hart c) :
    exec (.lui rd u) (at' h) = .next (at' ((h.setX rd (immU c u)).advance 4)) := rfl

theorem exec_addi (rd rs1 : RegNum) (imm : BitVec 12) (h : Hart c) :
    exec (.addi rd rs1 imm) (at' h) = .next (at' ((h.setX rd (h.x rs1 + imm12 c imm)).advance 4)) := rfl

/-- Settles O56: LUI leaves hi20 in rd, ADDI adds lo12 to it, and the two sum to the immediate. -/
theorem loadImmediateSpelling : Obligations.LoadImmediateSpelling := by
  intro h rd imm hrd
  have hsum := immU_hi20_add_imm12_lo12 imm
  refine ⟨fun hz => ⟨if_pos hz, _, exec_lui .., ?_⟩, fun hz => ⟨if_neg hz, _, _, exec_lui .., exec_addi .., ?_⟩⟩
  · have h0 : imm12 .rv32i 0 = 0#32 := rfl
    rw [hz, h0, BitVec.add_zero] at hsum
    rw [Hart.advance_x, Hart.x_setX_self _ hrd, hsum]
  · rw [Hart.advance_x, Hart.x_setX_self _ hrd, Hart.advance_x, Hart.x_setX_self _ hrd, hsum]

end Sys2Proof.Machine
end

section
/-! SUPPORT. Proofs for spec/40_integer_computational.md: the words, results and frames of the integer computational
instructions, and the shifts by an immediate that are illegal (R121 to R145, spec/30_encoding.md R79). -/

namespace Sys2Proof.Machine

open Sys2Proof.Claims

variable {c : Isa} {h : Hart c}

/-! ### Words -/

/-- A well-formed instruction is what its word decodes to. -/
theorem word32_of_encode {w : BitVec 32} {i : Instr} (hw : i.wf c = true) (he : encode i = .long w) : Word32 c w i := by
  rw [Word32, ← he]
  exact decode_encode hw

/-- A row that the configuration has, with a field value that is reserved in it (30_encoding R79). -/
theorem decode_eq_reserved {w : InstrWord} {i : Instr} (hrow : decodeRow w = some i)
    (hf : i.family.enabled c = true) (ho : i.fieldsOk c = false) : decode c w = .error (.reserved i) := by
  simp [decode, hrow, hf, ho]

theorem noWord32_of_decode32 {w : BitVec 32} (hn : decode32 w = none) : NoWord32 c w := by
  intro i hd
  have hrow : decode32 w = some i := (decode_eq_ok.1 hd).1
  simp [hn] at hrow

/-! ### Results -/

/-- An instruction whose rule writes one register completes with the value in it, and changes nothing else but the pc. -/
theorem computes_of_writeReg {i : Instr} {ilen : Nat} {rd : RegNum} {v : BitVec c.xlen}
    (hi : exec i (at' h) = andThen (writeReg h ilen rd v) fun h' => .next (at' h')) : Computes h i ilen rd v :=
  ⟨(h.setX rd v).advance ilen, hi, fun r => Hart.x_setX h rd r v, by simp, fun a => by simp, by simp, by simp⟩

/-- The same where the rule checks that the configuration has the instruction, and it has. -/
theorem computes_of_whenLegal {i : Instr} {ilen : Nat} {rd : RegNum} {v : BitVec c.xlen} (hw : i.wf c = true)
    (hi : exec i (at' h) = andThen (whenLegal h i (writeReg h ilen rd v)) fun h' => .next (at' h')) :
    Computes h i ilen rd v :=
  computes_of_writeReg (hi.trans (by rw [whenLegal_wf hw]))

/-- Where the configuration does not have the instruction, it traps with its own bits (log entry 12). -/
theorem traps_of_not_wf {i : Instr} {body : HartResult c} (hw : i.wf c = false)
    (hi : exec i (at' h) = andThen (whenLegal h i body) fun h' => .next (at' h')) :
    Traps h i .illegalInstruction (BitVec.ofNat c.xlen (encode i).bits) :=
  hi.trans (by rw [whenLegal_not_wf hw]; rfl)

/-- The signed comparison as the spec writes it (R122). -/
theorem setIf_slt (a b : BitVec c.xlen) : setIf c (a.slt b) = if a.toInt < b.toInt then 1 else 0 := by
  simp [setIf, BitVec.slt]

/-- The unsigned comparison as the spec writes it (R123). -/
theorem setIf_ult (a b : BitVec c.xlen) : setIf c (a.ult b) = if a.toNat < b.toNat then 1 else 0 := by
  simp [setIf, BitVec.ult]

/-- The low log2(XLEN) bits are the value modulo XLEN (R145). -/
theorem shiftAmount_eq_mod (v : BitVec c.xlen) : shiftAmount v = v.toNat % c.xlen := by
  have hx : 2 ^ c.log2Xlen = c.xlen := by cases c <;> rfl
  rw [shiftAmount, BitVec.toNat_setWidth, hx]

/-! ### Immediate operands (R121 to R126, R130, R131) -/

/-- Settles O23: each word is the encoder's, and each rule writes its result; the comparisons are `setIf`. -/
theorem registerImmediateResults : Obligations.RegisterImmediateResults := by
  intro c h rd rs1 imm
  rw [← setIf_slt, ← setIf_ult]
  exact ⟨word32_of_encode rfl rfl, computes_of_writeReg rfl, word32_of_encode rfl rfl, computes_of_writeReg rfl,
    word32_of_encode rfl rfl, computes_of_writeReg rfl, word32_of_encode rfl rfl, computes_of_writeReg rfl,
    word32_of_encode rfl rfl, computes_of_writeReg rfl, word32_of_encode rfl rfl, computes_of_writeReg rfl⟩

/-- Settles O25: each word is the encoder's, and each rule writes its result. -/
theorem upperImmediateResults : Obligations.UpperImmediateResults := by
  intro c h rd imm
  exact ⟨word32_of_encode rfl rfl, computes_of_writeReg rfl, word32_of_encode rfl rfl, computes_of_writeReg rfl⟩

/-! ### Two register operands (R132 to R141) -/

/-- Settles O26: each word is the encoder's, and each rule writes its result; the comparisons are `setIf`. -/
theorem registerRegisterResults : Obligations.RegisterRegisterResults := by
  intro c h rd rs1 rs2
  rw [← setIf_slt, ← setIf_ult]
  exact ⟨word32_of_encode rfl rfl, computes_of_writeReg rfl, word32_of_encode rfl rfl, computes_of_writeReg rfl,
    word32_of_encode rfl rfl, computes_of_writeReg rfl, word32_of_encode rfl rfl, computes_of_writeReg rfl,
    word32_of_encode rfl rfl, computes_of_writeReg rfl, word32_of_encode rfl rfl, computes_of_writeReg rfl,
    word32_of_encode rfl rfl, computes_of_writeReg rfl⟩

/-- Settles O27: the rules shift by `shiftAmount`, which is the value modulo XLEN. -/
theorem registerShiftResults : Obligations.RegisterShiftResults := by
  intro c h rd rs1 rs2
  rw [← shiftAmount_eq_mod]
  exact ⟨word32_of_encode rfl rfl, computes_of_writeReg rfl, word32_of_encode rfl rfl, computes_of_writeReg rfl,
    word32_of_encode rfl rfl, computes_of_writeReg rfl⟩

/-! ### Shifts by an immediate (R127 to R129, 30_encoding R79) -/

/-- A field value that is reserved in a configuration which has the row, and no such value in another one `c'`: the
instruction's word matches the row and is rejected, and the instruction traps. -/
theorem illegal_of_reserved {c' : Isa} {i : Instr} {body : HartResult c} (hw' : i.wf c' = true)
    (hf : i.family.enabled c = true) (ho : i.fieldsOk c = false)
    (hi : exec i (at' h) = andThen (whenLegal h i body) fun h' => .next (at' h')) :
    decode c (encode i) = .error (.reserved i) ∧
      Traps h i .illegalInstruction (BitVec.ofNat c.xlen (encode i).bits) := by
  have hrow : decodeRow (encode i) = some i := (decode_eq_ok.1 (decode_encode hw')).1
  have hw : i.wf c = false := by rw [Instr.wf, ho, Bool.and_false]
  exact ⟨decode_eq_reserved hrow hf ho, traps_of_not_wf hw hi⟩

section
variable {upper shamt : BitVec 6} {rs1 rd : RegNum}

/-- A left shift has upper bits 000000 only. -/
theorem decode32_encShift_left (h0 : upper ≠ 0#6) : decode32 (encShift upper shamt rs1 0b001 rd 0b0010011) = none := by
  simp [decode32, encShift_fields, decodeOpImm, h0]

/-- A right shift has upper bits 000000 (logical) or 010000 (arithmetic) only. -/
theorem decode32_encShift_right (h0 : upper ≠ 0#6) (h1 : upper ≠ 0b010000#6) :
    decode32 (encShift upper shamt rs1 0b101 rd 0b0010011) = none := by
  simp [decode32, encShift_fields, decodeOpImm, h0, h1]

end

/-- Settles O24: an amount below XLEN makes the three shifts well-formed; a larger one is reserved, although RV64I has it;
other upper bits match no row. -/
theorem shiftImmediateResults : Obligations.ShiftImmediateResults := by
  intro c h rd rs1 shamt
  refine ⟨fun hs => ?below, fun hs => ?reserved, fun upper => ⟨fun h0 => ?left, fun h0 h1 => ?right⟩⟩
  case below =>
    have hw : decide (shamt.toNat < c.xlen) = true := decide_eq_true hs
    exact ⟨word32_of_encode hw rfl, computes_of_whenLegal hw rfl, word32_of_encode hw rfl, computes_of_whenLegal hw rfl,
      word32_of_encode hw rfl, computes_of_whenLegal hw rfl⟩
  case reserved =>
    have h64 : decide (shamt.toNat < Isa.xlen .rv64i) = true := decide_eq_true shamt.isLt
    have hok : decide (shamt.toNat < c.xlen) = false := decide_eq_false (Nat.not_lt.2 hs)
    intro i hmem
    simp only [List.mem_cons, List.not_mem_nil, or_false] at hmem
    rcases hmem with rfl | rfl | rfl <;> exact illegal_of_reserved (c' := .rv64i) h64 rfl hok rfl
  case left => exact noWord32_of_decode32 (decode32_encShift_left h0)
  case right => exact noWord32_of_decode32 (decode32_encShift_right h0 h1)

end Sys2Proof.Machine
end

section
/-! SUPPORT. Proofs for spec/41_control_transfer.md: the words, targets, links and frames of the jumps and the
conditional branches (R153 to R162), and why no target is misaligned with EXT_C = true (R152). -/

namespace Sys2Proof.Machine

open Sys2Proof.Claims

variable {c : Isa} {h : Hart c}

/-! ### Jumps (R152 to R154) -/

theorem misalignedTarget_eq_true {t : BitVec c.xlen} : misalignedTarget c t = true ↔ t.toNat % c.instrAlign ≠ 0 :=
  decide_eq_true_iff

/-- An instruction whose rule raises an exception traps with it. -/
theorem traps_of_rule {i : Instr} {r : HartResult c} {cause : Cause} {tval : BitVec c.xlen}
    (hi : exec i (at' h) = andThen r fun h' => .next (at' h')) (hr : r = .fault (.trap (trapOf h cause tval))) :
    Traps h i cause tval :=
  hi.trans (by rw [hr]; rfl)

/-- An instruction whose rule is `jumpAndLink` links and jumps, or traps at a misaligned target. -/
theorem jumps_of_jumpAndLink {i : Instr} {ilen : Nat} {rd : RegNum} {t : BitVec c.xlen}
    (hi : exec i (at' h) = andThen (jumpAndLink h ilen rd t) fun h' => .next (at' h')) : Jumps h i ilen rd t := by
  refine ⟨fun ht => ?aligned, fun ht => ?misaligned⟩
  case aligned =>
    have hr : jumpAndLink h ilen rd t = .next ((h.setX rd (h.nextPc ilen)).setPc t) :=
      jumpAndLink_eq_next.2 ⟨misalignedTarget_eq_false.2 ht, rfl⟩
    exact ⟨_, hi.trans (next_of_rule hr), fun r => Hart.x_setX h rd r _, rfl, fun a => by simp, by simp, by simp⟩
  case misaligned => exact traps_of_rule hi (jumpAndLink_eq_fault.2 ⟨misalignedTarget_eq_true.2 ht, rfl⟩)

/-- Settles O32: the word is the encoder's, and the rule is `jumpAndLink` to pc + immJ. -/
theorem jalJumps : Obligations.JalJumps := fun _ _ _ _ => ⟨word32_of_encode rfl rfl, jumps_of_jumpAndLink rfl⟩

/-- JALR has funct3 000 only. -/
theorem decode32_encI_jalr {imm : BitVec 12} {rs1 rd : RegNum} {f3 : BitVec 3} (hf : f3 ≠ 0#3) :
    decode32 (encI imm rs1 f3 rd 0b1100111) = none := by
  simp [decode32, encI_fields, hf]

/-- Settles O33: the word is the encoder's, the rule is `jumpAndLink` to the sum with bit 0 cleared, and another funct3
matches no row. -/
theorem jalrJumps : Obligations.JalrJumps := fun _ _ _ _ _ =>
  ⟨word32_of_encode rfl rfl, jumps_of_jumpAndLink rfl, fun _ hf => noWord32_of_decode32 (decode32_encI_jalr hf)⟩

/-! ### Conditional branches (R155 to R162) -/

theorem BranchCond.eq_holds {n : Nat} {a b : BitVec n} : BranchCond.eq.holds a b = true ↔ a = b := decide_eq_true_iff

theorem BranchCond.ne_holds {n : Nat} {a b : BitVec n} : BranchCond.ne.holds a b = true ↔ a ≠ b := decide_eq_true_iff

theorem BranchCond.lt_holds {n : Nat} {a b : BitVec n} : BranchCond.lt.holds a b = true ↔ a.toInt < b.toInt :=
  BitVec.slt_iff_toInt_lt

theorem BranchCond.ge_holds {n : Nat} {a b : BitVec n} : BranchCond.ge.holds a b = true ↔ a.toInt ≥ b.toInt := by
  rw [BranchCond.holds, Bool.not_eq_true', ← Bool.not_eq_true, BitVec.slt_iff_toInt_lt, not_lt]

theorem BranchCond.ltu_holds {n : Nat} {a b : BitVec n} : BranchCond.ltu.holds a b = true ↔ a.toNat < b.toNat :=
  decide_eq_true_iff

theorem BranchCond.geu_holds {n : Nat} {a b : BitVec n} : BranchCond.geu.holds a b = true ↔ a.toNat ≥ b.toNat := by
  rw [BranchCond.holds, Bool.not_eq_true', BitVec.ult, decide_eq_false_iff_not, not_lt]

/-- An instruction whose rule is `branchTo` goes on where its condition fails; where it holds it goes to the target, or
traps at a misaligned one. -/
theorem branches_of_branchTo {i : Instr} {ilen : Nat} {taken : Bool} {P : Prop} {t : BitVec c.xlen}
    (hP : taken = true ↔ P) (hi : exec i (at' h) = andThen (branchTo h ilen taken t) fun h' => .next (at' h')) :
    Branches h i ilen P t := by
  refine ⟨fun hn => ?notTaken, fun hp ht => ?taken, fun hp ht => ?misaligned⟩
  case notTaken =>
    have hr : branchTo h ilen taken t = .next (h.advance ilen) :=
      branchTo_eq_next.2 (.inl ⟨Bool.eq_false_iff.2 fun hb => hn (hP.1 hb), rfl⟩)
    exact ⟨_, hi.trans (next_of_rule hr), fun _ => rfl, rfl, fun _ => rfl, rfl, rfl⟩
  case taken =>
    have hr : branchTo h ilen taken t = .next (h.setPc t) :=
      branchTo_eq_next.2 (.inr ⟨hP.2 hp, misalignedTarget_eq_false.2 ht, rfl⟩)
    exact ⟨_, hi.trans (next_of_rule hr), fun _ => rfl, rfl, fun _ => rfl, rfl, rfl⟩
  case misaligned =>
    exact traps_of_rule hi (branchTo_eq_fault.2 ⟨hP.2 hp, misalignedTarget_eq_true.2 ht, rfl⟩)

/-- The branches leave funct3 010 and 011 unassigned. -/
theorem decode32_encB_unassigned {imm : BitVec 12} {rs1 rs2 : RegNum} {f3 : BitVec 3} (hf : f3 = 0b010 ∨ f3 = 0b011) :
    decode32 (encB imm rs2 rs1 f3 0b1100011) = none := by
  rcases hf with rfl | rfl <;> simp [decode32, encB_fields, decodeBranch]

/-- Settles O34: each word is the encoder's, each rule is `branchTo` with its condition, and funct3 010 and 011 match no
row. -/
theorem conditionalBranches : Obligations.ConditionalBranches := by
  intro c h rs1 rs2 imm
  exact ⟨word32_of_encode rfl rfl, branches_of_branchTo BranchCond.eq_holds rfl,
    word32_of_encode rfl rfl, branches_of_branchTo BranchCond.ne_holds rfl,
    word32_of_encode rfl rfl, branches_of_branchTo BranchCond.lt_holds rfl,
    word32_of_encode rfl rfl, branches_of_branchTo BranchCond.ge_holds rfl,
    word32_of_encode rfl rfl, branches_of_branchTo BranchCond.ltu_holds rfl,
    word32_of_encode rfl rfl, branches_of_branchTo BranchCond.geu_holds rfl,
    noWord32_of_decode32 (decode32_encB_unassigned (.inl rfl)),
    noWord32_of_decode32 (decode32_encB_unassigned (.inr rfl))⟩

/-! ### Even targets (R151, R152, 10_state R27) -/

/-- An even address: bit 0 is clear. -/
def EvenAddr {n : Nat} (t : BitVec n) : Prop := t.getLsbD 0 = false

theorem evenAddr_iff_toNat {n : Nat} {t : BitVec n} : EvenAddr t ↔ t.toNat % 2 = 0 := by
  simp [EvenAddr, BitVec.getLsbD, Nat.testBit_zero]

/-- An instruction address is even, with IALIGN = 16 and with IALIGN = 32 (10_state R27). -/
theorem evenAddr_of_aligned {t : BitVec c.xlen} (ht : misalignedTarget c t = false) : EvenAddr t := by
  have h2 : 2 ∣ c.instrAlign := by cases c <;> decide
  rw [misalignedTarget_eq_false] at ht
  exact evenAddr_iff_toNat.2 (Nat.mod_eq_zero_of_dvd (h2.trans (Nat.dvd_of_mod_eq_zero ht)))

theorem evenAddr_add {n : Nat} {a b : BitVec n} (ha : EvenAddr a) (hb : EvenAddr b) : EvenAddr (a + b) := by
  cases n with
  | zero => exact BitVec.getLsbD_of_ge _ _ (Nat.zero_le 0)
  | succ n =>
    unfold EvenAddr at *
    rw [BitVec.getLsbD_add n.succ_pos, ha, hb, BitVec.carry_zero]
    rfl

/-- With IALIGN = 16 an even target is aligned (R152). -/
theorem misalignedTarget_of_evenAddr {t : BitVec c.xlen} (hx : c.extC = true) (ht : EvenAddr t) :
    misalignedTarget c t = false :=
  misalignedTarget_extC hx (evenAddr_iff_toNat.1 ht)

/-- The offset of a jump or a branch is even: its bit 0 is not encoded (30_encoding R75, R77, R96). -/
theorem evenAddr_offset {m n : Nat} (imm : BitVec m) : EvenAddr ((imm ++ 0#1).signExtend n) := by
  have h0 : (imm ++ 0#1).getLsbD 0 = false := BitVec.getLsbD_append
  rw [EvenAddr, BitVec.getLsbD_signExtend, if_pos m.succ_pos, h0, Bool.and_false]

/-- JALR clears bit 0 of its target (R154). -/
theorem evenAddr_indirectTarget (rs1 : RegNum) (offset : BitVec c.xlen) : EvenAddr (indirectTarget h rs1 offset) := by
  simp [EvenAddr, indirectTarget]

/-! ### With EXT_C no target is misaligned (R152) -/

/-- A rule or a fetch that never raises InstructionAddressMisaligned. -/
def NeverMisaligned {α : Type} (r : Host.Outcome α Fault Refusal) : Prop :=
  ∀ t, r = .fault (.trap t) → t.cause ≠ .instructionAddressMisaligned

theorem neverMisaligned_next {α : Type} {a : α} : NeverMisaligned (.next a : Host.Outcome α Fault Refusal) := by
  simp [NeverMisaligned]

theorem neverMisaligned_raise {α : Type} {cause : Cause} {tval : BitVec c.xlen}
    (hc : cause ≠ .instructionAddressMisaligned) :
    NeverMisaligned (raise h cause tval : Host.Outcome α Fault Refusal) := by
  intro t ht
  cases ht
  exact hc

theorem neverMisaligned_andThen {α β : Type} {r : Host.Outcome α Fault Refusal}
    {f : α → Host.Outcome β Fault Refusal} (hr : NeverMisaligned r) (hf : ∀ a, NeverMisaligned (f a)) :
    NeverMisaligned (andThen r f) := by
  intro t ht
  rcases andThen_eq_fault.1 ht with h0 | ⟨a, -, ha⟩
  · exact hr t h0
  · exact hf a t ha

theorem neverMisaligned_whenLegal {i : Instr} {r : HartResult c} (hr : NeverMisaligned r) :
    NeverMisaligned (whenLegal h i r) := by
  unfold whenLegal
  split
  · exact hr
  · exact neverMisaligned_raise (by decide)

theorem neverMisaligned_loadInto {ilen : Nat} {rd : RegNum} {a : BitVec c.xlen} {n : Nat}
    {ext : BitVec (8 * n) → BitVec c.xlen} : NeverMisaligned (loadInto h ilen rd a n ext) := by
  intro t ht
  rcases memRead_eq_fault (loadInto_eq_fault.1 ht) with ⟨-, he⟩ | ⟨-, -, he⟩ | ⟨-, -, -, he⟩ <;> cases he <;> nofun

theorem neverMisaligned_storeFrom {ilen : Nat} {a : BitVec c.xlen} {n : Nat} {v : BitVec c.xlen} :
    NeverMisaligned (storeFrom h ilen a n v) := by
  intro t ht
  rcases memWrite_eq_fault (storeFrom_eq_fault.1 ht) with ⟨-, he⟩ | ⟨-, -, he⟩ <;> cases he <;> nofun

theorem neverMisaligned_jumpAndLink {ilen : Nat} {rd : RegNum} {t : BitVec c.xlen} (hx : c.extC = true)
    (ht : EvenAddr t) : NeverMisaligned (jumpAndLink h ilen rd t) := by
  intro u hu
  have hmis := (jumpAndLink_eq_fault.1 hu).1
  simp [misalignedTarget_of_evenAddr hx ht] at hmis

theorem neverMisaligned_branchTo {ilen : Nat} {taken : Bool} {t : BitVec c.xlen} (hx : c.extC = true)
    (ht : EvenAddr t) : NeverMisaligned (branchTo h ilen taken t) := by
  intro u hu
  have hmis := (branchTo_eq_fault.1 hu).2.1
  simp [misalignedTarget_of_evenAddr hx ht] at hmis

/-- Every jump and branch from an even pc has an even target, and nothing else can raise the exception. -/
theorem exec_neverMisaligned {i : Instr} (hx : c.extC = true) (hpc : EvenAddr h.pc) :
    NeverMisaligned (exec i (at' h)) := by
  have hrel {m : Nat} (imm : BitVec m) : EvenAddr (h.pc + (imm ++ 0#1).signExtend c.xlen) :=
    evenAddr_add hpc (evenAddr_offset imm)
  suffices hrule : ∃ r : HartResult c, exec i (at' h) = andThen r (fun h' => .next (at' h')) ∧ NeverMisaligned r by
    obtain ⟨r, hexec, hr⟩ := hrule
    rw [hexec]
    exact neverMisaligned_andThen hr fun _ => neverMisaligned_next
  cases i with
  | lui | auipc | addi | slti | sltiu | xori | ori | andi | add | sub | sll | slt | sltu | xor | srl | sra | or | and
    | fence => exact ⟨_, rfl, neverMisaligned_next⟩
  | slli | srli | srai | addiw | slliw | srliw | sraiw | addw | subw | sllw | srlw | sraw | cAddi4spn | cNop | cAddi
    | cLi | cAddi16sp | cLui | cSrli | cSrai | cAndi | cSub | cXor | cOr | cAnd | cSlli64 | cSlli | cMv | cAdd =>
    exact ⟨_, rfl, neverMisaligned_whenLegal neverMisaligned_next⟩
  | lb | lh | lw | lbu | lhu => exact ⟨_, rfl, neverMisaligned_loadInto⟩
  | lwu | ld | cLw | cLwsp => exact ⟨_, rfl, neverMisaligned_whenLegal neverMisaligned_loadInto⟩
  | sb | sh | sw => exact ⟨_, rfl, neverMisaligned_storeFrom⟩
  | sd | cSw | cSwsp => exact ⟨_, rfl, neverMisaligned_whenLegal neverMisaligned_storeFrom⟩
  | jal rd imm => exact ⟨_, rfl, neverMisaligned_jumpAndLink hx (hrel imm)⟩
  | jalr => exact ⟨_, rfl, neverMisaligned_jumpAndLink hx (evenAddr_indirectTarget ..)⟩
  | cJal imm | cJ imm => exact ⟨_, rfl, neverMisaligned_whenLegal (neverMisaligned_jumpAndLink hx (hrel imm))⟩
  | cJr | cJalr => exact ⟨_, rfl, neverMisaligned_whenLegal (neverMisaligned_jumpAndLink hx (evenAddr_indirectTarget ..))⟩
  | beq _ _ imm | bne _ _ imm | blt _ _ imm | bge _ _ imm | bltu _ _ imm | bgeu _ _ imm =>
    exact ⟨_, rfl, neverMisaligned_branchTo hx (hrel imm)⟩
  | cBeqz _ imm | cBnez _ imm => exact ⟨_, rfl, neverMisaligned_whenLegal (neverMisaligned_branchTo hx (hrel imm))⟩
  | ecall | ebreak | cIllegal | cFld | cFlw | cFsd | cFsw | cFldsp | cFlwsp | cFsdsp | cFswsp =>
    exact ⟨_, rfl, neverMisaligned_raise (by decide)⟩
  | cEbreak => exact ⟨_, rfl, neverMisaligned_whenLegal (neverMisaligned_raise (by decide))⟩

theorem fetchParcel_neverMisaligned {a : Nat} : NeverMisaligned (fetchParcel h a) := by
  intro t ht
  rcases fetchParcel_eq_fault ht with ⟨-, he⟩ | ⟨-, k, -, -, he⟩ <;> cases he
  nofun

/-- Fetch checks the pc, which is aligned, and then raises access faults only (60_exceptions R281). -/
theorem fetch_neverMisaligned (hpc : misalignedTarget c h.pc = false) : NeverMisaligned (fetch h) := by
  rw [fetch, hpc, if_neg Bool.false_ne_true]
  refine neverMisaligned_andThen fetchParcel_neverMisaligned fun p0 => ?_
  split
  · exact neverMisaligned_andThen fetchParcel_neverMisaligned fun _ => neverMisaligned_next
  · exact neverMisaligned_next

theorem runWord_neverMisaligned {w : InstrWord} (hx : c.extC = true) (hpc : EvenAddr h.pc) :
    NeverMisaligned (runWord (at' h) w) := by
  unfold runWord
  split
  · exact exec_neverMisaligned hx hpc
  · exact neverMisaligned_raise (by decide)

/-- Settles O8: by the invariant the pc is aligned, so fetch does not raise the exception, and with EXT_C = true every
target from there is even, which is all the alignment it needs. -/
theorem noMisalignedTargetWithCompressed : Obligations.NoMisalignedTargetWithCompressed := by
  intro s t hx hs ht
  have hpc : misalignedTarget s.isa s.hart.pc = false := hs.pcAligned
  have hstep : NeverMisaligned (step s) :=
    neverMisaligned_andThen (fetch_neverMisaligned hpc) fun _ => runWord_neverMisaligned hx (evenAddr_of_aligned hpc)
  exact hstep t ht

end Sys2Proof.Machine
end

section
/-! SUPPORT. Proofs for spec/42_load_store.md: the words, results, traps and frames of the loads and stores (R170 to R182),
and their words that XLEN = 32 does not have (R177, R178, R182). -/

namespace Sys2Proof.Machine

open Sys2Proof.Claims

variable {c : Isa} {h : Hart c}

/-! ### Words of the RV64I rows -/

/-- A word is one instruction's at most, so it is no instruction of a configuration that does not have that one. -/
theorem noWord32_of_not_wf {w : BitVec 32} {i : Instr} {c' : Isa} (hw' : i.wf c' = true) (he : encode i = .long w)
    (hw : i.wf c = false) : NoWord32 c w := by
  intro j hd
  have hi : decodeRow (.long w) = some i := he ▸ (decode_eq_ok.1 (decode_encode hw')).1
  obtain ⟨hj, hjw⟩ := decode_eq_ok.1 hd
  obtain rfl : i = j := Option.some.inj (hi.symm.trans hj)
  simp [hw] at hjw

/-- XLEN = 32 has no row of RV64I (30_encoding R85). -/
theorem not_wf_of_rv64 {i : Instr} (hf : i.family = .rv64) (hc : c.xlen = 32) : i.wf c = false := by
  simp [Instr.wf, hf, Family.enabled, hc]

/-! ### Loads (R170 to R178) -/

section
variable {a : BitVec c.xlen} {n : Nat}

theorem memRead_misaligned (ha : a.toNat % n ≠ 0) :
    memRead h a n = .fault (.trap (trapOf h .loadAddressMisaligned a)) := if_pos ha

theorem memRead_not_permitted (ha : a.toNat % n = 0) (hp : permitted c h.memMap .read a.toNat n = false) :
    memRead h a n = .fault (.trap (trapOf h .loadAccessFault a)) := by
  rw [memRead, if_neg (not_not.2 ha), if_neg (Bool.eq_false_iff.1 hp), raise_eq]

theorem memRead_of_holds {v : BitVec (8 * n)} (ha : a.toNat % n = 0)
    (hp : permitted c h.memMap .read a.toNat n = true) (hv : Holds h a.toNat n v) : memRead h a n = .next v :=
  memRead_eq_next.2 ⟨ha, hp, Memory.readLE_eq_some hv⟩

/-- An instruction whose rule is `loadInto` traps as the read does, and otherwise writes what the bytes hold. -/
theorem loads_of_loadInto {i : Instr} {ilen : Nat} {rd : RegNum} {ext : BitVec (8 * n) → BitVec c.xlen}
    (hi : exec i (at' h) = andThen (loadInto h ilen rd a n ext) fun h' => .next (at' h')) :
    Loads h i ilen a n rd ext := by
  refine ⟨fun ha => ?misaligned, fun ha hp => ?fault, fun v ha hp hv => ?loaded⟩
  case misaligned => exact traps_of_rule hi (loadInto_eq_fault.2 (memRead_misaligned ha))
  case fault => exact traps_of_rule hi (loadInto_eq_fault.2 (memRead_not_permitted ha hp))
  case loaded =>
    have hr : loadInto h ilen rd a n ext = writeReg h ilen rd (ext v) := by
      rw [loadInto, memRead_of_holds ha hp hv, andThen_next]
    exact computes_of_writeReg (hi.trans (by rw [hr]))

/-- The same for a load that only some configurations have, in one that has it. -/
theorem loads_of_whenLegal {i : Instr} {ilen : Nat} {rd : RegNum} {ext : BitVec (8 * n) → BitVec c.xlen}
    (hw : i.wf c = true)
    (hi : exec i (at' h) = andThen (whenLegal h i (loadInto h ilen rd a n ext)) fun h' => .next (at' h')) :
    Loads h i ilen a n rd ext :=
  loads_of_loadInto (hi.trans (by rw [whenLegal_wf hw]))

end

/-- Settles O35: each word is the encoder's, and each rule is `loadInto` with the sign extension. -/
theorem signedLoads : Obligations.SignedLoads := fun _ _ _ _ _ =>
  ⟨word32_of_encode rfl rfl, loads_of_loadInto rfl, word32_of_encode rfl rfl, loads_of_loadInto rfl,
    word32_of_encode rfl rfl, loads_of_loadInto rfl⟩

/-- Settles O36: each word is the encoder's, and each rule is `loadInto` with the zero extension. -/
theorem unsignedLoads : Obligations.UnsignedLoads := fun _ _ _ _ _ =>
  ⟨word32_of_encode rfl rfl, loads_of_loadInto rfl, word32_of_encode rfl rfl, loads_of_loadInto rfl⟩

/-- Eight bytes are the whole register, so LD's extension is none (R178). -/
theorem unsigned_rv64i : (unsigned .rv64i : BitVec (8 * 8) → BitVec (Isa.xlen .rv64i)) = fun v => v :=
  funext BitVec.setWidth_eq

/-- Settles O37: RV64I has both words, and both rules are `loadInto`; XLEN = 32 has neither row. -/
theorem rv64Loads : Obligations.Rv64Loads := by
  refine ⟨fun h rd rs1 imm => ?rv64i, fun c rd rs1 imm hc => ?xlen32⟩
  case rv64i =>
    refine ⟨word32_of_encode rfl rfl, loads_of_whenLegal rfl rfl, word32_of_encode rfl rfl, ?_⟩
    rw [← unsigned_rv64i]
    exact loads_of_whenLegal rfl rfl
  case xlen32 =>
    exact ⟨noWord32_of_not_wf (i := .lwu rd rs1 imm) (c' := .rv64i) rfl rfl (not_wf_of_rv64 rfl hc),
      noWord32_of_not_wf (i := .ld rd rs1 imm) (c' := .rv64i) rfl rfl (not_wf_of_rv64 rfl hc)⟩

/-! ### Stores (R170, R171, R179 to R182) -/

section
variable {a : BitVec c.xlen} {n : Nat}

theorem memWrite_misaligned {v : BitVec (8 * n)} (ha : a.toNat % n ≠ 0) :
    memWrite h a n v = .fault (.trap (trapOf h .storeAddressMisaligned a)) := if_pos ha

theorem memWrite_not_permitted {v : BitVec (8 * n)} (ha : a.toNat % n = 0)
    (hp : permitted c h.memMap .write a.toNat n = false) :
    memWrite h a n v = .fault (.trap (trapOf h .storeAccessFault a)) := by
  rw [memWrite, if_neg (not_not.2 ha), if_neg (Bool.eq_false_iff.1 hp), raise_eq]

/-- An instruction whose rule is `storeFrom` traps as the write does, and otherwise stores the value's low bytes. -/
theorem stores_of_storeFrom {i : Instr} {ilen : Nat} {v : BitVec c.xlen}
    (hi : exec i (at' h) = andThen (storeFrom h ilen a n v) fun h' => .next (at' h')) : Stores h i ilen a n v := by
  refine ⟨fun ha => ?misaligned, fun ha hp => ?fault, fun ha hp => ?stored⟩
  case misaligned => exact traps_of_rule hi (storeFrom_eq_fault.2 (memWrite_misaligned ha))
  case fault => exact traps_of_rule hi (storeFrom_eq_fault.2 (memWrite_not_permitted ha hp))
  case stored =>
    have hr : storeFrom h ilen a n v = .next ((h.store a.toNat n (v.setWidth (8 * n))).advance ilen) :=
      storeFrom_eq_next.2 ⟨ha, hp, rfl⟩
    refine ⟨_, hi.trans (next_of_rule hr), fun _ => rfl, rfl, fun k hk => ?inside, fun b hb => ?outside, rfl,
      fun b => mem_insertAddrs⟩
    case inside =>
      rw [← BitVec.extractLsb'_setWidth_of_le (b := v) (show 8 * k + 8 ≤ 8 * n by omega)]
      exact Memory.read_writeLE_inside h.mem a.toNat n _ k hk
    case outside => exact Memory.read_writeLE_outside h.mem a.toNat n _ hb

/-- The same for a store that only some configurations have, in one that has it. -/
theorem stores_of_whenLegal {i : Instr} {ilen : Nat} {v : BitVec c.xlen} (hw : i.wf c = true)
    (hi : exec i (at' h) = andThen (whenLegal h i (storeFrom h ilen a n v)) fun h' => .next (at' h')) :
    Stores h i ilen a n v :=
  stores_of_storeFrom (hi.trans (by rw [whenLegal_wf hw]))

end

/-- Settles O38: each word is the encoder's, and each rule is `storeFrom`; XLEN = 32 has no row of SD. -/
theorem storesWriteLowBytes : Obligations.StoresWriteLowBytes := by
  refine ⟨fun c h rs1 rs2 imm => ?base, fun h rs1 rs2 imm => ?sd⟩
  case base =>
    exact ⟨word32_of_encode rfl rfl, stores_of_storeFrom rfl, word32_of_encode rfl rfl, stores_of_storeFrom rfl,
      word32_of_encode rfl rfl, stores_of_storeFrom rfl,
      fun hc => noWord32_of_not_wf (i := .sd rs1 rs2 imm) (c' := .rv64i) rfl rfl (not_wf_of_rv64 rfl hc)⟩
  case sd => exact ⟨word32_of_encode rfl rfl, stores_of_whenLegal rfl rfl⟩

end Sys2Proof.Machine
end

section
/-! SUPPORT. Proofs for spec/43_fence_system.md: the word and the frame of FENCE (R190), and the requested traps, which ECALL,
EBREAK and c.ebreak always raise and no other instruction does (R191, R192, spec/45_compressed.md R258,
spec/60_exceptions.md R283, R284). -/

namespace Sys2Proof.Machine

open Sys2Proof.Claims

variable {c : Isa} {h : Hart c}

/-! ### FENCE (R190) -/

/-- MISC-MEM has funct3 000 only. -/
theorem decode32_encI_fence {imm : BitVec 12} {rs1 rd : RegNum} {f3 : BitVec 3} (hf : f3 ≠ 0#3) :
    decode32 (encI imm rs1 f3 rd 0b0001111) = none := by
  simp [decode32, encI_fields, hf]

/-- Settles O42: the word is the encoder's, the rule only advances the pc, and another funct3 matches no row; such a word
has the fields of format I, with fm, pred and succ for the immediate. -/
theorem fenceOnlyAdvances : Obligations.FenceOnlyAdvances := fun _ _ _ _ fm pred succ =>
  ⟨word32_of_encode rfl rfl, next_of_rule rfl,
    fun _ hf => noWord32_of_decode32 (decode32_encI_fence (imm := fm ++ pred ++ succ) hf)⟩

/-! ### The causes that an operation raises (60_exceptions R280) -/

/-- A rule or an instruction that traps with causes of a set only. -/
def RaisesOnly {α : Type} (P : Cause → Bool) (r : Host.Outcome α Fault Refusal) : Prop :=
  ∀ t, r = .fault (.trap t) → P t.cause = true

section
variable {P : Cause → Bool}

theorem raisesOnly_next {α : Type} {a : α} : RaisesOnly P (.next a : Host.Outcome α Fault Refusal) := nofun

theorem raisesOnly_raise {α : Type} {cause : Cause} {tval : BitVec c.xlen} (hc : P cause = true) :
    RaisesOnly P (raise h cause tval : Host.Outcome α Fault Refusal) := by
  rintro t ⟨⟩
  exact hc

theorem raisesOnly_whenLegal {i : Instr} {r : HartResult c} (hi : P .illegalInstruction = true) (hr : RaisesOnly P r) :
    RaisesOnly P (whenLegal h i r) := by
  cases hw : i.wf c with
  | true => rwa [whenLegal_wf hw]
  | false =>
    rw [whenLegal_not_wf hw]
    exact raisesOnly_raise hi

theorem raisesOnly_loadInto {ilen : Nat} {rd : RegNum} {a : BitVec c.xlen} {n : Nat} {ext : BitVec (8 * n) → BitVec c.xlen}
    (hm : P .loadAddressMisaligned = true) (hf : P .loadAccessFault = true) :
    RaisesOnly P (loadInto h ilen rd a n ext) := by
  intro t ht
  rcases memRead_eq_fault (loadInto_eq_fault.1 ht) with ⟨-, he⟩ | ⟨-, -, he⟩ | ⟨-, -, -, he⟩ <;> cases he
  · exact hm
  · exact hf

theorem raisesOnly_storeFrom {ilen : Nat} {a : BitVec c.xlen} {n : Nat} {v : BitVec c.xlen}
    (hm : P .storeAddressMisaligned = true) (hf : P .storeAccessFault = true) :
    RaisesOnly P (storeFrom h ilen a n v) := by
  intro t ht
  rcases memWrite_eq_fault (storeFrom_eq_fault.1 ht) with ⟨-, he⟩ | ⟨-, -, he⟩ <;> cases he
  · exact hm
  · exact hf

theorem raisesOnly_jumpAndLink {ilen : Nat} {rd : RegNum} {a : BitVec c.xlen}
    (hm : P .instructionAddressMisaligned = true) : RaisesOnly P (jumpAndLink h ilen rd a) := by
  intro t ht
  cases (jumpAndLink_eq_fault.1 ht).2
  exact hm

theorem raisesOnly_branchTo {ilen : Nat} {taken : Bool} {a : BitVec c.xlen}
    (hm : P .instructionAddressMisaligned = true) : RaisesOnly P (branchTo h ilen taken a) := by
  intro t ht
  cases (branchTo_eq_fault.1 ht).2.2
  exact hm

/-- An instruction raises what its rule raises. -/
theorem raisesOnly_of_rule {i : Instr} {r : HartResult c} (hi : exec i (at' h) = andThen r fun h' => .next (at' h'))
    (hr : RaisesOnly P r) : RaisesOnly P (exec i (at' h)) := by
  intro t ht
  rcases andThen_eq_fault.1 (hi.symm.trans ht) with ht | ⟨_, -, ⟨⟩⟩
  exact hr t ht

end

/-! ### Requested traps (R191, R192, 45_compressed R258) -/

/-- The two causes that are requests belong to the instructions that make them; the other causes are not told apart. -/
def mayRaise (i : Instr) : Cause → Bool
  | .environmentCall => i == .ecall
  | .breakpoint => i == .ebreak || i == .cEbreak
  | _ => true

/-- The shared operations raise no request, and the only rules that raise one themselves are those of its instructions. -/
theorem exec_raisesOnly (i : Instr) : RaisesOnly (mayRaise i) (exec i (at' h)) := by
  cases i with
  | lui | auipc | addi | slti | sltiu | xori | ori | andi | add | sub | sll | slt | sltu | xor | srl | sra | or | and
    | fence => exact raisesOnly_of_rule rfl raisesOnly_next
  | slli | srli | srai | addiw | slliw | srliw | sraiw | addw | subw | sllw | srlw | sraw | cAddi4spn | cNop | cAddi
    | cLi | cAddi16sp | cLui | cSrli | cSrai | cAndi | cSub | cXor | cOr | cAnd | cSlli64 | cSlli | cMv | cAdd =>
    exact raisesOnly_of_rule rfl (raisesOnly_whenLegal rfl raisesOnly_next)
  | lb | lh | lw | lbu | lhu => exact raisesOnly_of_rule rfl (raisesOnly_loadInto rfl rfl)
  | lwu | ld | cLw | cLwsp => exact raisesOnly_of_rule rfl (raisesOnly_whenLegal rfl (raisesOnly_loadInto rfl rfl))
  | sb | sh | sw => exact raisesOnly_of_rule rfl (raisesOnly_storeFrom rfl rfl)
  | sd | cSw | cSwsp => exact raisesOnly_of_rule rfl (raisesOnly_whenLegal rfl (raisesOnly_storeFrom rfl rfl))
  | jal | jalr => exact raisesOnly_of_rule rfl (raisesOnly_jumpAndLink rfl)
  | cJal | cJ | cJr | cJalr => exact raisesOnly_of_rule rfl (raisesOnly_whenLegal rfl (raisesOnly_jumpAndLink rfl))
  | beq | bne | blt | bge | bltu | bgeu => exact raisesOnly_of_rule rfl (raisesOnly_branchTo rfl)
  | cBeqz | cBnez => exact raisesOnly_of_rule rfl (raisesOnly_whenLegal rfl (raisesOnly_branchTo rfl))
  | ecall | ebreak => exact raisesOnly_of_rule rfl (raisesOnly_raise rfl)
  | cEbreak => exact raisesOnly_of_rule rfl (raisesOnly_whenLegal rfl (raisesOnly_raise rfl))
  | cIllegal | cFld | cFlw | cFsd | cFsw | cFldsp | cFlwsp | cFsdsp | cFswsp =>
    exact raisesOnly_of_rule rfl (raisesOnly_raise rfl)

/-- Settles O43: each word is the encoder's or decodes by evaluation, each of the three rules only raises, and a request
that an instruction raises is its own. -/
theorem requestedTraps : Obligations.RequestedTraps := by
  refine ⟨fun c h => ?base, fun h => ⟨rfl, rfl⟩, fun s t i ht => ?only⟩
  case base => exact ⟨word32_of_encode rfl rfl, rfl, word32_of_encode rfl rfl, rfl⟩
  case only =>
    have hmay : mayRaise i t.cause = true := exec_raisesOnly i t ht
    exact ⟨fun hc => by simpa [mayRaise, hc] using hmay, fun hc => by simpa [mayRaise, hc] using hmay⟩

end Sys2Proof.Machine
end

section
/-! SUPPORT. Proofs for spec/44_rv64i_word.md: the words, results and frames of the W instructions, and that they read the low
words of their operands only and give sign-extended 32-bit values (R200 to R210). -/

namespace Sys2Proof.Machine

open Sys2Proof.Claims

/-! ### Low words, shift amounts and results (R200) -/

theorem lowWord_eq_slice (v : BitVec (Isa.xlen .rv64i)) : lowWord v = v.extractLsb' 0 32 :=
  BitVec.setWidth_eq_extractLsb' (by decide)

theorem lowWord_add (a b : BitVec (Isa.xlen .rv64i)) : lowWord (a + b) = lowWord a + lowWord b :=
  BitVec.setWidth_add a b (by decide)

theorem lowWord_sub (a b : BitVec (Isa.xlen .rv64i)) : lowWord (a - b) = lowWord a - lowWord b := by
  rw [BitVec.sub_eq_add_neg, lowWord_add, BitVec.sub_eq_add_neg (lowWord a)]
  exact congrArg (lowWord a + ·) (BitVec.setWidth_neg_of_le (by decide))

/-- The low five bits are the value modulo 32 (R208). -/
theorem shiftAmountW_eq_mod (v : BitVec (Isa.xlen .rv64i)) : shiftAmountW v = v.toNat % 32 :=
  BitVec.toNat_setWidth 5 v

/-- The low five bits lie in the low word. -/
theorem shiftAmountW_eq_lowWord_mod (v : BitVec (Isa.xlen .rv64i)) : shiftAmountW v = (lowWord v).toNat % 32 := by
  rw [shiftAmountW_eq_mod, lowWord, BitVec.toNat_setWidth]
  omega

/-- From bit 31 on a result holds its sign. -/
theorem getLsbD_wordResult (w : BitVec 32) {k : Nat} (hlo : 31 ≤ k) (hhi : k ≤ 63) :
    (wordResult .rv64i w).getLsbD k = w.msb := by
  have hk : k < Isa.xlen .rv64i := Nat.lt_succ_of_le hhi
  rw [wordResult, BitVec.getLsbD_signExtend, decide_eq_true hk, Bool.true_and]
  split
  · obtain rfl : k = 31 := by omega
    exact (BitVec.msb_eq_getLsbD_last w).symm
  · rfl

/-! ### Immediate operands (R202 to R205) -/

section
variable {upper : BitVec 7} {shamt : BitVec 5} {rs1 rd : RegNum}

/-- SLLIW has upper bits 0000000 only. -/
theorem decode32_encR_slliw (h0 : upper ≠ 0#7) : decode32 (encR upper shamt rs1 0b001 rd 0b0011011) = none := by
  simp [decode32, encR_fields, decodeOpImm32, h0]

/-- A right W shift by an immediate has upper bits 0000000 (SRLIW) or 0100000 (SRAIW) only. -/
theorem decode32_encR_srliw_sraiw (h0 : upper ≠ 0#7) (h1 : upper ≠ 0b0100000#7) :
    decode32 (encR upper shamt rs1 0b101 rd 0b0011011) = none := by
  simp [decode32, encR_fields, decodeOpImm32, h0, h1]

end

/-- Settles O29: each word is the encoder's, and each rule writes its result; other upper bits match no row. -/
theorem wordImmediateResults : Obligations.WordImmediateResults := by
  intro h rd rs1 imm shamt
  rw [← lowWord_eq_slice, ← lowWord_eq_slice]
  exact ⟨word32_of_encode rfl rfl, computes_of_whenLegal rfl rfl, word32_of_encode rfl rfl, computes_of_whenLegal rfl rfl,
    word32_of_encode rfl rfl, computes_of_whenLegal rfl rfl, word32_of_encode rfl rfl, computes_of_whenLegal rfl rfl,
    fun _ => ⟨fun h0 => noWord32_of_decode32 (decode32_encR_slliw h0),
      fun h0 h1 => noWord32_of_decode32 (decode32_encR_srliw_sraiw h0 h1)⟩⟩

/-! ### Two register operands (R206 to R210) -/

/-- Settles O30: each word is the encoder's, and each rule writes its result; the amounts are `shiftAmountW`. -/
theorem wordRegisterResults : Obligations.WordRegisterResults := by
  intro h rd rs1 rs2
  rw [← lowWord_eq_slice, ← lowWord_eq_slice, ← lowWord_eq_slice, ← shiftAmountW_eq_mod]
  exact ⟨word32_of_encode rfl rfl, computes_of_whenLegal rfl rfl, word32_of_encode rfl rfl, computes_of_whenLegal rfl rfl,
    word32_of_encode rfl rfl, computes_of_whenLegal rfl rfl, word32_of_encode rfl rfl, computes_of_whenLegal rfl rfl,
    word32_of_encode rfl rfl, computes_of_whenLegal rfl rfl⟩

/-! ### What a W instruction depends on (R200) -/

/-- The 32-bit operation of a W instruction on the low words of its operands; of what is no W instruction, 0. -/
def wordOp (i : Instr) (a b : BitVec 32) : BitVec 32 :=
  match i with
  | .addiw _ _ imm => a + lowWord (imm12 .rv64i imm)
  | .slliw _ _ shamt => a <<< shamt.toNat
  | .srliw _ _ shamt => a >>> shamt.toNat
  | .sraiw _ _ shamt => a.sshiftRight shamt.toNat
  | .addw .. => a + b
  | .subw .. => a - b
  | .sllw .. => a <<< (b.toNat % 32)
  | .srlw .. => a >>> (b.toNat % 32)
  | .sraw .. => a.sshiftRight (b.toNat % 32)
  | _ => 0

/-- A W instruction computes its 32-bit operation on the low words, sign-extended: sum and difference are taken modulo 2^32,
and a shift amount lies in the low word. -/
theorem computes_wordOp {i : Instr} {rd rs1 rs2 : RegNum} (hi : wOperands i = some (rd, rs1, rs2)) (h : Hart .rv64i) :
    Computes h i 4 rd (wordResult .rv64i (wordOp i (lowWord (h.x rs1)) (lowWord (h.x rs2)))) := by
  cases i with
  | addiw | addw =>
    cases hi
    rw [wordOp, ← lowWord_add]
    exact computes_of_whenLegal rfl rfl
  | subw =>
    cases hi
    rw [wordOp, ← lowWord_sub]
    exact computes_of_whenLegal rfl rfl
  | slliw | srliw | sraiw =>
    cases hi
    exact computes_of_whenLegal rfl rfl
  | sllw | srlw | sraw =>
    cases hi
    rw [wordOp, ← shiftAmountW_eq_lowWord_mod]
    exact computes_of_whenLegal rfl rfl
  | _ => cases hi

/-- Settles O31: the value is the operation on the low words, which the two harts share, sign-extended. -/
theorem wordResultsSignedAndLowOnly : Obligations.WordResultsSignedAndLowOnly := by
  intro h g i rd rs1 rs2 hi h1 h2
  rw [← lowWord_eq_slice, ← lowWord_eq_slice] at h1 h2
  refine ⟨_, computes_wordOp hi h, ?shared, fun k hlo hhi => ?sign⟩
  case shared =>
    rw [h1, h2]
    exact computes_wordOp hi g
  case sign => rw [getLsbD_wordResult _ hlo hhi, getLsbD_wordResult _ (by decide) le_rfl]

end Sys2Proof.Machine
end

section
/-! SUPPORT. Proofs for spec/45_compressed.md: the words, results, traps and frames of the sixteen-bit instructions (R223 to
R262), and that each one is its base instruction with length two (R220, R221). -/

namespace Sys2Proof.Machine

open Sys2Proof.Claims

variable {c : Isa} {h : Hart c}

/-! ### Words -/

/-- A well-formed sixteen-bit instruction is what its word decodes to. -/
theorem word16_of_encode {w : Parcel} {i : Instr} (hw : i.wf c = true) (he : encode i = .short w) : Word16 c w i := by
  rw [Word16, ← he]
  exact decode_encode hw

/-! ### Computational instructions (R223, R226 to R238, R246, R249, R260) -/

/-- Settles O44: each word is the encoder's, and each rule writes x2 plus the scaled immediate. -/
theorem compressedStackPointerResults : Obligations.CompressedStackPointerResults := by
  intro h rd' u n
  refine ⟨fun hu => ?addi4spn, fun hn => ?addi16sp⟩
  case addi4spn =>
    have hw : decide (u ≠ 0) = true := decide_eq_true hu
    exact ⟨word16_of_encode hw rfl, computes_of_whenLegal hw rfl⟩
  case addi16sp =>
    have hw : decide (n ≠ 0) = true := decide_eq_true hn
    exact ⟨word16_of_encode hw rfl, computes_of_whenLegal hw rfl⟩

/-- Settles O45: each word is the encoder's, and each rule writes its result; c.nop writes x0, and c.li adds to x0. -/
theorem compressedImmediateResults : Obligations.CompressedImmediateResults := by
  intro h rd rd' imm
  refine ⟨word16_of_encode rfl rfl, computes_of_whenLegal rfl rfl, fun hd => ?addi, word16_of_encode rfl rfl, ?li,
    fun hd hz => ?lui, word16_of_encode rfl rfl, computes_of_whenLegal rfl rfl⟩
  case addi =>
    have hw : decide (rd ≠ 0) = true := decide_eq_true hd
    exact ⟨word16_of_encode hw rfl, computes_of_whenLegal hw rfl⟩
  case li =>
    rw [← BitVec.zero_add (imm.signExtend 32)]
    exact computes_of_whenLegal rfl rfl
  case lui =>
    have hw : decide (rd ≠ 2 ∧ imm ≠ 0) = true := decide_eq_true ⟨hd, hz⟩
    exact ⟨word16_of_encode hw rfl, computes_of_whenLegal hw rfl⟩

/-- A six-bit shift amount below 32 is its low five bits. -/
theorem toNat_zero_cat (sh : BitVec 5) : (0#1 ++ sh).toNat = sh.toNat := (toNat_cat 0#1 sh).trans (Nat.zero_add _)

theorem extractLsb_high_zero_cat (sh : BitVec 5) : (0#1 ++ sh).extractLsb 5 5 = 0#1 := slice_high _ _ 5 1 le_rfl

theorem extractLsb_low_zero_cat (sh : BitVec 5) : (0#1 ++ sh).extractLsb 4 0 = sh :=
  (slice_low _ _ 0 5 le_rfl).trans (slice_all sh)

/-- The amount's bit 5 stands in inst[12], its low bits in inst[6:2] (R87). -/
theorem encCI_shamt (f3 : BitVec 3) (sh : BitVec 5) (rd : RegNum) (op : BitVec 2) :
    encCI f3 (0#1 ++ sh) rd op = f3 ++ 0#1 ++ rd ++ sh ++ op := by
  rw [encCI, extractLsb_high_zero_cat, extractLsb_low_zero_cat]

/-- The same in the rows of quadrant 01 with a shift amount (R92). -/
theorem encCBImm_shamt (f2 : BitVec 2) (sh : BitVec 5) (rd' : RegNum3) :
    encCBImm f2 (0#1 ++ sh) rd' = 0b100#3 ++ 0#1 ++ f2 ++ rd' ++ sh ++ 0b01#2 := by
  rw [encCBImm, extractLsb_high_zero_cat, extractLsb_low_zero_cat]

/-- Settles O46: an amount below 32 makes the shifts well-formed; each word is the encoder's, and each rule shifts by the
amount, c.slli64 by 0. -/
theorem compressedShiftResults : Obligations.CompressedShiftResults := by
  intro h rd rd' sh shamt
  have hlt : shamt.toNat < 32 := (toNat_zero_cat sh).trans_lt sh.isLt
  have hw : decide (shamt.toNat < 32) = true := decide_eq_true hlt
  rw [← toNat_zero_cat sh, ← encCBImm_shamt, ← encCBImm_shamt]
  refine ⟨word16_of_encode hw rfl, computes_of_whenLegal hw rfl, word16_of_encode hw rfl, computes_of_whenLegal hw rfl,
    fun hz => ?slli, word16_of_encode rfl rfl, ?slli64⟩
  case slli =>
    have hne : shamt ≠ 0 := by
      intro e
      have hsh : sh.toNat = 0 := (toNat_zero_cat sh).symm.trans (congrArg BitVec.toNat e)
      exact hz (BitVec.eq_of_toNat_eq hsh)
    have hw : decide (shamt.toNat < 32 ∧ shamt ≠ 0) = true := decide_eq_true ⟨hlt, hne⟩
    rw [← encCI_shamt]
    exact ⟨word16_of_encode hw rfl, computes_of_whenLegal hw rfl⟩
  case slli64 =>
    have hz : h.x rd <<< 0 = h.x rd := BitVec.shiftLeft_zero _
    exact hz ▸ computes_of_whenLegal (v := h.x rd <<< 0) rfl rfl

/-- Settles O47: each word is the encoder's, and each rule writes its result; c.mv adds to x0. -/
theorem compressedRegisterResults : Obligations.CompressedRegisterResults := by
  intro h rd rs2 rd' rs2'
  refine ⟨word16_of_encode rfl rfl, computes_of_whenLegal rfl rfl, word16_of_encode rfl rfl, computes_of_whenLegal rfl rfl,
    word16_of_encode rfl rfl, computes_of_whenLegal rfl rfl, word16_of_encode rfl rfl, computes_of_whenLegal rfl rfl,
    fun hr => ?mvAdd⟩
  have hw : decide (rs2 ≠ 0) = true := decide_eq_true hr
  have hz : 0 + h.x rs2 = h.x rs2 := BitVec.zero_add _
  exact ⟨word16_of_encode hw rfl, hz ▸ computes_of_whenLegal (v := 0 + h.x rs2) hw rfl, word16_of_encode hw rfl,
    computes_of_whenLegal hw rfl⟩

/-! ### Loads and stores (R224, R225, R247, R261) -/

/-- Four bytes are the whole register with XLEN = 32, so the extension of a word is none. -/
theorem signed_rv32ic : (signed .rv32ic : BitVec (8 * 4) → BitVec (Isa.xlen .rv32ic)) = fun w => w :=
  funext BitVec.signExtend_eq

/-- Settles O48: each word is the encoder's, and each rule is `loadInto` with no extension. -/
theorem compressedLoads : Obligations.CompressedLoads := by
  intro h rd rd' rs1' u v
  rw [← signed_rv32ic]
  refine ⟨word16_of_encode rfl rfl, loads_of_whenLegal rfl rfl, fun hd => ?lwsp⟩
  have hw : decide (rd ≠ 0) = true := decide_eq_true hd
  exact ⟨word16_of_encode hw rfl, loads_of_whenLegal hw rfl⟩

/-- Settles O49: each word is the encoder's, and each rule is `storeFrom`. -/
theorem compressedStores : Obligations.CompressedStores := fun _ _ _ _ _ _ =>
  ⟨word16_of_encode rfl rfl, stores_of_whenLegal rfl rfl, word16_of_encode rfl rfl, stores_of_whenLegal rfl rfl⟩

/-! ### Jumps and branches (R228, R239 to R241, R248, R259) -/

theorem jumps_of_whenLegal {i : Instr} {ilen : Nat} {rd : RegNum} {t : BitVec c.xlen} (hw : i.wf c = true)
    (hi : exec i (at' h) = andThen (whenLegal h i (jumpAndLink h ilen rd t)) fun h' => .next (at' h')) :
    Jumps h i ilen rd t :=
  jumps_of_jumpAndLink (hi.trans (by rw [whenLegal_wf hw]))

theorem branches_of_whenLegal {i : Instr} {ilen : Nat} {taken : Bool} {P : Prop} {t : BitVec c.xlen}
    (hw : i.wf c = true) (hP : taken = true ↔ P)
    (hi : exec i (at' h) = andThen (whenLegal h i (branchTo h ilen taken t)) fun h' => .next (at' h')) :
    Branches h i ilen P t :=
  branches_of_branchTo hP (hi.trans (by rw [whenLegal_wf hw]))

/-- With IALIGN = 16 the target of an offset from an even pc is aligned: the offset's bit 0 is not encoded (R152). -/
theorem aligned_pcRelative {h : Hart .rv32ic} {m : Nat} (hpc : h.pc.toNat % 2 = 0) (imm : BitVec m) :
    (h.pc + (imm ++ 0#1).signExtend 32).toNat % 2 = 0 :=
  evenAddr_iff_toNat.1 (evenAddr_add (evenAddr_iff_toNat.2 hpc) (evenAddr_offset imm))

/-- c.jr and c.jalr jump to their register with bit 0 cleared: they have no offset. -/
theorem indirectTarget_zero (rs1 : RegNum) : indirectTarget h rs1 0 = h.x rs1 &&& ~~~1 := by
  rw [indirectTarget]
  exact congrArg (· &&& ~~~1) (BitVec.add_zero _)

/-- Settles O50: each word is the encoder's, and each rule is `jumpAndLink` to a target that is even, so it completes. -/
theorem compressedJumps : Obligations.CompressedJumps := by
  intro h rs1 j hpc
  have hrel := aligned_pcRelative hpc j
  have hind : (indirectTarget h rs1 0).toNat % 2 = 0 := evenAddr_iff_toNat.1 (evenAddr_indirectTarget rs1 0)
  rw [← indirectTarget_zero]
  refine ⟨word16_of_encode rfl rfl, (jumps_of_whenLegal rfl rfl).1 hrel,
    word16_of_encode rfl rfl, (jumps_of_whenLegal rfl rfl).1 hrel, fun hr => ?register⟩
  have hjr : Instr.wf .rv32ic (.cJr rs1) = true := decide_eq_true hr
  have hjalr : Instr.wf .rv32ic (.cJalr rs1) = true := decide_eq_true hr
  exact ⟨word16_of_encode hjr rfl, (jumps_of_whenLegal hjr rfl).1 hind,
    word16_of_encode hjalr rfl, (jumps_of_whenLegal hjalr rfl).1 hind⟩

/-- A branch to an aligned target completes: at the target where it is taken, else after itself. -/
theorem completes_of_branches {i : Instr} {ilen : Nat} {P : Prop} [Decidable P] {t : BitVec c.xlen}
    (hb : Branches h i ilen P t) (ht : t.toNat % c.instrAlign = 0) :
    ∃ h' : Hart c, exec i (at' h) = .next (at' h') ∧ (∀ r, h'.x r = h.x r) ∧
      h'.pc = (if P then t else h.pc + BitVec.ofNat c.xlen ilen) ∧ SameMemory h h' := by
  obtain ⟨hnot, htaken, -⟩ := hb
  split
  · next hp => exact htaken hp ht
  · next hp => exact hnot hp

/-- Settles O51: each word is the encoder's, and each rule is `branchTo` with its condition to an aligned target. -/
theorem compressedBranches : Obligations.CompressedBranches := by
  intro h rs1' b hpc
  have hrel := aligned_pcRelative hpc b
  exact ⟨word16_of_encode rfl rfl, completes_of_branches (branches_of_whenLegal rfl BranchCond.eq_holds rfl) hrel,
    word16_of_encode rfl rfl, completes_of_branches (branches_of_whenLegal rfl BranchCond.ne_holds rfl) hrel⟩

/-! ### The floating-point rows (R262) -/

/-- Settles O52: the rows are well-formed whatever their fields, and their rules only raise. -/
theorem floatingPointRowsIllegal : Obligations.FloatingPointRowsIllegal := by
  intro h i hi
  cases i with
  | cFld | cFlw | cFsd | cFsw | cFldsp | cFlwsp | cFsdsp | cFswsp => exact ⟨decode_encode rfl, rfl⟩
  | _ => exact Bool.noConfusion hi

/-! ### Immediates of the expansions (R263) -/

theorem signExtend_signExtend {w m n : Nat} (hm : w ≤ m) (hn : m ≤ n) (x : BitVec w) :
    (x.signExtend m).signExtend n = x.signExtend n := by
  rw [← BitVec.toInt_inj, BitVec.toInt_signExtend_of_le hn, BitVec.toInt_signExtend_of_le hm,
    BitVec.toInt_signExtend_of_le (hm.trans hn)]

/-- Bits that are not encoded come below the extension either way. -/
theorem signExtend_cat_zero {w m k n : Nat} (hm : w ≤ m) (hn : m + k ≤ n) (x : BitVec w) :
    (x.signExtend m ++ 0#k).signExtend n = (x ++ 0#k).signExtend n := by
  rw [← BitVec.toInt_inj, BitVec.toInt_signExtend_of_le hn, BitVec.toInt_append_zero, BitVec.toInt_signExtend_of_le hm,
    BitVec.toInt_signExtend_of_le ((Nat.add_le_add_right hm k).trans hn), BitVec.toInt_append_zero]

/-- An immediate that leaves the sign bit of the wider field clear. -/
theorem signExtend_zeroExtend {w m n : Nat} (hm : w < m) (x : BitVec w) :
    (x.zeroExtend m).signExtend n = x.zeroExtend n := by
  have hmsb : (x.zeroExtend m).msb = false := by
    rw [BitVec.msb_setWidth, BitVec.getLsbD_of_ge x _ (by omega), Bool.and_false]
  rw [BitVec.signExtend_eq_setWidth_of_msb_false hmsb]
  exact BitVec.setWidth_setWidth (by omega)

theorem imm12_cImm6 (imm : BitVec 6) : imm12 .rv32ic (imm.signExtend 12) = cImm6 .rv32ic imm :=
  signExtend_signExtend (by decide) (by decide) imm

theorem imm12_cAddi16spImm (n : BitVec 6) : imm12 .rv32ic ((n ++ 0#4).signExtend 12) = cAddi16spImm .rv32ic n :=
  signExtend_signExtend (by decide) (by decide) (n ++ 0#4)

theorem imm12_cAddi4spnImm (u : BitVec 8) : imm12 .rv32ic ((u ++ 0#2).zeroExtend 12) = cAddi4spnImm .rv32ic u :=
  signExtend_zeroExtend (by decide) (u ++ 0#2)

theorem imm12_cWordOff (u : BitVec 5) : imm12 .rv32ic ((u ++ 0#2).zeroExtend 12) = cWordOff .rv32ic u :=
  signExtend_zeroExtend (by decide) (u ++ 0#2)

theorem imm12_cSpOff (u : BitVec 6) : imm12 .rv32ic ((u ++ 0#2).zeroExtend 12) = cSpOff .rv32ic u :=
  signExtend_zeroExtend (by decide) (u ++ 0#2)

theorem immU_cLuiImm (n : BitVec 6) : immU .rv32ic (n.signExtend 20) = cLuiImm .rv32ic n :=
  signExtend_cat_zero (by decide) (by decide) n

theorem immJ_cJumpOff (j : BitVec 11) : immJ .rv32ic (j.signExtend 20) = cJumpOff .rv32ic j :=
  signExtend_cat_zero (by decide) (by decide) j

theorem immB_cBranchOff (b : BitVec 8) : immB .rv32ic (b.signExtend 12) = cBranchOff .rv32ic b :=
  signExtend_cat_zero (by decide) (by decide) b

/-! ### Length two (R220, R221) -/

theorem Hart.setX_setX (rd : RegNum) (v w : BitVec c.xlen) : (h.setX rd v).setX rd w = h.setX rd w := by
  refine Hart.ext_x (fun r => ?_) (by simp) (by simp) (by simp) (by simp)
  simp only [Hart.x_setX]
  split <;> rfl

/-- What the base rule `r` does, the rule `r'` does with length two: the same fault, or the same hart but for the link and
the sequential pc. -/
def IsWithLengthTwo (h : Hart c) (base : Instr) (r r' : HartResult c) : Prop :=
  (∀ e, r = .fault e → r' = .fault e) ∧ ∀ t, r = .next t → r' = .next (withLengthTwo h base t)

/-- A base instruction without a link, whose next address is always the sequential one. -/
def IsSequential (h : Hart c) (base : Instr) : Prop := ∀ t, withLengthTwo h base t = t.setPc (h.nextPc 2)

theorem isWithLengthTwo_writeReg {base : Instr} {rd : RegNum} {v w : BitVec c.xlen} (hb : IsSequential h base)
    (hv : v = w) : IsWithLengthTwo h base (writeReg h 4 rd v) (writeReg h 2 rd w) := by
  subst hv
  refine ⟨nofun, fun t ht => ?_⟩
  obtain rfl := writeReg_eq_next.1 ht
  rw [hb, writeReg_eq_next, Hart.advance, Hart.advance, Hart.setPc_setPc, Hart.setX_nextPc]

theorem isWithLengthTwo_loadInto {base : Instr} {rd : RegNum} {a b : BitVec c.xlen} {n : Nat}
    {ext : BitVec (8 * n) → BitVec c.xlen} (hb : IsSequential h base) (ha : a = b) :
    IsWithLengthTwo h base (loadInto h 4 rd a n ext) (loadInto h 2 rd b n ext) := by
  subst ha
  refine ⟨fun e he => loadInto_eq_fault.2 (loadInto_eq_fault.1 he), fun t ht => ?_⟩
  obtain ⟨v, halign, hperm, hread, rfl⟩ := loadInto_eq_next.1 ht
  refine loadInto_eq_next.2 ⟨v, halign, hperm, hread, ?_⟩
  rw [hb, Hart.advance, Hart.advance, Hart.setPc_setPc, Hart.setX_nextPc]

theorem isWithLengthTwo_storeFrom {base : Instr} {a b : BitVec c.xlen} {n : Nat} {v : BitVec c.xlen}
    (hb : IsSequential h base) (ha : a = b) :
    IsWithLengthTwo h base (storeFrom h 4 a n v) (storeFrom h 2 b n v) := by
  subst ha
  refine ⟨fun e he => storeFrom_eq_fault.2 (storeFrom_eq_fault.1 he), fun t ht => ?_⟩
  obtain ⟨halign, hperm, rfl⟩ := storeFrom_eq_next.1 ht
  exact storeFrom_eq_next.2 ⟨halign, hperm, hb _⟩

theorem isWithLengthTwo_jumpAndLink {base : Instr} {rd : RegNum} {t t' : BitVec c.xlen}
    (hb : ∀ g, withLengthTwo h base g = g.setX rd (h.nextPc 2)) (ht : t = t') :
    IsWithLengthTwo h base (jumpAndLink h 4 rd t) (jumpAndLink h 2 rd t') := by
  subst ht
  refine ⟨fun e he => jumpAndLink_eq_fault.2 (jumpAndLink_eq_fault.1 he), fun g hg => ?_⟩
  obtain ⟨halign, rfl⟩ := jumpAndLink_eq_next.1 hg
  refine jumpAndLink_eq_next.2 ⟨halign, ?_⟩
  rw [hb, ← Hart.setX_setPc, Hart.setX_setX]

theorem isWithLengthTwo_branchTo {base : Instr} {taken : Bool} {t t' : BitVec c.xlen}
    (hb : ∀ g, withLengthTwo h base g = if taken then g else g.setPc (h.nextPc 2)) (ht : t = t') :
    IsWithLengthTwo h base (branchTo h 4 taken t) (branchTo h 2 taken t') := by
  subst ht
  refine ⟨fun e he => branchTo_eq_fault.2 (branchTo_eq_fault.1 he), fun g hg => ?_⟩
  rcases branchTo_eq_next.1 hg with ⟨hnot, rfl⟩ | ⟨htaken, halign, rfl⟩
  · exact branchTo_eq_next.2 (.inl ⟨hnot, by rw [hb, hnot]; rfl⟩)
  · exact branchTo_eq_next.2 (.inr ⟨htaken, halign, by rw [hb, htaken]; rfl⟩)

theorem withLengthTwo_beq (rs1 rs2 : RegNum) (imm : BitVec 12) (t : Hart c) :
    withLengthTwo h (.beq rs1 rs2 imm) t =
      if BranchCond.eq.holds (h.x rs1) (h.x rs2) then t else t.setPc (h.nextPc 2) := by
  simp [withLengthTwo, BranchCond.eq_holds]

theorem withLengthTwo_bne (rs1 rs2 : RegNum) (imm : BitVec 12) (t : Hart c) :
    withLengthTwo h (.bne rs1 rs2 imm) t =
      if BranchCond.ne.holds (h.x rs1) (h.x rs2) then t else t.setPc (h.nextPc 2) := by
  simp [withLengthTwo, BranchCond.ne_holds]

theorem isWithLengthTwo_raise {base : Instr} {cause : Cause} {tval : BitVec c.xlen} :
    IsWithLengthTwo h base (raise h cause tval) (raise h cause tval) := ⟨fun _ he => he, nofun⟩

/-- A base instruction that the configuration has may check so first. -/
theorem isWithLengthTwo_whenLegal {base : Instr} {r r' : HartResult c} (hw : base.wf c = true)
    (hr : IsWithLengthTwo h base r r') : IsWithLengthTwo h base (whenLegal h base r) r' := by
  rwa [whenLegal_wf hw]

/-- A sixteen-bit instruction whose rule is the base instruction's with length two is its base instruction with length
two. -/
theorem exec_withLengthTwo {i base : Instr} {r r' : HartResult c} (hw : i.wf c = true)
    (hbase : exec base (at' h) = andThen r fun h' => .next (at' h'))
    (hi : exec i (at' h) = andThen (whenLegal h i r') fun h' => .next (at' h')) (hr : IsWithLengthTwo h base r r') :
    (∀ e, exec base (at' h) = .fault e → exec i (at' h) = .fault e) ∧
    (∀ t : Hart c, exec base (at' h) = .next (at' t) → exec i (at' h) = .next (at' (withLengthTwo h base t))) := by
  rw [whenLegal_wf hw] at hi
  refine ⟨fun e he => ?fault, fun t ht => ?next⟩
  case fault =>
    rcases andThen_eq_fault.1 (hbase.symm.trans he) with he | ⟨_, -, ⟨⟩⟩
    rw [hi, hr.1 e he, andThen_fault]
  case next =>
    obtain ⟨g, hg, hgt⟩ := andThen_eq_next.1 (hbase.symm.trans ht)
    obtain rfl : g = t := by simpa using hgt
    exact hi.trans (next_of_rule (hr.2 g hg))

/-- Settles O55: the base rule and the sixteen-bit rule are the same shared operation, with the lengths 4 and 2, and the
immediates of both have one value. -/
theorem compressedIsItsExpansion : Obligations.CompressedIsItsExpansion := by
  intro h i base hw hexp
  cases i with
  | cSub | cXor | cOr | cAnd | cMv | cAdd =>
    cases hexp
    exact exec_withLengthTwo hw rfl rfl (isWithLengthTwo_writeReg (fun _ => rfl) rfl)
  | cNop imm | cAddi _ imm | cLi _ imm =>
    cases hexp
    exact exec_withLengthTwo hw rfl rfl (isWithLengthTwo_writeReg (fun _ => rfl) (congrArg (_ + ·) (imm12_cImm6 imm)))
  | cAndi _ imm =>
    cases hexp
    exact exec_withLengthTwo hw rfl rfl (isWithLengthTwo_writeReg (fun _ => rfl) (congrArg (_ &&& ·) (imm12_cImm6 imm)))
  | cAddi4spn _ u =>
    cases hexp
    exact exec_withLengthTwo hw rfl rfl
      (isWithLengthTwo_writeReg (fun _ => rfl) (congrArg (_ + ·) (imm12_cAddi4spnImm u)))
  | cAddi16sp n =>
    cases hexp
    exact exec_withLengthTwo hw rfl rfl
      (isWithLengthTwo_writeReg (fun _ => rfl) (congrArg (_ + ·) (imm12_cAddi16spImm n)))
  | cLui _ n =>
    cases hexp
    exact exec_withLengthTwo hw rfl rfl (isWithLengthTwo_writeReg (fun _ => rfl) (immU_cLuiImm n))
  | cSrli | cSrai =>
    cases hexp
    exact exec_withLengthTwo hw rfl rfl (isWithLengthTwo_whenLegal hw (isWithLengthTwo_writeReg (fun _ => rfl) rfl))
  | cSlli _ shamt =>
    cases hexp
    have hlt : decide (shamt.toNat < 32) = true := decide_eq_true (of_decide_eq_true hw).1
    exact exec_withLengthTwo hw rfl rfl (isWithLengthTwo_whenLegal hlt (isWithLengthTwo_writeReg (fun _ => rfl) rfl))
  | cSlli64 =>
    cases hexp
    exact exec_withLengthTwo hw rfl rfl (isWithLengthTwo_whenLegal rfl (isWithLengthTwo_writeReg (fun _ => rfl) rfl))
  | cLw _ _ u =>
    cases hexp
    exact exec_withLengthTwo hw rfl rfl (isWithLengthTwo_loadInto (fun _ => rfl) (congrArg (_ + ·) (imm12_cWordOff u)))
  | cLwsp _ u =>
    cases hexp
    exact exec_withLengthTwo hw rfl rfl (isWithLengthTwo_loadInto (fun _ => rfl) (congrArg (_ + ·) (imm12_cSpOff u)))
  | cSw _ _ u =>
    cases hexp
    exact exec_withLengthTwo hw rfl rfl (isWithLengthTwo_storeFrom (fun _ => rfl) (congrArg (_ + ·) (imm12_cWordOff u)))
  | cSwsp _ u =>
    cases hexp
    exact exec_withLengthTwo hw rfl rfl (isWithLengthTwo_storeFrom (fun _ => rfl) (congrArg (_ + ·) (imm12_cSpOff u)))
  | cJal j | cJ j =>
    cases hexp
    exact exec_withLengthTwo hw rfl rfl
      (isWithLengthTwo_jumpAndLink (fun _ => rfl) (congrArg (_ + ·) (immJ_cJumpOff j)))
  | cJr | cJalr =>
    cases hexp
    exact exec_withLengthTwo hw rfl rfl (isWithLengthTwo_jumpAndLink (fun _ => rfl) rfl)
  | cBeqz _ b =>
    cases hexp
    exact exec_withLengthTwo hw rfl rfl
      (isWithLengthTwo_branchTo (withLengthTwo_beq _ _ _) (congrArg (_ + ·) (immB_cBranchOff b)))
  | cBnez _ b =>
    cases hexp
    exact exec_withLengthTwo hw rfl rfl
      (isWithLengthTwo_branchTo (withLengthTwo_bne _ _ _) (congrArg (_ + ·) (immB_cBranchOff b)))
  | cEbreak =>
    cases hexp
    exact exec_withLengthTwo hw rfl rfl isWithLengthTwo_raise
  | _ => cases hexp

end Sys2Proof.Machine
end

section
/-! SUPPORT. Proofs for spec/60_exceptions.md: what stops a fetch and a step (R281, R286, R288), precise traps and the
environment that resumes after one (R290, R291), illegal bits (R282), what no step changes (R297), and the machine that
always completes or traps (spec/20_memory.md R58, spec/10_state.md R36). -/

namespace Sys2Proof.Machine

open Sys2Proof.Claims

variable {c : Isa} {h h' : Hart c}

/-! ### What stops a fetch (R281, R286, 20_memory R47) -/

/-- A fetch stops at a misaligned pc, at its first parcel, or at the second parcel of a 32-bit instruction. -/
theorem fetch_eq_fault {e : Fault} :
    fetch h = .fault e ↔
      (misalignedTarget c h.pc = true ∧ e = .trap (trapOf h .instructionAddressMisaligned h.pc)) ∨
      (misalignedTarget c h.pc = false ∧ (fetchParcel h h.pc.toNat = .fault e ∨
        ∃ p0, fetchParcel h h.pc.toNat = .next p0 ∧ isLong p0 = true ∧ fetchParcel h (h.pc.toNat + 2) = .fault e)) := by
  unfold fetch
  cases hm : misalignedTarget c h.pc with
  | true => simp [raise_eq, @eq_comm _ e]
  | false =>
    simp only [Bool.false_eq_true, if_false, false_and, false_or, true_and, andThen_eq_fault]
    refine or_congr_right (exists_congr fun p0 => and_congr_right fun _ => ?_)
    cases isLong p0 <;> simp [andThen_eq_fault]

/-- Where execution is not permitted a parcel is not fetched, and its address is recorded (R286). -/
theorem fetchParcel_not_permitted {a : Nat} (hp : permitted c h.memMap .execute a 2 = false) :
    fetchParcel h a = .fault (.trap (trapOf h .instructionAccessFault (BitVec.ofNat c.xlen a))) := by
  rw [fetchParcel, if_neg (Bool.eq_false_iff.1 hp), raise_eq]

/-- A parcel that is not fetched raises InstructionAccessFault or holds an undefined byte that may be executed. -/
theorem fetchParcel_fault_cases {a : Nat} {e : Fault} (he : fetchParcel h a = .fault e) :
    (∃ tval, e = .trap (trapOf h .instructionAccessFault tval)) ∨
      ∃ k, e = .undefinedByte k ∧ h.byteAt k = none ∧ permitted c h.memMap .execute k 1 = true := by
  rcases fetchParcel_eq_fault he with ⟨-, rfl⟩ | ⟨hp, k, rfl | rfl, hk, rfl⟩
  · exact .inl ⟨_, rfl⟩
  · exact .inr ⟨k, rfl, hk, permitted_byte hp Nat.zero_lt_two⟩
  · exact .inr ⟨a + 1, rfl, hk, permitted_byte hp Nat.one_lt_two⟩

/-- A fetch that stops does so at a misaligned pc, or as one of its parcels does. -/
theorem fetch_fault_cases {e : Fault} (he : fetch h = .fault e) :
    (misalignedTarget c h.pc = true ∧ e = .trap (trapOf h .instructionAddressMisaligned h.pc)) ∨
    (∃ tval, e = .trap (trapOf h .instructionAccessFault tval)) ∨
    ∃ k, e = .undefinedByte k ∧ h.byteAt k = none ∧ permitted c h.memMap .execute k 1 = true := by
  rcases fetch_eq_fault.1 he with hm | ⟨-, h0 | ⟨p0, -, -, h1⟩⟩
  · exact .inl hm
  · exact .inr (fetchParcel_fault_cases h0)
  · exact .inr (fetchParcel_fault_cases h1)

/-- Settles O9: by the invariant the pc is aligned, so the trap is one of a parcel's. -/
theorem fetchNeverMisaligned : Obligations.FetchNeverMisaligned := by
  intro c h t hi ht
  rcases fetch_fault_cases ht with ⟨hm, -⟩ | ⟨tval, he⟩ | ⟨k, he, -⟩
  · simp [hi.pcAligned] at hm
  · cases he
    rfl
  · cases he

theorem step_fault_of_fetch {s : State} {e : Fault} (he : fetch s.hart = .fault e) : step s = .fault e := by
  rw [step_eq, he, andThen_fault]

/-- The parcel that would follow the last one of the address space is past the top (20_memory R53). -/
theorem not_permitted_past_top {m : MemMap} {k : Access} {a n : Nat} (ha : 2 ^ c.xlen < a + n) :
    permitted c m k a n = false := by
  rw [← Bool.not_eq_true]
  intro hp
  have := permitted_inside hp
  omega

/-- The address two on, as fetch records it, wraps at the top (20_memory R53). -/
theorem ofNat_toNat_add_two (p : BitVec c.xlen) : BitVec.ofNat c.xlen (p.toNat + 2) = p + 2 := by
  rw [BitVec.ofNat_add, BitVec.ofNat_toNat, BitVec.setWidth_eq]
  rfl

/-- Settles O16: a parcel that may not be executed is not fetched, and the fetch and the step stop with it. -/
theorem fetchAccessFaults : Obligations.FetchAccessFaults := by
  intro c h hpc
  have halign : misalignedTarget c h.pc = false := misalignedTarget_eq_false.2 hpc
  refine ⟨fun hp => ?first, fun p hfetch hl hp => ?second, fun htop => ?top⟩
  case first =>
    have hstop := fetchParcel_not_permitted hp
    rw [BitVec.ofNat_toNat, BitVec.setWidth_eq] at hstop
    exact step_fault_of_fetch (fetch_eq_fault.2 (.inr ⟨halign, .inl hstop⟩))
  case second =>
    have hstop := fetchParcel_not_permitted hp
    rw [ofNat_toNat_add_two] at hstop
    exact step_fault_of_fetch (fetch_eq_fault.2 (.inr ⟨halign, .inr ⟨p, hfetch, hl, hstop⟩⟩))
  case top =>
    have hle : 2 ≤ 2 ^ c.xlen := by cases c <;> decide
    refine ⟨not_permitted_past_top (by omega), ?_⟩
    rw [← ofNat_toNat_add_two, htop, Nat.sub_add_cancel hle]
    exact BitVec.eq_of_toNat_eq (by rw [BitVec.toNat_ofNat, Nat.mod_self]; rfl)

/-! ### What stops a step (R288, R291) -/

/-- A fetched word that does not run to a next state raises on the unchanged state, or reads an undefined byte. -/
theorem runWord_fault_cases {w : InstrWord} {e : Fault} (he : runWord (at' h) w = .fault e) :
    (∃ cause tval, e = .trap (trapOf h cause tval)) ∨
      ∃ a, e = .undefinedByte a ∧ h.byteAt a = none ∧ permitted c h.memMap .read a 1 = true := by
  unfold runWord at he
  split at he
  · exact exec_fault_cases he
  · cases he
    exact .inl ⟨_, _, rfl⟩

/-- A step stops with a trap on the unchanged state, or at an undefined byte that it may read or execute. -/
theorem step_fault_cases {e : Fault} (he : step (at' h) = .fault e) :
    (∃ cause tval, e = .trap (trapOf h cause tval)) ∨
      ∃ a, e = .undefinedByte a ∧ h.byteAt a = none ∧
        (permitted c h.memMap .read a 1 = true ∨ permitted c h.memMap .execute a 1 = true) := by
  rcases andThen_eq_fault.1 he with hf | ⟨w, -, hw⟩
  · rcases fetch_fault_cases hf with ⟨-, rfl⟩ | ⟨tval, rfl⟩ | ⟨a, rfl, ha, hp⟩
    · exact .inl ⟨_, _, rfl⟩
    · exact .inl ⟨_, _, rfl⟩
    · exact .inr ⟨a, rfl, ha, .inr hp⟩
  · exact (runWord_fault_cases hw).imp_right fun ⟨a, ha, hu, hp⟩ => ⟨a, ha, hu, .inl hp⟩

/-- Settles O6: what traps in a step is `raise` on the hart the step began with. -/
theorem trapsArePrecise : Obligations.TrapsArePrecise := by
  rintro ⟨c, h⟩ t ht
  rcases step_fault_cases ht with ⟨cause, tval, he⟩ | ⟨a, he, -⟩ <;> cases he
  exact ⟨cause, tval, rfl⟩

/-! ### Illegal bits (R282) -/

/-- Settles O14: a rejected word is no instruction, so the step raises the exception with its bits. -/
theorem illegalBitsTrap : Obligations.IllegalBitsTrap := fun _ _ _ _ hf hd =>
  stepIllegal_of_decode hf fun _ hi => nomatch hd.symm.trans hi

/-- An instruction whose word is a parcel is a sixteen-bit one. -/
theorem family_of_encode_short {i : Instr} {p : Parcel} (he : encode i = .short p) : i.family = .compressed := by
  cases i with
  | cIllegal | cAddi4spn | cFld | cLw | cFlw | cFsd | cSw | cFsw | cNop | cAddi | cJal | cLi | cAddi16sp | cLui | cSrli
    | cSrai | cAndi | cSub | cXor | cOr | cAnd | cJ | cBeqz | cBnez | cSlli64 | cSlli | cFldsp | cLwsp | cFlwsp | cJr | cMv
    | cEbreak | cJalr | cAdd | cFsdsp | cSwsp | cFswsp => rfl
  | _ => cases he

/-- A parcel is an instruction with EXT_C only (30_encoding R70). -/
theorem extC_of_decode_short {p : Parcel} {i : Instr} (hd : decode c (.short p) = .ok i) : c.extC = true := by
  obtain ⟨hrow, hw⟩ := decode_eq_ok.1 hd
  exact extC_of_wf (family_of_encode_short (encode_of_decode16 hrow)) hw

/-- Settles O15: the parcel is fetched, and only EXT_C would make it an instruction. -/
theorem shortParcelIllegalWithoutCompressed : Obligations.ShortParcelIllegalWithoutCompressed := by
  intro c h p hc hl hat
  refine stepIllegal_of_decode (fetch_of_atPc_short hat hl) fun i hd => ?_
  simp [extC_of_decode_short hd] at hc

/-- RV64I has its own rows, whatever their fields. -/
theorem rv64i_wf {i : Instr} (hf : i.family = .rv64) : i.wf .rv64i = true := by
  cases i with
  | lwu | ld | sd | addiw | slliw | srliw | sraiw | addw | subw | sllw | srlw | sraw => rfl
  | _ => cases hf

/-- A row that the configuration does not have (30_encoding R85). -/
theorem decode_eq_notEnabled {w : InstrWord} {i : Instr} (hrow : decodeRow w = some i)
    (hf : i.family.enabled c = false) : decode c w = .error (.notEnabled i) := by
  simp [decode, hrow, hf]

/-- The rule of an RV64I-only instruction first checks that the configuration has it. -/
theorem exec_rv64_whenLegal {i : Instr} (hf : i.family = .rv64) (h : Hart c) :
    ∃ body, exec i (at' h) = andThen (whenLegal h i body) fun h' => .next (at' h') := by
  cases i with
  | lwu | ld | sd | addiw | slliw | srliw | sraiw | addw | subw | sllw | srlw | sraw => exact ⟨_, rfl⟩
  | _ => cases hf

/-- Settles O21: the word matches its row, which XLEN = 32 does not have, and the rule checks for that first. -/
theorem rv64OnlyIllegalOnXlen32 : Obligations.Rv64OnlyIllegalOnXlen32 := by
  intro c h i hc hf
  have hrow : decodeRow (encode i) = some i := (decode_eq_ok.1 (decode_encode (rv64i_wf hf))).1
  have hoff : i.family.enabled c = false := by simp [hf, Family.enabled, hc]
  obtain ⟨body, hexec⟩ := exec_rv64_whenLegal hf h
  exact ⟨decode_eq_notEnabled hrow hoff, traps_of_not_wf (not_wf_of_rv64 hf hc) hexec⟩

/-! ### The environment (R290, R292) -/

section
variable {handle : Trap → Option State} {t : Trap}

@[simp] theorem resume_next (s : State) : resume handle (.next s) = .next s := rfl

theorem resume_trap_of_some {s : State} (ht : handle t = some s) : resume handle (.fault (.trap t)) = .next s := by
  simp [resume, ht]

theorem resume_trap_of_none (ht : handle t = none) : resume handle (.fault (.trap t)) = .fault (.trap t) := by
  simp [resume, ht]

end

/-- The default environment changes no outcome. -/
theorem resume_noHandler (r : Result) : resume noHandler r = r := by
  match r with
  | .next _ | .fault (.trap _) | .fault (.undefinedByte _) | .refused _ => rfl

/-- Settles O7: the environment is asked about traps only, and the default one leaves every outcome as it is. -/
theorem environmentMayResume : Obligations.EnvironmentMayResume := by
  intro handle s
  refine ⟨fun t hn => ?next, fun t s' ht hs => ?resumed, fun t ht hs => ?ended, resume_noHandler _⟩
  case next => rw [stepWith, hn, resume_next]
  case resumed => rw [stepWith, ht, resume_trap_of_some hs]
  case ended => rw [stepWith, ht, resume_trap_of_none hs]

/-! ### What no step changes (R297) -/

/-- A step that completes keeps the configuration and makes one register change or one store. -/
theorem step_next_cases {t : State} (hn : step (at' h) = .next t) :
    ∃ h', t = at' h' ∧ (RegChange h h' ∨ StoreChange h h') := by
  obtain ⟨w, i, -, -, hexec⟩ := step_eq_next.1 hn
  obtain ⟨h', ht, hc⟩ := exec_next_cases hexec
  exact ⟨h', ht, hc.imp_right And.right⟩

/-- Neither change touches the memory map. -/
theorem memMap_of_change (hc : RegChange h h' ∨ StoreChange h h') : h'.memMap = h.memMap := by
  rcases hc with ⟨rd, v, t, rfl, -⟩ | ⟨a, n, v, t, -, rfl, -⟩
  · rw [Hart.setPc_memMap, Hart.setX_memMap]
  · rw [Hart.setPc_memMap, Hart.store_memMap]

/-- Settles O4: a step makes one register change or one store, and neither touches the map. -/
theorem stepKeepsMemMap : Obligations.StepKeepsMemMap := by
  intro c h t hn
  obtain ⟨h', rfl, hc⟩ := step_next_cases hn
  exact ⟨h', rfl, memMap_of_change hc⟩

/-! ### A loaded machine (R290, 10_state R36, 20_memory R58) -/

/-- Neither change undefines a byte. -/
theorem isSome_byteAt_of_change {a : Nat} (hc : RegChange h h' ∨ StoreChange h h')
    (ha : (h.byteAt a).isSome = true) : (h'.byteAt a).isSome = true := by
  rcases hc with hreg | ⟨b, n, v, t, -, rfl, -⟩
  · rwa [(sameMemory_regChange hreg).1 a]
  · rw [Hart.setPc_byteAt, Hart.byteAt, Hart.store_mem, Memory.isSome_read_writeLE, Bool.or_eq_true]
    exact .inr ha

/-- Every byte that may be read or executed keeps a value: the map stays, and no byte is undefined. -/
theorem loaded_of_change (hl : h.Loaded) (hc : RegChange h h' ∨ StoreChange h h') : h'.Loaded := by
  intro a ha
  rw [memMap_of_change hc] at ha
  exact isSome_byteAt_of_change hc (hl a ha)

/-- A loaded machine meets no undefined byte, so what stops it is a trap. -/
theorem step_fault_of_loaded {e : Fault} (hl : h.Loaded) (he : step (at' h) = .fault e) : ∃ t, e = .trap t := by
  rcases step_fault_cases he with ⟨cause, tval, rfl⟩ | ⟨a, -, hu, hp⟩
  · exact ⟨_, rfl⟩
  · simpa [hu] using hl a hp

/-- Settles O12: a refusal is excluded by code apart from data, an undefined byte by `Loaded`; the step's one change keeps
the invariant, the map and the defined bytes. -/
theorem loadedMachineNeverStuck : Obligations.LoadedMachineNeverStuck := by
  rintro ⟨c, h⟩ hi hx hl
  refine ⟨?progress, fun t hn => ?preservation⟩
  case progress =>
    cases hr : step (at' h) with
    | next t => trivial
    | fault e =>
      obtain ⟨t, rfl⟩ := step_fault_of_loaded hl hr
      trivial
    | refused r => exact absurd hr (writeXorExecuteNeverRefused _ r hi hx)
  case preservation =>
    have hinv := stepKeepsInvariant _ t hi hn
    obtain ⟨h', rfl, hc⟩ := step_next_cases hn
    refine ⟨hinv, ?_, loaded_of_change hl hc⟩
    rwa [memMap_of_change hc]

end Sys2Proof.Machine
end

section
/-! SUPPORT. Proofs for spec/70_reset_and_hazards.md: what a launch and the state after reset hold (R320, R321), and the
multicycle machine against `step` (R330 to R333). -/

namespace Sys2Proof.Machine

open Sys2Proof.Claims

variable {c : Isa} {h : Hart c}

/-! ### Launch and reset (R320, R321) -/

theorem Hart.x_of_ne_zero {r : RegNum} (hr : r ≠ 0) : h.x r = h.regs[regIndex r hr] := dif_neg hr

/-- A register file of zeros reads 0 everywhere, as x0 does anyway. -/
theorem Hart.x_of_regs_zero (hz : h.regs = Vector.replicate 31 0) (r : RegNum) : h.x r = 0 := by
  by_cases hr : r = 0
  · rw [hr, Hart.x_zero]
  · rw [Hart.x_of_ne_zero hr, hz]
    exact Vector.getElem_replicate _

/-- Settles O1: a launch stores what it is given, and `State.reset` is the launch with pc 0, no byte and zeros in x1 to x31. -/
theorem launchState : Obligations.LaunchState :=
  ⟨fun _ _ _ _ _ => ⟨_, rfl, rfl, rfl, rfl, rfl, Hart.x_zero _, fun _ hr => Hart.x_of_ne_zero hr⟩,
    _, rfl, rfl, fun _ => rfl, Hart.x_of_regs_zero rfl⟩

end Sys2Proof.Machine

namespace Sys2Proof.Machine.Multicycle

open Sys2Proof.Claims

/-! ### What control values mean at the hart (R331) -/

/-- The rule of the instruction that control values stand for, in the operations that the meanings of `exec` are written
with; `exec_of_control` ties it to `exec`. -/
def Control.rule (k : Control) (h : Hart .rv32i) : HartResult .rv32i :=
  match k.cls with
  | .lw => loadInto h 4 k.rd (effectiveAddress h k.rs1 k.imm) 4 (signed .rv32i)
  | .sw => storeFrom h 4 (effectiveAddress h k.rs1 k.imm) 4 (h.x k.rs2)
  | .rType => writeReg h 4 k.rd (k.op.apply (h.x k.rs1) (h.x k.rs2))
  | .iType => writeReg h 4 k.rd (k.op.apply (h.x k.rs1) k.imm)
  | .beq => branchTo h 4 (BranchCond.eq.holds (h.x k.rs1) (h.x k.rs2)) (pcRelative h k.imm)
  | .jal => jumpAndLink h 4 k.rd (pcRelative h k.imm)

/-- The arithmetic unit finds a shift amount below 32 in the low five bits of its second operand. -/
theorem toNat_low_five_zeroExtend {shamt : BitVec 6} (hs : shamt.toNat < 32) :
    ((shamt.zeroExtend 32).setWidth 5).toNat = shamt.toNat := by
  simp only [BitVec.truncate_eq_setWidth, BitVec.toNat_setWidth]
  omega

variable {h h' : Hart .rv32i} {w : BitVec 32} {i : Instr} {k : Control}

/-- A shift by an immediate writes what the I-type class computes for it (log entry 10). -/
theorem exec_of_shift {op : AluOp} {rd rs1 : RegNum} {shamt : BitVec 6} {v : BitVec 32} (hw : i.wf .rv32i = true)
    (hi : exec i (at' h) = andThen (whenLegal h i (writeReg h 4 rd v)) fun h' => .next (at' h'))
    (hv : op.apply (h.x rs1) (shamt.zeroExtend 32) = v) :
    exec i (at' h) = andThen ((iControl op rd rs1 (shamt.zeroExtend 32)).rule h) fun h' => .next (at' h') := by
  rw [hi, whenLegal_wf hw, ← hv]
  rfl

/-- Executing an instruction of the six classes runs the rule of its control values. -/
theorem exec_of_control (hw : i.wf .rv32i = true) (hk : control i = some k) :
    exec i (at' h) = andThen (k.rule h) fun h' => .next (at' h') := by
  cases i <;> cases hk
  case slli rd rs1 shamt =>
    exact exec_of_shift hw rfl (congrArg (h.x rs1 <<< ·) (toNat_low_five_zeroExtend (of_decide_eq_true hw)))
  case srli rd rs1 shamt =>
    exact exec_of_shift hw rfl (congrArg (h.x rs1 >>> ·) (toNat_low_five_zeroExtend (of_decide_eq_true hw)))
  case srai rd rs1 shamt =>
    exact exec_of_shift hw rfl (congrArg (h.x rs1).sshiftRight (toNat_low_five_zeroExtend (of_decide_eq_true hw)))
  all_goals rfl

/-- A step that completes has run the rule of the decoded instruction's control values. -/
theorem rule_of_step (hf : fetch h = .next (.long w)) (hd : decode .rv32i (.long w) = .ok i)
    (hk : control i = some k) (hn : step (at' h) = .next (at' h')) : k.rule h = .next h' := by
  have hexec : exec i (at' h) = .next (at' h') := by rw [← hn, step_of_fetch hf, runWord_of_decode hd]
  rw [exec_of_control (decode_eq_ok.1 hd).2 hk, andThen_eq_next] at hexec
  obtain ⟨g, hg, e⟩ := hexec
  cases e
  exact hg

/-! ### Clock cycles until the next Fetch -/

/-- After n clock cycles the machine is in Fetch with the hart `h'`, and at none of the cycles between. -/
def ReturnsAfter (n : Nat) (d : Datapath) (h' : Hart .rv32i) : Prop :=
  (∃ m, ticks n d = some m ∧ m.phase = .fetch ∧ m.hart = h') ∧
    ∀ j, 0 < j → j < n → ∃ m, ticks j d = some m ∧ m.phase ≠ .fetch

variable {d m : Datapath} {n : Nat}

theorem ticks_succ (n : Nat) (d : Datapath) : ticks (n + 1) d = (tick d).bind (ticks n) := rfl

/-- A cycle that ends in Fetch is the last. -/
theorem returnsAfter_one (ht : tick d = some m) (hm : m.phase = .fetch) (hh : m.hart = h') : ReturnsAfter 1 d h' := by
  refine ⟨⟨m, ?_, hm, hh⟩, fun j h0 h1 => by omega⟩
  rw [ticks_succ, ht]
  rfl

/-- A cycle that ends elsewhere is one more before those that follow. -/
theorem returnsAfter_succ (ht : tick d = some m) (hm : m.phase ≠ .fetch) (hr : ReturnsAfter n m h') :
    ReturnsAfter (n + 1) d h' := by
  have hticks : ∀ j, ticks (j + 1) d = ticks j m := fun j => by rw [ticks_succ, ht]; rfl
  obtain ⟨hlast, hbetween⟩ := hr
  refine ⟨by rwa [hticks], fun j h0 hj => ?_⟩
  obtain ⟨j, rfl⟩ := Nat.exists_eq_succ_of_ne_zero h0.ne'
  rw [Nat.succ_eq_add_one, hticks]
  rcases Nat.eq_zero_or_pos j with rfl | hpos
  · exact ⟨m, rfl, hm⟩
  · exact hbetween j hpos (by omega)

/-! ### One clock cycle -/

theorem control_of_decode (hd : decode .rv32i (.long d.instr) = .ok i) (hk : control i = some k) :
    d.control = some k := by
  rw [Datapath.control, hd]
  exact hk

/-- Outside Fetch a cycle does what the state of R330 says, under the control values of the fetched instruction. -/
theorem tick_of_micro (hp : d.phase ≠ .fetch) (hc : d.control = some k) (hm : d.micro k = some m) : tick d = some m := by
  unfold tick
  split
  · contradiction
  · rw [hc, Option.bind_some, hm]

/-- MemRead goes on where the word at ALUOut can be read. -/
theorem micro_memRead {v : BitVec 32} (hp : d.phase = .memRead) (hv : memRead d.hart d.aluOut 4 = .next v) :
    d.micro k = some { d with data := v, phase := .memWB } := by
  rw [Datapath.micro, hp]
  simp only [hv]

/-- MemWrite goes on where x[rs2] can be stored at ALUOut. -/
theorem micro_memWrite (hp : d.phase = .memWrite) (hw : memWrite d.hart d.aluOut 4 (d.hart.x k.rs2) = .next h') :
    d.micro k = some { d with hart := h', phase := .fetch } := by
  rw [Datapath.micro, hp]
  simp only [hw]

/-- BEQ tests the difference of the two registers, which is 0 where they are equal. -/
theorem micro_beq (hp : d.phase = .beq) : d.micro k = some { d with
    hart := if d.hart.x k.rs1 = d.hart.x k.rs2 then d.hart.setPc d.aluOut else d.hart
    phase := .fetch } := by
  rw [Datapath.micro, hp]
  simp only [sub_eq_zero]

/-- In Fetch a cycle fetches, keeps the instruction's address, and advances the pc. -/
theorem tick_of_fetch (hp : d.phase = .fetch) (hf : fetch d.hart = .next (.long w)) :
    tick d = some { d with instr := w, oldPc := d.hart.pc, hart := d.hart.advance 4, phase := .decode } := by
  unfold tick
  rw [hp, hf]

/-! ### From the state after Decode to the next Fetch (R331) -/

/-- The machine after Fetch and Decode of the word `w` at the hart `h`. -/
def decoded (h : Hart .rv32i) (w : BitVec 32) (k : Control) (data : BitVec 32) : Datapath :=
  { phase := k.cls.afterDecode, hart := h.advance 4, oldPc := h.pc, instr := w, data := data, aluOut := h.pc + k.imm }

theorem afterDecode_ne_fetch (c : Class) : c.afterDecode ≠ .fetch := by cases c <;> decide

theorem two_le_cycles (c : Class) : 2 ≤ c.cycles := by cases c <;> decide

/-- Fetch and Decode are the first two cycles of every class. -/
theorem returnsAfter_start {o q e a : BitVec 32} (hf : fetch h = .next (.long w))
    (hc : ∀ d : Datapath, d.instr = w → d.control = some k) (hr : ReturnsAfter n (decoded h w k e) h') :
    ReturnsAfter (n + 2) (start h o q e a) h' :=
  returnsAfter_succ (tick_of_fetch rfl hf) nofun <|
    returnsAfter_succ (tick_of_micro nofun (hc _ rfl) rfl) (afterDecode_ne_fetch _) hr

/-- The pc that Fetch advanced is apart from the register that the last cycle writes. -/
theorem setX_advance (rd : RegNum) (v : BitVec 32) : (h.setX rd v).advance 4 = (h.advance 4).setX rd v := by
  rw [Hart.advance, Hart.setX_nextPc, Hart.setX_setPc]
  rfl

/-- A read does not see the pc that Fetch advanced. -/
theorem memRead_advance (a : BitVec 32) (n : Nat) {v : BitVec (8 * n)} (hv : memRead h a n = .next v) :
    memRead (h.advance 4) a n = .next v :=
  memRead_eq_next.2 (memRead_eq_next.1 hv :)

/-- Nor does a write, and it keeps it. -/
theorem memWrite_advance (a : BitVec 32) (n : Nat) {v : BitVec (8 * n)} (hw : memWrite h a n v = .next h') :
    memWrite (h.advance 4) a n v = .next (h'.advance 4) := by
  obtain ⟨halign, hperm, rfl⟩ := memWrite_eq_next.1 hw
  exact memWrite_eq_next.2 ⟨halign, hperm, rfl⟩

/-- After Decode each class completes its rule in the cycles that R331 leaves it. -/
theorem returnsAfter_decoded {e : BitVec 32} (hc : ∀ d : Datapath, d.instr = w → d.control = some k)
    (hr : k.rule h = .next h') : ReturnsAfter (k.cls.cycles - 2) (decoded h w k e) h' := by
  obtain ⟨cls, rd, rs1, rs2, imm, op⟩ := k
  cases cls with
  | lw =>
    obtain ⟨v, hv, hwrite⟩ := andThen_eq_next.1 hr
    obtain rfl := writeReg_eq_next.1 hwrite
    rw [setX_advance, signed, BitVec.signExtend_eq]
    exact returnsAfter_succ (tick_of_micro nofun (hc _ rfl) rfl) nofun <|
      returnsAfter_succ (tick_of_micro nofun (hc _ rfl) (micro_memRead rfl (memRead_advance _ 4 hv))) nofun <|
      returnsAfter_one (tick_of_micro nofun (hc _ rfl) rfl) rfl rfl
  | sw =>
    obtain ⟨g, hg, hadvance⟩ := andThen_eq_next.1 hr
    cases hadvance
    rw [BitVec.setWidth_eq] at hg
    exact returnsAfter_succ (tick_of_micro nofun (hc _ rfl) rfl) nofun <|
      returnsAfter_one (tick_of_micro nofun (hc _ rfl) (micro_memWrite rfl (memWrite_advance _ 4 hg))) rfl rfl
  | rType | iType =>
    obtain rfl := writeReg_eq_next.1 hr
    rw [setX_advance]
    exact returnsAfter_succ (tick_of_micro nofun (hc _ rfl) rfl) nofun <|
      returnsAfter_one (tick_of_micro nofun (hc _ rfl) rfl) rfl rfl
  | beq =>
    refine returnsAfter_one (tick_of_micro nofun (hc _ rfl) (micro_beq rfl)) rfl ?_
    rcases branchTo_eq_next.1 hr with ⟨hne, rfl⟩ | ⟨heq, -, rfl⟩
    · exact if_neg (of_decide_eq_false hne)
    · exact if_pos (of_decide_eq_true heq)
  | jal =>
    obtain ⟨-, rfl⟩ := jumpAndLink_eq_next.1 hr
    rw [Hart.setX_setPc]
    exact returnsAfter_succ (tick_of_micro nofun (hc _ rfl) rfl) nofun <|
      returnsAfter_one (tick_of_micro nofun (hc _ rfl) rfl) rfl rfl

/-- Settles O57: the step runs the rule of the control values, and after Fetch and Decode the machine completes that rule
in the rest of the class's cycles. -/
theorem multicycleRefinesStep : Obligations.MulticycleRefinesStep := by
  intro h h' w i k o n d a hf hd hk hn
  have hc : ∀ m : Datapath, m.instr = w → m.control = some k := by
    rintro m rfl
    exact control_of_decode hd hk
  have hrest : ReturnsAfter (k.cls.cycles - 2) (decoded h w k d) h' :=
    returnsAfter_decoded hc (rule_of_step hf hd hk hn)
  have hall : ReturnsAfter (k.cls.cycles - 2 + 2) (start h o n d a) h' := returnsAfter_start hf hc hrest
  rwa [Nat.sub_add_cancel (two_le_cycles _)] at hall

end Sys2Proof.Machine.Multicycle
end
